-- ==== Sys2Proof/Word.lean ====
section
/-!
DEFINITION. The block's word and byte (`00_scope.md` R9: "Every register is 32 bits wide unless a rule says
otherwise"; `20_memory.md` R69: a word is four bytes).
-/

namespace Sys2Proof

/-- A register, a buffer word or a command word: 32 bits, bit 0 least significant (R9). -/
abbrev Word := BitVec 32

/-- One byte lane of a buffer word (R69). -/
abbrev Byte := BitVec 8

end Sys2Proof
end

