-- ==== Sys2Proof/Syntax.lean ====
section
/-!
DEFINITION. The commands: one constructor per row of spec/opcode_table.json (`30_encoding.md` R96).
-/

namespace Sys2Proof

/-- A command the engine can run. A field is what the command word carries besides OP (R90). -/
inductive Instr where
  /-- NOP (`40_configuration.md` R126). -/
  | nop
  /-- CONFIGURE; `rev` is REV = w[4] (`40_configuration.md` R120, R121). -/
  | configure (rev : Bool)
  /-- ENCODE (`42_encoder.md` R160). -/
  | encode
  /-- DECODE (`43_decoder.md` R190). -/
  | decode
  /-- REVBITS; `width` is WIDTH = w[13:8], unsigned (`41_bit_utilities.md` R141, `30_encoding.md` R93). -/
  | revbits (width : BitVec 6)
  deriving DecidableEq, Repr

end Sys2Proof
end

