-- ==== Sys2Proof/WellFormed.lean ====
section
/-!
DEFINITION. Which commands have a legal word (`30_encoding.md` R96).
-/

namespace Sys2Proof

/-- WIDTH's "legal values 0..32" (R93) are the one check on a command's fields. -/
def Instr.wf : Instr → Bool
  | .nop => true
  | .configure _ => true
  | .encode => true
  | .decode => true
  | .revbits width => decide (width.toNat ≤ 32)

end Sys2Proof
end

