-- ==== Sys2Proof/Decode.lean ====
section
/-!
DEFINITION. The command word's fields, the decoder (total on every word, rejecting by name) and the encoder
(`30_encoding.md` R90 to R98). A command word is one 32-bit bus word: the block admits no narrower access
(`20_memory.md` R61), so the decoder reads the word whole.
-/

namespace Sys2Proof

/-- OP = w[3:0] (R91). -/
def opField (w : Word) : BitVec 4 := w.extractLsb' 0 4

/-- REV = w[4] (R92). -/
def revField (w : Word) : Bool := w.getLsbD 4

/-- The reserved field w[7:5] (R94). -/
def reservedLow (w : Word) : BitVec 3 := w.extractLsb' 5 3

/-- WIDTH = w[13:8] (R93). -/
def widthField (w : Word) : BitVec 6 := w.extractLsb' 8 6

/-- The reserved field w[31:14] (R94). -/
def reservedHigh (w : Word) : BitVec 18 := w.extractLsb' 14 18

/-- Why a word selects no command: the first four lines of R95, in their order. R95's fifth line (WIDTH above 32) is
checked by REVBITS itself, because such a word does match the table's REVBITS row (log 10). -/
inductive DecodeError where
  /-- w[3:0] ≥ 5. -/
  | reservedOpcode
  /-- A reserved bit is set. -/
  | reservedBits
  /-- REV is set outside CONFIGURE. -/
  | revOutsideConfigure
  /-- WIDTH is nonzero outside REVBITS. -/
  | widthOutsideRevbits
  deriving DecidableEq, Repr

/-- The sub-cause of Error(5, sub, 0) that R95 gives each rejected word. -/
def DecodeError.sub : DecodeError → BitVec 4
  | .reservedOpcode => 1
  | .reservedBits => 2
  | .revOutsideConfigure => 2
  | .widthOutsideRevbits => 2

/-- The opcode map (R96) of a word whose fields have been checked. -/
def selectCommand (w : Word) : Instr :=
  if opField w = 0 then .nop
  else if opField w = 1 then .configure (revField w)
  else if opField w = 2 then .encode
  else if opField w = 3 then .decode
  else .revbits (widthField w)

/-- Command decode: R95's checks in R95's order. -/
def decodeWord (w : Word) : Except DecodeError Instr :=
  if 5 ≤ (opField w).toNat then .error .reservedOpcode
  else if reservedLow w ≠ 0 ∨ reservedHigh w ≠ 0 then .error .reservedBits
  else if revField w = true ∧ opField w ≠ 1 then .error .revOutsideConfigure
  else if widthField w ≠ 0 ∧ opField w ≠ 4 then .error .widthOutsideRevbits
  else .ok (selectCommand w)

/-- A command word from its fields, bit 31 first: R90's pattern string. -/
def packWord (width : BitVec 6) (rev : Bool) (op : BitVec 4) : Word :=
  0#18 ++ width ++ 0#3 ++ BitVec.ofBool rev ++ op

/-- The word of a command (R96). -/
def encodeWord : Instr → Word
  | .nop => packWord 0 false 0
  | .configure rev => packWord 0 rev 1
  | .encode => packWord 0 false 2
  | .decode => packWord 0 false 3
  | .revbits width => packWord width false 4

/-- R96: "A word is legal iff it passes rule R95", all five lines of it. -/
def legalWord (w : Word) : Bool :=
  match decodeWord w with
  | .ok i => i.wf
  | .error _ => false

/-- The command the decoder reads from a word numbered as spec/opcode_table.json numbers its bits. -/
def decodeTableWord (nbits w : Nat) : Option Instr :=
  (decodeWord (BitVec.ofNat 32 (w % 2 ^ nbits))).toOption

end Sys2Proof
end

