-- ==== Sys2Proof/Config.lean ====
section
/-!
DEFINITION. What one implementation fixes (the parameters of `00_scope.md` R7, held in State as data so that claims
quantify over them) and the free values: constants without a body, one for each value the spec leaves open.
-/

namespace Sys2Proof

/-- The implementation parameters of R7. DESIGN CHOICE (log 1): a value of this type stands in State. -/
structure Params where
  /-- KMAX, the largest constraint length CONFIGURE accepts. -/
  kmax : Nat
  /-- NMAX, the number of polynomial registers. -/
  nmax : Nat
  /-- MW, the width in bits of one path metric register. -/
  mw : Nat
  /-- TMAX, the depth of the path memory in trellis steps. -/
  tmax : Nat
  /-- IN_WORDS, the input buffer's size in words. -/
  inWords : Nat
  /-- OUT_WORDS, the output buffer's size in words. -/
  outWords : Nat
  /-- BASE, the byte address of the window. -/
  base : Nat
  deriving DecidableEq, Repr

/-- The window's size in bytes, 2^18 (`20_memory.md` R60). -/
def windowSize : Nat := 0x40000

/-- R7's constraints on the parameters. -/
def Params.ok (p : Params) : Bool :=
  decide (1 ≤ p.kmax ∧ p.kmax ≤ 31) && decide (1 ≤ p.nmax ∧ p.nmax ≤ 32) && decide (1 ≤ p.mw ∧ p.mw ≤ 32) &&
  decide (p.tmax * p.nmax ≤ 2 ^ p.mw - 2) && decide (1 ≤ p.tmax) && decide (1 ≤ p.inWords ∧ p.inWords ≤ 16384) &&
  decide (1 ≤ p.outWords ∧ p.outWords ≤ 16384) && decide (p.base % windowSize = 0)

/-- The reference values of R7's table. BASE is OPEN: 0 is a DESIGN CHOICE (log 1). -/
def Params.reference : Params :=
  { kmax := 9, nmax := 4, mw := 16, tmax := 1024, inWords := 128, outWords := 128, base := 0 }

/-- IN_BITS = 32·IN_WORDS (R7). -/
def Params.inBits (p : Params) : Nat := 32 * p.inWords

/-- OUT_BITS = 32·OUT_WORDS (R7). -/
def Params.outBits (p : Params) : Nat := 32 * p.outWords

/-- INF = 2^MW − 1, the sentinel for an unreachable state (`00_scope.md` R8, `43_decoder.md` R193). -/
def Params.inf (p : Params) : Nat := 2 ^ p.mw - 1

/-! ### Free values (no body: nothing can be proved about what they are) -/

/-- The byte at a window offset that nothing has written since reset number `resets`
(`20_memory.md` R66, `70_reset_and_hazards.md` R281, U3, U4; log 2). -/
opaque Config.unwrittenByte (resets offset : Nat) : Byte

/-- Draw number `draw`: what a read of a result returns while BUSY = 1 (`20_memory.md` R68, U1; log 5). -/
opaque Config.busyRead (draw : Nat) : Word

/-- The latched command word after a completion (U2; log 4). -/
opaque Config.staleWord (draw : Nat) : Word

/-- SR after a completion (U2; log 4). -/
opaque Config.staleSr (draw : Nat) : Nat

/-- The PM registers after a completion (U2; log 4). -/
opaque Config.stalePm (draw : Nat) : List Nat

/-- The rows of PMEM after a completion (U2; log 4). -/
opaque Config.stalePmem (draw : Nat) : List (List (Nat × Bool))

/-- TB_S after a completion (U2; log 4). -/
opaque Config.staleTbS (draw : Nat) : Nat

/-- TB_T after a completion (U2; log 4). -/
opaque Config.staleTbT (draw : Nat) : Nat

/-- The loop index i of ENCODE after a completion (U2; log 4). -/
opaque Config.staleBitIdx (draw : Nat) : Nat

/-- The loop index t of DECODE after a completion (U2; log 4). -/
opaque Config.staleTime (draw : Nat) : Nat

end Sys2Proof
end

