-- ==== Sys2Proof/Machine/State.lean ====
section
/-!
DEFINITION. The state of the block: every register, flag and buffer the spec names, the engine-internal state
(`10_state.md` sections 2 to 7), and the model's own fields for what the host and the platform do.
-/

namespace Sys2Proof.Machine

/-- The error codes the block produces (`60_exceptions.md` R242). Codes 2 and 6 to 15 are "never produced" (R245,
U13), so they are no values of this type (log 11). -/
inductive ErrCode where
  /-- 0: every successful completion. -/
  | none
  /-- 1: ConfigurationError (R243). -/
  | config
  /-- 3: LengthError (R244). -/
  | length
  /-- 4: the block's capacity limits (R246). -/
  | capacity
  /-- 5: an illegal command word (R247). -/
  | command
  deriving DecidableEq, Repr

/-- STATUS (`10_state.md` R26): its fields; the reserved bits hold nothing and read 0 (R21). -/
structure Status where
  busy : Bool
  done : Bool
  err : Bool
  cfgValid : Bool
  ovr : Bool
  /-- ERR_CODE, bits 11:8. -/
  code : ErrCode
  /-- ERR_SUB, bits 15:12. -/
  sub : BitVec 4
  /-- ERR_IDX, bits 20:16. -/
  idx : BitVec 5
  deriving DecidableEq, Repr

/-- The engine-internal state, which no host access reaches (`10_state.md` R40 to R44, `20_memory.md` R60). -/
structure Engine where
  /-- The command word latched at acceptance (R44, `30_encoding.md` R103). -/
  latched : Word
  /-- SR, the encoder's shift register (R40). -/
  sr : Nat
  /-- PM[s], the path metric registers, state 0 first (R41). -/
  pm : List Nat
  /-- PMEM[t][s], time 1 first: the back-pointers (p, b) (R42). -/
  pmem : List (List (Nat × Bool))
  /-- TB_S, the traceback's current state (R43). -/
  tbS : Nat
  /-- TB_T, the traceback's current time (R43). -/
  tbT : Nat
  /-- The bit index i of ENCODE's loop (R43). -/
  bitIdx : Nat
  /-- The time t of DECODE's loop (R43). -/
  time : Nat
  deriving DecidableEq, Repr

/-- What happens to the block next, from outside or by the engine's turn (log 6). Addresses are the host's byte
addresses and `size` is the access's width in bytes, so that a host may also try what `20_memory.md` R61 does not
admit. -/
inductive Event where
  /-- The host reads. -/
  | hostRead (addr size : Nat)
  /-- The host writes. -/
  | hostWrite (addr size : Nat) (value : Word)
  /-- The engine has its turn: an accepted command executes now (`30_encoding.md` R104). -/
  | engineTurn
  /-- The platform asserts `rst` (`70_reset_and_hazards.md` R280). -/
  | resetAssert
  /-- The platform releases `rst` (R280). -/
  | resetRelease
  deriving DecidableEq, Repr

/-- The buffers' bytes by window offset. Canonical form: offsets strictly rising; a listed byte is one that was written
since reset, and an unlisted one reads as a free value (log 2). -/
abbrev Memory := List Host.Cell

structure State where
  /-- The implementation's parameters (`00_scope.md` R7), which PARAM0 to PARAM2 show (R22 to R24). -/
  params : Params
  /-- The level of the reset input (`70_reset_and_hazards.md` R280). -/
  rst : Bool
  /-- CTRL.IE (R25). -/
  ie : Bool
  /-- STATUS (R26). -/
  status : Status
  /-- CFG_K.K (R29). -/
  cfgK : BitVec 5
  /-- CFG_N.N (R30). -/
  cfgN : BitVec 6
  /-- CFG_POLY[0..NMAX−1] (R31). -/
  cfgPoly : List Word
  /-- IN_LEN (R32). -/
  inLen : Word
  /-- OUT_LEN (R33). -/
  outLen : Word
  /-- ARG (R34). -/
  arg : Word
  /-- RESULT (R34). -/
  result : Word
  /-- ACT_K (R35). -/
  actK : BitVec 5
  /-- ACT_N (R35). -/
  actN : BitVec 6
  /-- ACT_POLY[0..NMAX−1] (R35). -/
  actPoly : List Word
  /-- IN_BUF and OUT_BUF (R39). -/
  mem : Memory
  /-- The engine-internal state (R40 to R44). -/
  engine : Engine
  /-- Model's own: the number of resets, on which the free contents of the buffers depend (log 2). -/
  resets : Nat
  /-- Model's own: the number of free values drawn (logs 4, 5). -/
  draws : Nat
  /-- Model's own: what happens next, oldest first (log 6). -/
  schedule : List Event
  /-- Model's own: the word the last host read returned (log 13). -/
  readData : Word
  deriving DecidableEq, Repr

/-- Why the machine stops. No command does: an error is a completion (`60_exceptions.md` R240). Each is safe: the spec
gives the host no step there (log 7), so no claim about a run that makes such an access can be proved. -/
inductive Fault where
  /-- Raised by a host access that is not one aligned 32-bit word (`20_memory.md` R61, U5: stuck). Safe. -/
  | accessNotAdmitted
  /-- Raised by a host access while `rst` is asserted (`70_reset_and_hazards.md` R280, U5: stuck). Safe. -/
  | accessDuringReset
  /-- Raised by a host access outside the block's window, which does not reach the block (`20_memory.md` R60; log 8).
  Safe. -/
  | outsideWindow
  deriving DecidableEq, Repr

/-- Why an instruction has no meaning. Every command of the table has one, so nothing raises this. -/
inductive Refusal where
  /-- Raised by an arm of exec whose instruction is not modelled yet: none. Safe. -/
  | notModelled (mnemonic : String)
  deriving DecidableEq, Repr

/-- STATUS after reset, `0x00000000` (R26, R281). -/
def Status.reset : Status :=
  { busy := false, done := false, err := false, cfgValid := false, ovr := false, code := .none, sub := 0, idx := 0 }

/-- The engine-internal state after reset: the spec calls it unspecified and no rule reads it (R281, U2); the values
are a DESIGN CHOICE (log 3). -/
def Engine.reset : Engine :=
  { latched := 0, sr := 0, pm := [], pmem := [], tbS := 0, tbT := 0, bitIdx := 0, time := 0 }

/-- The reset state of R281 for parameters `p`; `resets`, `draws`, `schedule` and `readData` are the model's own. -/
def State.resetWith (p : Params) (resets draws : Nat) (schedule : List Event) (readData : Word) : State :=
  { params := p, rst := false, ie := false, status := Status.reset
    cfgK := 0, cfgN := 0, cfgPoly := List.replicate p.nmax 0
    inLen := 0, outLen := 0, arg := 0, result := 0
    actK := 0, actN := 0, actPoly := List.replicate p.nmax 0
    mem := [], engine := Engine.reset
    resets := resets, draws := draws, schedule := schedule, readData := readData }

/-- The block right after its first reset, with the reference parameters (R7, R281; logs 1, 2, 3). -/
def State.reset : State := State.resetWith Params.reference 0 0 [] 0

end Sys2Proof.Machine
end

