-- ==== Sys2Proof/Machine/Flags.lean ====
section
/-!
DEFINITION. STATUS: its word (`10_state.md` R26), every event that writes a flag or a condition code (R37), and the
interrupt output.
-/

namespace Sys2Proof.Machine

/-- The 4-bit value of an error code (`60_exceptions.md` R242). -/
def ErrCode.value : ErrCode → BitVec 4
  | .none => 0
  | .config => 1
  | .length => 3
  | .capacity => 4
  | .command => 5

/-- STATUS as the host reads it, bit 31 first: reserved, ERR_IDX, ERR_SUB, ERR_CODE, reserved, OVR, CFG_VALID, ERR, DONE,
BUSY (R26). -/
def Status.word (s : Status) : Word :=
  0#11 ++ s.idx ++ s.sub ++ s.code.value ++ 0#3 ++ BitVec.ofBool s.ovr ++ BitVec.ofBool s.cfgValid ++
    BitVec.ofBool s.err ++ BitVec.ofBool s.done ++ BitVec.ofBool s.busy

/-- Acceptance of a command (`30_encoding.md` R103): OVR and CFG_VALID are unchanged. -/
def Status.accepted (s : Status) : Status :=
  { s with busy := true, done := false, err := false, code := .none, sub := 0, idx := 0 }

/-- Completion of a command (`30_encoding.md` R105). -/
def Status.completed (code : ErrCode) (sub : BitVec 4) (idx : BitVec 5) (s : Status) : Status :=
  { s with busy := false, done := true, err := decide (code ≠ .none), code := code, sub := sub, idx := idx }

/-- A host write of `v` to STATUS (`10_state.md` R27): DONE, ERR and OVR are cleared by writing one. -/
def Status.clearOnes (v : Word) (s : Status) : Status :=
  { s with done := s.done && !v.getLsbD 1, err := s.err && !v.getLsbD 2, ovr := s.ovr && !v.getLsbD 4 }

/-- A host write discarded because BUSY = 1 (`20_memory.md` R67). -/
def Status.overrun (s : Status) : Status := { s with ovr := true }

/-- CFG_VALID, which only CONFIGURE and reset write (R37). -/
def Status.withCfgValid (v : Bool) (s : Status) : Status := { s with cfgValid := v }

/-- The interrupt output: `irq = STATUS.DONE & CTRL.IE` at every instant (`60_exceptions.md` R252). -/
def State.irq (s : State) : Bool := s.status.done && s.ie

end Sys2Proof.Machine
end

