-- ==== Sys2Proof/Machine/Ops.lean ====
section
/-!
DEFINITION. The shared operations: the buffers' bytes, words and bits (`20_memory.md` R64, R66, R69), acceptance and
completion of a command (`30_encoding.md` R103, R105), raising an error (`60_exceptions.md` R240, R250) and reset
(`70_reset_and_hazards.md` R280, R281).
-/

namespace Sys2Proof.Machine

/-! ### Bytes by offset -/

/-- The written byte at an offset, if one was written since reset. -/
def Memory.find : Memory → Nat → Option Byte
  | [], _ => none
  | (b, v) :: rest, a => if b = a then some v else Memory.find rest a

/-- Write one byte, keeping the offsets strictly rising. -/
def Memory.put : Memory → Nat → Byte → Memory
  | [], a, v => [(a, v)]
  | (b, u) :: rest, a, v =>
    if a < b then (a, v) :: (b, u) :: rest
    else if a = b then (a, v) :: rest
    else (b, u) :: Memory.put rest a v

/-- The canonical form: offsets strictly rising. -/
def Memory.wf : Memory → Bool
  | [] => true
  | [_] => true
  | (a, _) :: (b, v) :: rest => decide (a < b) && Memory.wf ((b, v) :: rest)

/-- The byte at a window offset of a buffer: what was last written there, else the free value that this reset left
there (`20_memory.md` R65, R66, U3, U4; log 2). -/
def State.byteAt (s : State) (a : Nat) : Byte := (s.mem.find a).getD (Config.unwrittenByte s.resets a)

/-! ### Words: four little-endian byte lanes (R69) -/

/-- The buffer word at a window offset. -/
def State.wordAt (s : State) (a : Nat) : Word :=
  s.byteAt (a + 3) ++ s.byteAt (a + 2) ++ s.byteAt (a + 1) ++ s.byteAt a

/-- Write a buffer word at a window offset. -/
def State.storeWord (a : Nat) (v : Word) (s : State) : State :=
  { s with mem := (((s.mem.put a (v.extractLsb' 0 8)).put (a + 1) (v.extractLsb' 8 8)).put
      (a + 2) (v.extractLsb' 16 8)).put (a + 3) (v.extractLsb' 24 8) }

/-- The window offset of IN_BUF word 0 (`20_memory.md` R62). -/
def inBase : Nat := 0x10000

/-- The window offset of OUT_BUF word 0 (R62). -/
def outBase : Nat := 0x20000

/-! ### Bits of a buffer, packed least significant first (R64) -/

/-- IBIT(j) = IN_BUF[j div 32][j mod 32]. -/
def State.inBit (s : State) (j : Nat) : Bool := (s.wordAt (inBase + 4 * (j / 32))).getLsbD (j % 32)

/-- Bit j of the output buffer, OUT_BUF[j div 32][j mod 32]. -/
def State.outBit (s : State) (j : Nat) : Bool := (s.wordAt (outBase + 4 * (j / 32))).getLsbD (j % 32)

/-- Set bit `i` of a byte. -/
def setByteBit (v : Byte) (i : Nat) (b : Bool) : Byte :=
  if b then v ||| (1#8 <<< i) else v &&& ~~~(1#8 <<< i)

/-- Set the bits of a byte from bit `i` upward. -/
def setByteBits (v : Byte) (i : Nat) : List Bool → Byte
  | [] => v
  | b :: rest => setByteBits (setByteBit v i b) (i + 1) rest

/-- A byte whose low bits are replaced by `bits`; all eight replaced, nothing of the old byte is left. -/
def mergeByte (old : Byte) (bits : List Bool) : Byte :=
  setByteBits (if 8 ≤ bits.length then 0 else old) 0 bits

/-- `OBIT(j) <- bits[j]` for the bits of the first `count` bytes of the output buffer, and for no other bit. -/
def State.storeOutBytes (bits : List Bool) (s : State) : Nat → State
  | 0 => s
  | q + 1 =>
    let t := s.storeOutBytes bits q
    { t with mem := t.mem.put (outBase + q) (mergeByte (t.byteAt (outBase + q)) ((bits.drop (8 * q)).take 8)) }

/-- `OBIT(j) <- bits[j]` for exactly `0 ≤ j < bits.length` (R66: every other bit keeps its value). -/
def State.storeOutBits (bits : List Bool) (s : State) : State := s.storeOutBytes bits ((bits.length + 7) / 8)

/-! ### A command's life -/

/-- The engine-internal state left by a command: free values of the registers' widths (`10_state.md` R45, U2; log 4). -/
def Engine.stale (p : Params) (draw : Nat) : Engine :=
  { latched := Config.staleWord draw
    sr := Config.staleSr draw % 2 ^ (p.kmax - 1)
    pm := ((Config.stalePm draw).take (2 ^ (p.kmax - 1))).map (· % 2 ^ p.mw)
    pmem := ((Config.stalePmem draw).take p.tmax).map fun row =>
      (row.take (2 ^ (p.kmax - 1))).map fun e => (e.1 % 2 ^ (p.kmax - 1), e.2)
    tbS := Config.staleTbS draw % 2 ^ (p.kmax - 1)
    tbT := Config.staleTbT draw % (p.tmax + 1)
    bitIdx := Config.staleBitIdx draw
    time := Config.staleTime draw }

/-- Acceptance of a CMD write of `w` while BUSY = 0 (`30_encoding.md` R103): every word is accepted. -/
def accept (w : Word) (s : State) : State :=
  { s with status := s.status.accepted, engine := { s.engine with latched := w } }

/-- Completion of a command (`30_encoding.md` R105); the engine-internal state is unspecified afterwards (R45). -/
def complete (code : ErrCode) (sub : BitVec 4) (idx : BitVec 5) (s : State) : State :=
  { s with status := s.status.completed code sub idx, engine := Engine.stale s.params s.draws, draws := s.draws + 1 }

/-- Success: completion with (0, 0, 0) (`60_exceptions.md` R251). -/
def succeed (s : State) : State := complete .none 0 0 s

/-- `raise Error(code, sub, idx)`, the block's analogue of trap entry (`60_exceptions.md` R240, R250): the command ends at
once and completes with these values. Nothing is saved and control goes nowhere; there is no return from it (R254).
What else an error writes (R250) is written by the command that raises it, before. -/
def raise (code : ErrCode) (sub : BitVec 4) (idx : BitVec 5) (s : State) : State := complete code sub idx s

/-! ### Reset -/

/-- `rst` is asserted: every register takes its reset value, a running command is abandoned without completing, both
buffers become unspecified (R280 to R282). What is still to happen outside, and the word last read, are not the
block's and stay (logs 6, 13). -/
def assertReset (s : State) : State :=
  { State.resetWith s.params (s.resets + 1) s.draws s.schedule s.readData with rst := true }

/-- `rst` is released: the block is idle in the reset state (R280). -/
def releaseReset (s : State) : State := { s with rst := false }

end Sys2Proof.Machine
end

