-- ==== Sys2Proof/Machine/Operands.lean ====
section
/-!
DEFINITION. What a command reads (`30_encoding.md` R99, `20_memory.md` R75): the staged configuration, the active
configuration, and the sequence in the input buffer.
-/

namespace Sys2Proof.Machine

/-- CFG_POLY[i] (`10_state.md` R31); a slot that does not exist reads 0 (R36). -/
def State.cfgPolyAt (s : State) (i : Nat) : Word := s.cfgPoly.getD i 0

/-- ACT_POLY[i] (R35); a slot that does not exist reads 0 (R36). -/
def State.actPolyAt (s : State) (i : Nat) : Word := s.actPoly.getD i 0

/-- The staged polynomials CFG_POLY[0..N−1] with N = CFG_N.N (`40_configuration.md` R120). -/
def State.stagedPolys (s : State) : List Word := (List.range s.cfgN.toNat).map s.cfgPolyAt

/-- A convolutional code: the constraint length K and the polynomials p_0 … p_(n−1) (`00_scope.md` R13). -/
structure Code where
  k : Nat
  polys : List Word
  deriving DecidableEq, Repr

/-- n, the number of polynomials. -/
def Code.n (c : Code) : Nat := c.polys.length

/-- S = 2^(K−1), the number of trellis states (R13). -/
def Code.numStates (c : Code) : Nat := 2 ^ (c.k - 1)

/-- The active configuration: K = ACT_K, n = ACT_N, p_i = ACT_POLY[i] (`40_configuration.md` R124). -/
def State.activeCode (s : State) : Code :=
  { k := s.actK.toNat, polys := (List.range s.actN.toNat).map s.actPolyAt }

/-- The sequence IBIT(0..IN_LEN−1): ENCODE's message, DECODE's received sequence (`10_state.md` R32). -/
def State.inputBits (s : State) : List Bool := (List.range s.inLen.toNat).map s.inBit

end Sys2Proof.Machine
end

