-- ==== Sys2Proof/Machine/BitUtilities.lean ====
section
/-!
DEFINITION. `41_bit_utilities.md`: ReverseBits, the tap evaluation and the trellis functions, and the command REVBITS.
-/

namespace Sys2Proof.Machine

/-- Set bit `i` of a word. -/
def setWordBit (v : Word) (i : Nat) (b : Bool) : Word :=
  if b then v ||| (1#32 <<< i) else v &&& ~~~(1#32 <<< i)

/-- R140's loop after its first `count` iterations: `r[i] <- v[width−1−i]`. -/
def reverseLoop (width : Nat) (v : Word) : Nat → Word
  | 0 => 0
  | i + 1 => setWordBit (reverseLoop width v i) i (v.getLsbD (width - 1 - i))

/-- ReverseBits(width, v), for width in 0..32 (R140). -/
def reverseBits (width : Nat) (v : Word) : Word := reverseLoop width v width

/-- `reg(s, b) = ((s << 1) | b) mod 2^K`: bit 0 is the current input (R143). -/
def reg (k s : Nat) (b : Bool) : Nat := ((s <<< 1) ||| b.toNat) % 2 ^ k

/-- The XOR of the low `count` bits of a value. -/
def parity : Nat → Nat → Bool
  | 0, _ => false
  | count + 1, v => (v % 2 == 1) ^^ parity count (v / 2)

/-- `tap(r, p) = parity(r & p)` for a K-bit register value and polynomial (R144). -/
def tap (k r p : Nat) : Bool := parity k (r &&& p)

/-- The output function g(s, b): one bit for each polynomial, in polynomial order (R145). -/
def Code.output (c : Code) (s : Nat) (b : Bool) : List Bool := c.polys.map fun p => tap c.k (reg c.k s b) p.toNat

/-- The next-state function f(s, b) = reg(s, b) mod 2^(K−1) (R146). -/
def Code.next (c : Code) (s : Nat) (b : Bool) : Nat := reg c.k s b % 2 ^ (c.k - 1)

/-- REVBITS (R141). WIDTH above 32 raises Error(5, 3, 0) and leaves RESULT (`30_encoding.md` R95, last check; log 10). -/
def execRevbits (width : BitVec 6) (s : State) : Host.Outcome State Fault Refusal :=
  if 32 < width.toNat then .next (raise .command 3 0 s)
  else .next (succeed { s with result := reverseBits width.toNat s.arg })

end Sys2Proof.Machine
end

