-- ==== Sys2Proof/Machine/Configuration.lean ====
section
/-!
DEFINITION. `40_configuration.md`: CONFIGURE and NOP.
-/

namespace Sys2Proof.Machine

/-- NOP: complete with success and no other effect (R126). -/
def execNop (s : State) : Host.Outcome State Fault Refusal := .next (succeed s)

/-- The polynomial checks of R120 from index `i` on: the first failing one, as (sub, idx). -/
def polyError (k : Nat) : Nat → List Word → Option (BitVec 4 × BitVec 5)
  | _, [] => none
  | i, p :: rest =>
    if p.toNat = 0 then some (5, BitVec.ofNat 5 i)
    else if 2 ^ k ≤ p.toNat then some (6, BitVec.ofNat 5 i)
    else polyError k (i + 1) rest

/-- CONFIGURE's checks in the order of R120 and `60_exceptions.md` R248: the first that fails, as (sub, idx). -/
def configError (s : State) : Option (BitVec 4 × BitVec 5) :=
  if s.cfgK.toNat = 0 then some (1, 0)
  else if s.params.kmax < s.cfgK.toNat then some (2, 0)
  else if s.cfgN.toNat = 0 then some (3, 0)
  else if s.params.nmax < s.cfgN.toNat then some (4, 0)
  else polyError s.cfgK.toNat 0 s.stagedPolys

/-- `q[i]` of R120: the staged polynomial, reversed over K bits when REV = 1 (R121). -/
def latchedPoly (rev : Bool) (k : Nat) (p : Word) : Word := if rev then reverseBits k p else p

/-- The registers after a failing CONFIGURE: no active configuration is left (R123). -/
def clearConfig (s : State) : State :=
  { s with status := s.status.withCfgValid false, actK := 0, actN := 0, actPoly := List.replicate s.params.nmax 0 }

/-- The registers after a successful CONFIGURE (R120, R124): `ACT_POLY[i] <- if i < N then q[i] else 0`. -/
def latchConfig (rev : Bool) (s : State) : State :=
  { s with status := s.status.withCfgValid true, actK := s.cfgK, actN := s.cfgN
           actPoly := (List.range s.params.nmax).map fun i =>
             if i < s.cfgN.toNat then latchedPoly rev s.cfgK.toNat (s.cfgPolyAt i) else 0 }

/-- CONFIGURE (R120). -/
def execConfigure (rev : Bool) (s : State) : Host.Outcome State Fault Refusal :=
  match configError s with
  | some e => .next (raise .config e.1 e.2 (clearConfig s))
  | none => .next (succeed (latchConfig rev s))

end Sys2Proof.Machine
end

