-- ==== Sys2Proof/Machine/Decoder.lean ====
section
/-!
DEFINITION. `43_decoder.md`: DECODE, its ACS unit, path memory and traceback engine.
-/

namespace Sys2Proof.Machine

/-- The received symbol at step t (1 ≤ t): symbol(t)[j] = Y[n·(t−1) + j] (R194). -/
def symbolAt (y : List Bool) (n t : Nat) : List Bool := (List.range n).map fun j => y.getD (n * (t - 1) + j) false

/-- The Hamming distance of two symbols: the count of differing positions (R194). -/
def hamming : List Bool → List Bool → Nat
  | a :: as, b :: bs => (a ^^ b).toNat + hamming as bs
  | _, _ => 0

/-- `addsat(a, d) = if a = INF then INF else a + d` (R193; log 12). -/
def addsat (inf a d : Nat) : Nat := if a = inf then inf else a + d

/-- The predecessors (p, b) of state s in ascending order (R196). -/
def preds (k s : Nat) : List (Nat × Bool) :=
  if k ≤ 1 then [(0, false), (0, true)]
  else [(s >>> 1, s.testBit 0), ((s >>> 1) ||| 2 ^ (k - 2), s.testBit 0)]

/-- A candidate of the ACS unit: its metric, and the back-pointer (p, b) it would record. -/
abbrev Candidate := Nat × Nat × Bool

/-- The candidates of state s against symbol y, from the metric column pm (R195). -/
def candidates (c : Code) (inf : Nat) (pm : List Nat) (y : List Bool) (s : Nat) : List Candidate :=
  (preds c.k s).map fun e => (addsat inf (pm.getD e.1 inf) (hamming (c.output e.1 e.2) y), e.1, e.2)

/-- A later candidate replaces the best only if strictly smaller (R196). -/
def better (best x : Candidate) : Candidate := if x.1 < best.1 then x else best

/-- The winner among the candidates, the first of the least metric (R196). -/
def winner (inf : Nat) : List Candidate → Candidate
  | [] => (inf, 0, false)
  | x :: rest => rest.foldl better x

/-- The ACS update of one state (R195). -/
def acs (c : Code) (inf : Nat) (pm : List Nat) (y : List Bool) (s : Nat) : Candidate :=
  winner inf (candidates c inf pm y s)

/-- The column replacement PM ← PMnew of one step (R195). -/
def acsColumn (c : Code) (inf : Nat) (pm : List Nat) (y : List Bool) : List Nat :=
  (List.range c.numStates).map fun s => (acs c inf pm y s).1

/-- The row PMEM[t][·] of one step (R197). -/
def acsRow (c : Code) (inf : Nat) (pm : List Nat) (y : List Bool) : List (Nat × Bool) :=
  (List.range c.numStates).map fun s => (acs c inf pm y s).2

/-- PM before the first step: PM[0] = 0, all others INF (R192). -/
def initialColumn (c : Code) (inf : Nat) : List Nat := 0 :: List.replicate (c.numStates - 1) inf

/-- PM after the steps of the symbols `ys` (R195). -/
def finalColumn (c : Code) (inf : Nat) (pm : List Nat) : List (List Bool) → List Nat
  | [] => pm
  | y :: ys => finalColumn c inf (acsColumn c inf pm y) ys

/-- The rows of PMEM after the steps of the symbols `ys`, time 1 first (R195, R197). -/
def pathMemory (c : Code) (inf : Nat) (pm : List Nat) : List (List Bool) → List (List (Nat × Bool))
  | [] => []
  | y :: ys => acsRow c inf pm y :: pathMemory c inf (acsColumn c inf pm y) ys

/-- The traceback walk (R200): PMEM's rows latest first, TB_S, and the bits recovered so far, in time order. -/
def traceback : List (List (Nat × Bool)) → Nat → List Bool → List Bool
  | [], _, bits => bits
  | row :: rows, tbS, bits =>
    let e := row.getD tbS (0, false)
    traceback rows e.1 (e.2 :: bits)

/-- The symbols of the received sequence y, T = len(y) div n of them (R194). -/
def Code.symbols (c : Code) (y : List Bool) : List (List Bool) :=
  (List.range (y.length / c.n)).map fun t => symbolAt y c.n (t + 1)

/-- The T decoded bits D[0..T−1]: traceback starts from state 0 at time T (R199, R200). -/
def Code.decodedBits (c : Code) (inf : Nat) (y : List Bool) : List Bool :=
  traceback (pathMemory c inf (initialColumn c inf) (c.symbols y)).reverse 0 []

/-- The decoded message: D without its K − 1 tail bits (R201). -/
def Code.decoded (c : Code) (inf : Nat) (y : List Bool) : List Bool :=
  (c.decodedBits inf y).take (y.length / c.n - (c.k - 1))

/-- T, the number of trellis steps of the received sequence (R13). -/
def State.trellisSteps (s : State) : Nat := s.inLen.toNat / s.actN.toNat

/-- DECODE's checks in the order of R190: the first that fails, as (code, sub). -/
def decodeError (s : State) : Option (ErrCode × BitVec 4) :=
  if s.status.cfgValid = false then some (.config, 7)
  else if s.params.inBits < s.inLen.toNat then some (.capacity, 1)
  else if s.inLen.toNat = 0 ∨ s.inLen.toNat % s.actN.toNat ≠ 0 then some (.length, 1)
  else if s.trellisSteps < s.actK.toNat - 1 then some (.length, 2)
  else if s.params.tmax < s.trellisSteps then some (.capacity, 3)
  else if s.params.outBits < s.trellisSteps - (s.actK.toNat - 1) then some (.capacity, 2)
  else none

/-- DECODE (R190). An error sets OUT_LEN to 0 and writes no output bit. -/
def execDecode (s : State) : Host.Outcome State Fault Refusal :=
  match decodeError s with
  | some e => .next (raise e.1 e.2 0 { s with outLen := 0 })
  | none => .next (succeed { s.storeOutBits (s.activeCode.decoded s.params.inf s.inputBits) with
      outLen := BitVec.ofNat 32 (s.trellisSteps - (s.actK.toNat - 1)) })

end Sys2Proof.Machine
end

