-- ==== Sys2Proof/Machine/Encoder.lean ====
section
/-!
DEFINITION. `42_encoder.md`: ENCODE.
-/

namespace Sys2Proof.Machine

/-- SR after the encoder steps of `bits`, from SR = `sr` (R161, step 3). -/
def Code.run (c : Code) (sr : Nat) : List Bool → Nat
  | [] => sr
  | b :: rest => c.run (c.next sr b) rest

/-- The symbols of the encoder steps of `bits`, from SR = `sr` (R161): each step emits g(SR, b), then SR ← f(SR, b). -/
def Code.emit (c : Code) (sr : Nat) : List Bool → List Bool
  | [] => []
  | b :: rest => c.output sr b ++ c.emit (c.next sr b) rest

/-- The encoder's inputs: the message, then K − 1 flush zeros (R162). -/
def Code.flushed (c : Code) (msg : List Bool) : List Bool := msg ++ List.replicate (c.k - 1) false

/-- The encoded sequence: SR starts at 0 in every ENCODE (R160, R164). -/
def Code.encoded (c : Code) (msg : List Bool) : List Bool := c.emit 0 (c.flushed msg)

/-- The result length n·(L + K − 1) (R163). -/
def Code.encodedLength (c : Code) (len : Nat) : Nat := c.n * (len + c.k - 1)

/-- ENCODE's checks in the order of R160: the first that fails, as (code, sub). -/
def encodeError (s : State) : Option (ErrCode × BitVec 4) :=
  if s.status.cfgValid = false then some (.config, 7)
  else if s.params.inBits < s.inLen.toNat then some (.capacity, 1)
  else if s.params.outBits < s.activeCode.encodedLength s.inLen.toNat then some (.capacity, 2)
  else none

/-- ENCODE (R160). An error sets OUT_LEN to 0 and writes no output bit. -/
def execEncode (s : State) : Host.Outcome State Fault Refusal :=
  match encodeError s with
  | some e => .next (raise e.1 e.2 0 { s with outLen := 0 })
  | none => .next (succeed { s.storeOutBits (s.activeCode.encoded s.inputBits) with
      outLen := BitVec.ofNat 32 (s.activeCode.encodedLength s.inLen.toNat) })

end Sys2Proof.Machine
end

