-- ==== Sys2Proof/Machine/Window.lean ====
section
/-!
DEFINITION. The host's window (`20_memory.md` R60 to R71): the address map, what a read returns and what a write does.
-/

namespace Sys2Proof.Machine

/-- What a 4-byte-aligned offset of the window names (R62). -/
inductive Reg where
  | param0 | param1 | param2
  | ctrl | status | cmd
  | cfgK | cfgN | inLen | outLen | arg | result | actK | actN
  /-- CFG_POLY[i], i < NMAX. -/
  | cfgPoly (i : Nat)
  /-- ACT_POLY[i], i < NMAX. -/
  | actPoly (i : Nat)
  /-- IN_BUF word w, w < IN_WORDS. -/
  | inBuf (w : Nat)
  /-- OUT_BUF word w, w < OUT_WORDS. -/
  | outBuf (w : Nat)
  /-- A reserved offset (R63). -/
  | reserved
  deriving DecidableEq, Repr

/-- The single registers of R62's map, by offset. -/
def fixedReg (off : Nat) : Reg :=
  if off = 0x000 then .param0
  else if off = 0x004 then .param1
  else if off = 0x008 then .param2
  else if off = 0x010 then .ctrl
  else if off = 0x014 then .status
  else if off = 0x018 then .cmd
  else if off = 0x020 then .cfgK
  else if off = 0x024 then .cfgN
  else if off = 0x028 then .inLen
  else if off = 0x02C then .outLen
  else if off = 0x030 then .arg
  else if off = 0x034 then .result
  else if off = 0x038 then .actK
  else if off = 0x03C then .actN
  else .reserved

/-- Slot `(off − start) / 4` of an array of `count` words at `start`, else reserved. -/
def slotReg (mk : Nat → Reg) (start count off : Nat) : Reg :=
  if (off - start) / 4 < count then mk ((off - start) / 4) else .reserved

/-- R62's map at an aligned offset. -/
def regAt (p : Params) (off : Nat) : Reg :=
  if off < 0x40 then fixedReg off
  else if off < 0xC0 then slotReg .cfgPoly 0x40 p.nmax off
  else if off < 0x140 then slotReg .actPoly 0xC0 p.nmax off
  else if off < 0x10000 then .reserved
  else if off < 0x20000 then slotReg .inBuf inBase p.inWords off
  else if off < 0x30000 then slotReg .outBuf outBase p.outWords off
  else .reserved

/-- The locked set of R67. -/
def Reg.locked : Reg → Bool
  | .cmd | .cfgK | .cfgN | .cfgPoly _ | .inLen | .arg | .inBuf _ => true
  | .param0 | .param1 | .param2 | .ctrl | .status | .outLen | .result | .actK | .actN | .actPoly _ | .outBuf _ => false
  | .reserved => false

/-- What reads as an unspecified value while BUSY = 1 (R68). -/
def Reg.volatile : Reg → Bool
  | .outLen | .result | .actK | .actN | .actPoly _ | .outBuf _ => true
  | .param0 | .param1 | .param2 | .ctrl | .status | .cmd | .cfgK | .cfgN | .cfgPoly _ | .inLen | .arg | .inBuf _ => false
  | .reserved => false

/-- PARAM0: KMAX, NMAX, MW (`10_state.md` R22). -/
def Params.word0 (p : Params) : Word :=
  0#15 ++ BitVec.ofNat 6 p.mw ++ BitVec.ofNat 6 p.nmax ++ BitVec.ofNat 5 p.kmax

/-- PARAM1: IN_WORDS, OUT_WORDS (R23). -/
def Params.word1 (p : Params) : Word := BitVec.ofNat 16 p.outWords ++ BitVec.ofNat 16 p.inWords

/-- The defined value of what an offset names (`10_state.md` R21 to R36, `20_memory.md` R63, R65, R66). -/
def State.regValue (s : State) : Reg → Word
  | .param0 => Params.word0 s.params
  | .param1 => Params.word1 s.params
  | .param2 => BitVec.ofNat 32 s.params.tmax
  | .ctrl => (BitVec.ofBool s.ie).setWidth 32
  | .status => s.status.word
  | .cmd => 0
  | .cfgK => s.cfgK.setWidth 32
  | .cfgN => s.cfgN.setWidth 32
  | .inLen => s.inLen
  | .outLen => s.outLen
  | .arg => s.arg
  | .result => s.result
  | .actK => s.actK.setWidth 32
  | .actN => s.actN.setWidth 32
  | .cfgPoly i => s.cfgPolyAt i
  | .actPoly i => s.actPolyAt i
  | .inBuf w => s.wordAt (inBase + 4 * w)
  | .outBuf w => s.wordAt (outBase + 4 * w)
  | .reserved => 0

/-- A host read at an admitted offset: no side effect on the block (R70). While BUSY = 1 a result reads as a fresh free
value (R68, U1; log 5). -/
def readOffset (off : Nat) (s : State) : State :=
  if s.status.busy && (regAt s.params off).volatile then
    { s with readData := Config.busyRead s.draws, draws := s.draws + 1 }
  else { s with readData := s.regValue (regAt s.params off) }

/-- A host write that is not discarded: RW registers take the value masked to the field, STATUS is W1C, CMD accepts a
command, everything else ignores the write (`10_state.md` R21 to R36; `20_memory.md` R63 to R66). -/
def State.writeReg (s : State) (v : Word) : Reg → State
  | .ctrl => { s with ie := v.getLsbD 0 }
  | .status => { s with status := s.status.clearOnes v }
  | .cmd => accept v s
  | .cfgK => { s with cfgK := v.setWidth 5 }
  | .cfgN => { s with cfgN := v.setWidth 6 }
  | .inLen => { s with inLen := v }
  | .arg => { s with arg := v }
  | .cfgPoly i => { s with cfgPoly := s.cfgPoly.set i v }
  | .inBuf w => s.storeWord (inBase + 4 * w) v
  | .param0 | .param1 | .param2 | .outLen | .result | .actK | .actN | .actPoly _ | .outBuf _ => s
  | .reserved => s

/-- A host write at an admitted offset: while BUSY = 1 a write to the locked set is discarded and sets OVR (R67). -/
def writeOffset (off : Nat) (v : Word) (s : State) : State :=
  if s.status.busy && (regAt s.params off).locked then { s with status := s.status.overrun }
  else s.writeReg v (regAt s.params off)

/-- The window offset of a host access, or why the host has no step for it (R60, R61; `70_reset_and_hazards.md` R280;
logs 7, 8). -/
def admitOffset (s : State) (addr size : Nat) : Except Fault Nat :=
  if s.rst then .error .accessDuringReset
  else if addr < s.params.base ∨ s.params.base + windowSize ≤ addr then .error .outsideWindow
  else if size ≠ 4 ∨ (addr - s.params.base) % 4 ≠ 0 then .error .accessNotAdmitted
  else .ok (addr - s.params.base)

/-- A host read. -/
def hostRead (addr size : Nat) (s : State) : Host.Outcome State Fault Refusal :=
  match admitOffset s addr size with
  | .ok off => .next (readOffset off s)
  | .error f => .fault f

/-- A host write. -/
def hostWrite (addr size : Nat) (v : Word) (s : State) : Host.Outcome State Fault Refusal :=
  match admitOffset s addr size with
  | .ok off => .next (writeOffset off v s)
  | .error f => .fault f

end Sys2Proof.Machine
end

