-- ==== Sys2Proof/Machine/Lifecycle.lean ====
section
/-!
DEFINITION. The two agents' turns: the engine runs the latched command (`30_encoding.md` R104), and the events of the
schedule (log 6).
-/

namespace Sys2Proof.Machine

/-- Execution of the latched word: R95's checks, then the command's own rule, then completion, in one transition (R104).
An illegal word "changes no state except through the completion" (R95). -/
def executeLatched (s : State) : Host.Outcome State Fault Refusal :=
  match decodeWord s.engine.latched with
  | .ok i => exec i s
  | .error e => .next (raise .command e.sub 0 s)

/-- The engine's turn: it runs the accepted command if there is one, and is idle otherwise (`10_state.md` R38,
`60_exceptions.md` R260; log 15). In reset nothing runs (`70_reset_and_hazards.md` R280). -/
def engineTurn (s : State) : Host.Outcome State Fault Refusal :=
  if s.status.busy && !s.rst then executeLatched s else .next s

/-- One event of the schedule. -/
def serve (s : State) : Event → Host.Outcome State Fault Refusal
  | .hostRead addr size => hostRead addr size s
  | .hostWrite addr size v => hostWrite addr size v s
  | .engineTurn => engineTurn s
  | .resetAssert => .next (assertReset s)
  | .resetRelease => .next (releaseReset s)

/-- The state in which the very next step runs the command word `w`: `w` has just been accepted (R103), `rst` is
released, and it is the engine's turn (log 16). -/
def placeCommand (w : Word) (s : State) : State :=
  accept w { s with rst := false, schedule := match s.schedule with
    | [] => []
    | e :: rest => .engineTurn :: e :: rest }

end Sys2Proof.Machine
end

