-- ==== Sys2Proof/Machine/Step.lean ====
section
/-!
DEFINITION. One step of the block: the oldest event of the schedule, and the engine's turn when none is left (log 6).
-/

namespace Sys2Proof.Machine

/-- One step (`10_state.md` R20, `20_memory.md` R71: one access or one engine transition at a time). -/
def step (s : State) : Host.Outcome State Fault Refusal :=
  match s.schedule with
  | [] => engineTurn s
  | e :: rest => serve { s with schedule := rest } e

/-- `s` with the command word `w` accepted, so that the next step runs it (log 16). -/
def State.withFetchWord (s : State) (nbits w : Nat) : State := placeCommand (BitVec.ofNat 32 (w % 2 ^ nbits)) s

end Sys2Proof.Machine
end

