-- ==== Sys2Proof/Safety.lean ====
section
/-!
DEFINITION. What counts as a safe step, the invariant of the machine, and the terms in which claims say what a command
changes and what it leaves.
-/

namespace Sys2Proof.Machine

/-- A step is safe when it answers a next state: no fault, no refusal. -/
def safeStep (s : State) : Prop := ∃ t, step s = .next t

/-- `count` steps, stopping at the first fault or refusal: Host.Core.run of this machine. -/
def runSteps : Nat → State → Host.Outcome State Fault Refusal
  | 0, s => .next s
  | count + 1, s =>
    match step s with
    | .next t => runSteps count t
    | .fault f => .fault f
    | .refused r => .refused r

/-- A valid code for an implementation: 1 ≤ K ≤ KMAX, 1 ≤ n ≤ NMAX, 0 < p_i < 2^K (`40_configuration.md` R122). -/
def Code.valid (p : Params) (c : Code) : Bool :=
  decide (1 ≤ c.k ∧ c.k ≤ p.kmax) && decide (1 ≤ c.n ∧ c.n ≤ p.nmax) &&
  c.polys.all fun q => decide (0 < q.toNat ∧ q.toNat < 2 ^ c.k)

/-- The offset is a byte of a word that IN_BUF or OUT_BUF has (`20_memory.md` R62). -/
def bufferByte (p : Params) (a : Nat) : Bool :=
  decide (inBase ≤ a ∧ a < inBase + 4 * p.inWords) || decide (outBase ≤ a ∧ a < outBase + 4 * p.outWords)

/-- The engine-internal registers stay within their widths (`10_state.md` R40 to R43). -/
structure Engine.Fits (p : Params) (e : Engine) : Prop where
  sr : e.sr < 2 ^ (p.kmax - 1)
  pm : ∀ m ∈ e.pm, m < 2 ^ p.mw
  pmCount : e.pm.length ≤ 2 ^ (p.kmax - 1)
  pmem : ∀ row ∈ e.pmem, ∀ x ∈ row, x.1 < 2 ^ (p.kmax - 1)
  pmemRow : ∀ row ∈ e.pmem, row.length ≤ 2 ^ (p.kmax - 1)
  pmemDepth : e.pmem.length ≤ p.tmax
  tbS : e.tbS < 2 ^ (p.kmax - 1)
  tbT : e.tbT ≤ p.tmax

/-- The invariant of the block. Reset meets it and every step keeps it. -/
structure State.Inv (s : State) : Prop where
  /-- The parameters meet R7's constraints. -/
  paramsOk : s.params.ok = true
  /-- The buffers' memory is in canonical form (log 2). -/
  memWf : s.mem.wf = true
  /-- Only bytes of the buffers are ever written. -/
  memInBuffers : ∀ c ∈ s.mem, bufferByte s.params c.1 = true
  /-- The polynomial registers are NMAX in number (`10_state.md` R31, R35). -/
  cfgPolyCount : s.cfgPoly.length = s.params.nmax
  actPolyCount : s.actPoly.length = s.params.nmax
  /-- CFG_VALID = 1 only with a valid active configuration (`40_configuration.md` R122, R124). -/
  activeValid : s.status.cfgValid = true → s.activeCode.valid s.params = true
  /-- ACT_K and ACT_N are 0 when CFG_VALID = 0 (`10_state.md` R35). -/
  activeAbsent : s.status.cfgValid = false → s.actK = 0 ∧ s.actN = 0
  /-- ACT_POLY[i] is 0 for i ≥ ACT_N (R35). -/
  unusedPolys : ∀ i, s.actN.toNat ≤ i → s.actPolyAt i = 0
  /-- DONE, ERR and the error fields are clear while BUSY = 1 (R26). -/
  busyClear : s.status.busy = true → s.status.done = false ∧ s.status.err = false ∧ s.status.code = .none
  /-- ERR, ERR_SUB and ERR_IDX are 0 where ERR_CODE is (R26). -/
  noError : s.status.code = .none → s.status.err = false ∧ s.status.sub = 0 ∧ s.status.idx = 0
  /-- ERR_IDX is nonzero only for the polynomial errors (1, 5) and (1, 6) (`60_exceptions.md` R241). -/
  indexMeaning : s.status.idx ≠ 0 → s.status.code = .config ∧ (s.status.sub = 5 ∨ s.status.sub = 6)
  /-- ERR_IDX is a polynomial index, below NMAX (R241). -/
  indexBound : s.status.idx.toNat < s.params.nmax
  /-- Nothing runs while `rst` is asserted (`70_reset_and_hazards.md` R280). -/
  resetIdle : s.rst = true → s.status.busy = false
  /-- OUT_LEN never exceeds the output buffer. -/
  outLenFits : s.outLen.toNat ≤ s.params.outBits
  /-- The engine-internal registers fit their widths. -/
  engineFits : s.engine.Fits s.params

/-! ### What a step of `s` is -/

/-- It is the engine's turn and an accepted command runs (`30_encoding.md` R104). -/
def engineRuns (s : State) : Prop :=
  s.status.busy = true ∧ s.rst = false ∧ (s.schedule = [] ∨ s.schedule.head? = some .engineTurn)

/-- The step runs the command `i`. -/
def runsCommand (s : State) (i : Instr) : Prop := engineRuns s ∧ decodeWord s.engine.latched = .ok i

/-- The step is a host write of `v` to the window offset `off`. -/
def hostWrites (s : State) (off : Nat) (v : Word) : Prop :=
  s.schedule.head? = some (.hostWrite (s.params.base + off) 4 v)

/-- The step is a host read of the window offset `off`. -/
def hostReads (s : State) (off : Nat) : Prop := s.schedule.head? = some (.hostRead (s.params.base + off) 4)

/-- The step asserts `rst`. -/
def assertsReset (s : State) : Prop := s.schedule.head? = some .resetAssert

/-- The host may access the offset: an aligned word of the window, `rst` released (`20_memory.md` R61). -/
def admitted (s : State) (off : Nat) : Prop := s.rst = false ∧ off % 4 = 0 ∧ off < windowSize

/-- The state the step's event acts on: the schedule without its head. -/
def State.popped (s : State) : State := { s with schedule := s.schedule.tail }

/-! ### Frames: what a transition from `s` to `t` leaves as it was -/

/-- What no command writes (`20_memory.md` R75, `30_encoding.md` R99): the parameters, the reset input, CTRL, OVR, the
operand registers, and the model's own record of the outside. -/
structure SameOperands (s t : State) : Prop where
  params : t.params = s.params
  rst : t.rst = s.rst
  ie : t.ie = s.ie
  ovr : t.status.ovr = s.status.ovr
  cfgK : t.cfgK = s.cfgK
  cfgN : t.cfgN = s.cfgN
  cfgPoly : t.cfgPoly = s.cfgPoly
  inLen : t.inLen = s.inLen
  arg : t.arg = s.arg
  resets : t.resets = s.resets
  schedule : t.schedule = s.schedule
  readData : t.readData = s.readData

/-- The active configuration (`40_configuration.md` R124). -/
structure SameActive (s t : State) : Prop where
  cfgValid : t.status.cfgValid = s.status.cfgValid
  actK : t.actK = s.actK
  actN : t.actN = s.actN
  actPoly : t.actPoly = s.actPoly

/-- Every byte of both buffers reads as before. -/
def SameBytes (s t : State) : Prop := ∀ a, t.byteAt a = s.byteAt a

/-- The completion of `30_encoding.md` R105 with (code, sub, idx). -/
structure Completed (code : ErrCode) (sub : BitVec 4) (idx : BitVec 5) (t : State) : Prop where
  busy : t.status.busy = false
  done : t.status.done = true
  err : t.status.err = decide (code ≠ .none)
  code : t.status.code = code
  sub : t.status.sub = sub
  idx : t.status.idx = idx

/-- No active configuration (`40_configuration.md` R123). -/
structure NoConfig (t : State) : Prop where
  cfgValid : t.status.cfgValid = false
  actK : t.actK = 0
  actN : t.actN = 0
  actPoly : t.actPoly = List.replicate t.params.nmax 0

/-- OUT_LEN and RESULT. -/
structure SameResults (s t : State) : Prop where
  outLen : t.outLen = s.outLen
  result : t.result = s.result

/-- The values `70_reset_and_hazards.md` R281 gives the state after reset, as far as it gives any; registers as the host
reads them. -/
structure ResetValues (p : Params) (t : State) : Prop where
  params : t.params = p
  param0 : t.regValue .param0 = BitVec.ofNat 32 (p.kmax + 2 ^ 5 * p.nmax + 2 ^ 11 * p.mw)
  param1 : t.regValue .param1 = BitVec.ofNat 32 (p.inWords + 2 ^ 16 * p.outWords)
  param2 : t.regValue .param2 = BitVec.ofNat 32 p.tmax
  ctrl : t.regValue .ctrl = 0
  status : t.regValue .status = 0
  cmd : t.regValue .cmd = 0
  cfgK : t.regValue .cfgK = 0
  cfgN : t.regValue .cfgN = 0
  cfgPoly : ∀ i, i < p.nmax → t.regValue (.cfgPoly i) = 0
  inLen : t.regValue .inLen = 0
  outLen : t.regValue .outLen = 0
  arg : t.regValue .arg = 0
  result : t.regValue .result = 0
  actK : t.regValue .actK = 0
  actN : t.regValue .actN = 0
  actPoly : ∀ i, i < p.nmax → t.regValue (.actPoly i) = 0
  irq : t.irq = false
  ovr : t.status.ovr = false

/-- Everything a host can read is the same in both states (`10_state.md` R45), but that of the input buffer only the
bits below IN_LEN must agree (`20_memory.md` R65). -/
structure SameVisible (s t : State) : Prop where
  params : t.params = s.params
  ie : t.ie = s.ie
  status : t.status = s.status
  cfgK : t.cfgK = s.cfgK
  cfgN : t.cfgN = s.cfgN
  cfgPoly : t.cfgPoly = s.cfgPoly
  inLen : t.inLen = s.inLen
  outLen : t.outLen = s.outLen
  arg : t.arg = s.arg
  result : t.result = s.result
  actK : t.actK = s.actK
  actN : t.actN = s.actN
  actPoly : t.actPoly = s.actPoly
  inBits : ∀ j, j < s.inLen.toNat → t.inBit j = s.inBit j
  outBits : ∀ j, t.outBit j = s.outBit j

end Sys2Proof.Machine
end

