-- ==== Sys2Proof/Certificates/Slice0/Obligations.lean ====
section
/-!
DEFINITION. The statements about the model, for the provers. Each docstring names the rule of the spec it formalises, or
the section it follows from.
-/

open Sys2Proof Sys2Proof.Machine

/-! ### Encoding -/

/-- Decoding and encoding agree in both directions: a word decodes to a command exactly when it is that command's word,
for every word and every operand. Follows from `30_encoding.md` sections 1 and 2, but for one part: that the decoder also
reads the words of WIDTH 33 to 63 as REVBITS, whose meaning then rejects them, is the model's choice (log 10, DEDUCED). -/
def Obligations.DecodeInvertsEncode : Prop :=
  ∀ (w : Word) (i : Instr), decodeWord w = .ok i ↔ w = encodeWord i

/-- R96: the opcode map, its 38 legal words, and the reserved opcodes. -/
def Obligations.LegalWordsAreTheOpcodeMap : Prop :=
  (∀ w : Word, decodeWord w = .ok .nop ↔ w = 0x00000000) ∧
  (∀ (w : Word) (rev : Bool), decodeWord w = .ok (.configure rev) ↔ w = if rev then 0x00000011 else 0x00000001) ∧
  (∀ w : Word, decodeWord w = .ok .encode ↔ w = 0x00000002) ∧
  (∀ w : Word, decodeWord w = .ok .decode ↔ w = 0x00000003) ∧
  (∀ (w : Word) (width : BitVec 6), width.toNat ≤ 32 →
    (decodeWord w = .ok (.revbits width) ↔ w = 0x00000004 + 0x100 * width.setWidth 32)) ∧
  (∀ i : Instr, legalWord (encodeWord i) = true ↔ (∀ width, i = .revbits width → width.toNat ≤ 32)) ∧
  (∃ l : List Word, l.length = 38 ∧ l.Nodup ∧ ∀ w, w ∈ l ↔ legalWord w = true) ∧
  (∀ s : State, engineRuns s → 5 ≤ s.engine.latched.toNat % 16 →
    ∃ t, step s = .next t ∧ Completed .command 1 0 t)

/-- Command words of the spec's vectors and what they decode to (`95_test_vectors.md`, L2 and L3; `30_encoding.md`
section 2). A sanity statement. -/
def Obligations.SampleWordsDecode : Prop :=
  decodeWord 0x00000000 = .ok .nop ∧ decodeWord 0x00000001 = .ok (.configure false) ∧
  decodeWord 0x00000011 = .ok (.configure true) ∧ decodeWord 0x00000002 = .ok .encode ∧
  decodeWord 0x00000003 = .ok .decode ∧ decodeWord 0x00000704 = .ok (.revbits 7) ∧
  decodeWord 0x00002004 = .ok (.revbits 32) ∧ decodeWord 0x00000015 = .error .reservedOpcode ∧
  decodeWord 0x80000002 = .error .reservedBits ∧ decodeWord 0x00000012 = .error .revOutsideConfigure ∧
  decodeWord 0x00000102 = .error .widthOutsideRevbits ∧ legalWord 0x00002104 = false

/-- R95: the checks of the latched word in their order. Read as numbers: `w % 16` is OP, `w / 16 % 2` REV, `w / 32 % 8`
and `w / 2^14` the reserved fields, `w / 256 % 64` WIDTH. An illegal word changes nothing but the completion. -/
def Obligations.IllegalWordsOnlyComplete : Prop :=
  ∀ (s : State) (sub : BitVec 4), engineRuns s →
    (5 ≤ s.engine.latched.toNat % 16 ∧ sub = 1 ∨
     s.engine.latched.toNat % 16 < 5 ∧
       (s.engine.latched.toNat / 32 % 8 ≠ 0 ∨ s.engine.latched.toNat / 2 ^ 14 ≠ 0 ∨
        s.engine.latched.toNat / 16 % 2 = 1 ∧ s.engine.latched.toNat % 16 ≠ 1 ∨
        s.engine.latched.toNat / 256 % 64 ≠ 0 ∧ s.engine.latched.toNat % 16 ≠ 4) ∧ sub = 2 ∨
     s.engine.latched.toNat % 16 = 4 ∧ s.engine.latched.toNat / 32 % 8 = 0 ∧ s.engine.latched.toNat / 2 ^ 14 = 0 ∧
       s.engine.latched.toNat / 16 % 2 = 0 ∧ 32 < s.engine.latched.toNat / 256 % 64 ∧ sub = 3 →
     ∃ t, step s = .next t ∧ Completed .command sub 0 t ∧ SameOperands s.popped t ∧ SameActive s t ∧ SameBytes s t ∧
       SameResults s t) ∧
    (s.engine.latched.toNat % 16 < 5 → s.engine.latched.toNat / 32 % 8 = 0 → s.engine.latched.toNat / 2 ^ 14 = 0 →
     (s.engine.latched.toNat / 16 % 2 = 1 → s.engine.latched.toNat % 16 = 1) →
     (s.engine.latched.toNat / 256 % 64 ≠ 0 → s.engine.latched.toNat % 16 = 4) →
     s.engine.latched.toNat / 256 % 64 ≤ 32 →
     ∃ i : Instr, i.wf = true ∧ decodeWord s.engine.latched = .ok i ∧ step s = exec i s.popped)

/-! ### Reset and the invariant -/

/-- Whatever the state, busy or not, asserting reset leaves the values of the reset table; nothing completes
(`70_reset_and_hazards.md` section 1). That they hold from the assertion on, one event before the release, is the model's
choice (log 9, DEDUCED), and so is that the schedule keeps what is still to come (log 6, DESIGN CHOICE). -/
def Obligations.ResetLeavesTheResetValues : Prop :=
  ∀ s : State, s.params.ok = true → assertsReset s →
    ∃ t, step s = .next t ∧ ResetValues s.params t ∧ t.rst = true ∧ t.schedule = s.schedule.tail ∧
      (t.schedule.head? = some .resetRelease → ∃ u, step t = .next u ∧ ResetValues s.params u ∧ u.rst = false)

/-- The model's reset state has the values of R281 with the reference parameters, and meets the invariant
(`70_reset_and_hazards.md` section 1). The reference parameters as the reset's are the model's choice (log 1). -/
def Obligations.ResetStateMeetsTheInvariant : Prop :=
  State.reset.Inv ∧ ResetValues Params.reference State.reset ∧ State.reset.rst = false

/-- Every step keeps the invariant: canonical memory in the buffers only, a legal active configuration exactly while
CFG_VALID = 1, cleared flags while busy, legal error fields, OUT_LEN within the buffer, hidden registers within their
widths. -/
def Obligations.StepKeepsTheInvariant : Prop :=
  ∀ s t : State, s.Inv → step s = .next t → t.Inv

/-! ### The engine's turn and the command's life -/

/-- A step in which an accepted word decodes to a command is that command's meaning, on the state without the schedule's
head (`30_encoding.md` section 6). The second clause is the model's choice (log 16, DEDUCED): in the state
`withFetchWord` makes of a command's word, with reset released and the engine's turn before the schedule, the very next
step runs it. -/
def Obligations.StepRunsTheLatchedCommand : Prop :=
  (∀ (s : State) (i : Instr), runsCommand s i → step s = exec i s.popped) ∧
  (∀ (s : State) (i : Instr),
    engineRuns (s.withFetchWord 32 (encodeWord i).toNat) ∧
    (s.withFetchWord 32 (encodeWord i).toNat).engine.latched = encodeWord i ∧
    step (s.withFetchWord 32 (encodeWord i).toNat) = exec i (s.withFetchWord 32 (encodeWord i).toNat).popped ∧
    (s.withFetchWord 32 (encodeWord i).toNat).popped.schedule = s.schedule)

/-- R103: a host write of any word to CMD while BUSY = 0 is accepted with R103's effects and no other; while BUSY = 1 it
is discarded and sets OVR. -/
def Obligations.CmdWriteIsAcceptedWhenIdle : Prop :=
  ∀ (s : State) (w : Word), s.rst = false → hostWrites s 0x18 w →
    (s.status.busy = false →
      ∃ t, step s = .next t ∧ t.engine = { s.engine with latched := w } ∧ t.status.busy = true ∧
        t.status.done = false ∧ t.status.err = false ∧ t.status.code = .none ∧ t.status.sub = 0 ∧ t.status.idx = 0 ∧
        SameOperands s.popped t ∧ SameActive s t ∧ SameBytes s t ∧ SameResults s t ∧ t.draws = s.draws) ∧
    (s.status.busy = true → step s = .next { s.popped with status := { s.status with ovr := true } })

/-- R105 and `20_memory.md` section 7: every command, from every state, answers a next state that is a completion, and
leaves the operand registers, CTRL, OVR and the whole input buffer as they were. -/
def Obligations.EveryCommandCompletes : Prop :=
  ∀ (i : Instr) (s : State), ∃ (t : State) (code : ErrCode) (sub : BitVec 4) (idx : BitVec 5),
    exec i s = .next t ∧ Completed code sub idx t ∧ (code = .none → sub = 0 ∧ idx = 0) ∧ SameOperands s t ∧
    (∀ a, a < outBase → t.byteAt a = s.byteAt a)

/-- While BUSY = 1 no host access changes what the running command reads, nor the latched word, nor BUSY
(`10_state.md` section 7, `20_memory.md` section 4). -/
def Obligations.BusyProtectsTheOperands : Prop :=
  ∀ (s : State) (off : Nat), s.status.busy = true → admitted s off → (hostReads s off ∨ ∃ v, hostWrites s off v) →
    ∃ t, step s = .next t ∧ t.status.busy = true ∧ t.engine = s.engine ∧ t.params = s.params ∧ t.cfgK = s.cfgK ∧
      t.cfgN = s.cfgN ∧ t.cfgPoly = s.cfgPoly ∧ t.inLen = s.inLen ∧ t.arg = s.arg ∧ SameActive s t ∧ SameBytes s t ∧
      SameResults s t

/-- An accepted command completes once the host's pending accesses are served, and its results are those of running it
at acceptance, whatever the accesses were (`30_encoding.md` section 6, `70_reset_and_hazards.md` section 3;
`95_test_vectors.md` P6). That it does so one step after the last of them is the model's choice (log 6, DESIGN CHOICE):
the schedule is finite, which stands for the spec's fairness, and an empty one is the engine's turn. -/
def Obligations.AcceptedCommandCompletesOnItsOperands : Prop :=
  ∀ (s : State) (i : Instr), s.status.busy = true → s.rst = false → decodeWord s.engine.latched = .ok i →
    (∀ e ∈ s.schedule, ∃ off, admitted s off ∧
      (e = .hostRead (s.params.base + off) 4 ∨ ∃ v, e = .hostWrite (s.params.base + off) 4 v)) →
    ∃ t u : State, runSteps (s.schedule.length + 1) s = .next t ∧ exec i s = .next u ∧
      t.status.busy = false ∧ t.status.done = true ∧ t.status.err = u.status.err ∧ t.status.code = u.status.code ∧
      t.status.sub = u.status.sub ∧ t.status.idx = u.status.idx ∧ SameActive u t ∧ SameResults u t ∧ SameBytes u t

/-- R45: a command reads no hidden state. Two executions of it on the same host-visible registers and buffer contents
give the same host-visible registers and buffer contents, and input bits at or above IN_LEN do not matter. -/
def Obligations.CommandsReadNoHiddenState : Prop :=
  ∀ (i : Instr) (s s' t t' : State), SameVisible s s' → exec i s = .next t → exec i s' = .next t' → SameVisible t t'

/-- Between commands the block keeps its state, and a read changes nothing in it (`60_exceptions.md` section 5). That a
step with nothing pending answers the same state, and is no stop, is the model's choice (log 15, DESIGN CHOICE); so is
the engine's turn as an event of the schedule (log 6, DESIGN CHOICE). -/
def Obligations.IdleKeepsTheState : Prop :=
  ∀ s : State, s.status.busy = false → (s.schedule = [] → step s = .next s) ∧
    (s.schedule.head? = some .engineTurn → step s = .next s.popped) ∧
    (∀ off, admitted s off → hostReads s off → ∃ v, step s = .next { s.popped with readData := v })

/-! ### The host's window -/

/-- R62: what each offset of the window names. -/
def Obligations.WindowMap : Prop :=
  ∀ p : Params, p.ok = true →
    regAt p 0x000 = .param0 ∧ regAt p 0x004 = .param1 ∧ regAt p 0x008 = .param2 ∧ regAt p 0x00C = .reserved ∧
    regAt p 0x010 = .ctrl ∧ regAt p 0x014 = .status ∧ regAt p 0x018 = .cmd ∧ regAt p 0x01C = .reserved ∧
    regAt p 0x020 = .cfgK ∧ regAt p 0x024 = .cfgN ∧ regAt p 0x028 = .inLen ∧ regAt p 0x02C = .outLen ∧
    regAt p 0x030 = .arg ∧ regAt p 0x034 = .result ∧ regAt p 0x038 = .actK ∧ regAt p 0x03C = .actN ∧
    (∀ i, i < 32 → regAt p (0x040 + 4 * i) = if i < p.nmax then .cfgPoly i else .reserved) ∧
    (∀ i, i < 32 → regAt p (0x0C0 + 4 * i) = if i < p.nmax then .actPoly i else .reserved) ∧
    (∀ off, 0x140 ≤ off → off < 0x10000 → regAt p off = .reserved) ∧
    (∀ w, w < 16384 → regAt p (0x10000 + 4 * w) = if w < p.inWords then .inBuf w else .reserved) ∧
    (∀ w, w < 16384 → regAt p (0x20000 + 4 * w) = if w < p.outWords then .outBuf w else .reserved) ∧
    (∀ off, 0x30000 ≤ off → off < windowSize → regAt p off = .reserved)

/-- A read returns the value of what the offset names, and changes nothing in the block; while BUSY = 1 the results and
the output buffer read as a fresh free value (`10_state.md` sections 2 to 5, `20_memory.md` sections 2 to 5; log 5 for the
form of the free value). Reserved offsets: `ReservedOffsetsAreInert`. -/
def Obligations.ReadsReturnTheNamedValue : Prop :=
  ∀ (s : State) (off : Nat), admitted s off → hostReads s off →
    ∃ t, step s = .next t ∧
      (¬(s.status.busy = true ∧ (regAt s.params off).volatile = true) →
        t = { s.popped with readData := t.readData } ∧
        (s.params.ok = true →
          (off = 0x000 → t.readData.toNat = s.params.kmax + 2 ^ 5 * s.params.nmax + 2 ^ 11 * s.params.mw) ∧
          (off = 0x004 → t.readData.toNat = s.params.inWords + 2 ^ 16 * s.params.outWords) ∧
          (off = 0x008 → t.readData.toNat = s.params.tmax)) ∧
        (off = 0x010 → t.readData.toNat = s.ie.toNat) ∧
        (off = 0x014 → t.readData = s.regValue .status) ∧
        (off = 0x018 → t.readData = 0) ∧
        (off = 0x020 → t.readData.toNat = s.cfgK.toNat) ∧
        (off = 0x024 → t.readData.toNat = s.cfgN.toNat) ∧
        (off = 0x028 → t.readData = s.inLen) ∧
        (off = 0x02C → t.readData = s.outLen) ∧
        (off = 0x030 → t.readData = s.arg) ∧
        (off = 0x034 → t.readData = s.result) ∧
        (off = 0x038 → t.readData.toNat = s.actK.toNat) ∧
        (off = 0x03C → t.readData.toNat = s.actN.toNat) ∧
        (∀ i, i < 32 → i < s.params.nmax → off = 0x040 + 4 * i → t.readData = s.cfgPoly.getD i 0) ∧
        (∀ i, i < 32 → i < s.params.nmax → off = 0x0C0 + 4 * i → t.readData = s.actPoly.getD i 0) ∧
        (∀ w, w < 16384 → w < s.params.inWords → off = 0x10000 + 4 * w →
          ∀ b, b < 32 → t.readData.getLsbD b = s.inBit (32 * w + b) ∧
            t.readData.getLsbD b = (s.byteAt (off + b / 8)).getLsbD (b % 8)) ∧
        (∀ w, w < 16384 → w < s.params.outWords → off = 0x20000 + 4 * w →
          ∀ b, b < 32 → t.readData.getLsbD b = s.outBit (32 * w + b) ∧
            t.readData.getLsbD b = (s.byteAt (off + b / 8)).getLsbD (b % 8))) ∧
      (s.status.busy = true → (regAt s.params off).volatile = true →
        t = { s.popped with readData := t.readData, draws := s.draws + 1 }) ∧
      ((regAt s.params off).volatile = true ↔
        off = 0x02C ∨ off = 0x034 ∨ off = 0x038 ∨ off = 0x03C ∨
        (0x0C0 ≤ off ∧ off < 0x0C0 + 4 * min 32 s.params.nmax) ∨
        (0x20000 ≤ off ∧ off < 0x20000 + 4 * min 16384 s.params.outWords))

/-- The word STATUS reads as, by its fields' positions, and the numbers of the error codes (`10_state.md` section 3,
`60_exceptions.md` section 1). -/
def Obligations.StatusWordLayout : Prop :=
  (∀ s : State, (s.regValue .status).toNat =
    s.status.busy.toNat + 2 * s.status.done.toNat + 4 * s.status.err.toNat + 8 * s.status.cfgValid.toNat +
    16 * s.status.ovr.toNat + 2 ^ 8 * s.status.code.value.toNat + 2 ^ 12 * s.status.sub.toNat +
    2 ^ 16 * s.status.idx.toNat) ∧
  ErrCode.none.value.toNat = 0 ∧ ErrCode.config.value.toNat = 1 ∧ ErrCode.length.value.toNat = 3 ∧
  ErrCode.capacity.value.toNat = 4 ∧ ErrCode.command.value.toNat = 5

/-- An idle write to an RW register or to a word of the input buffer replaces that one register or word and nothing
else, and reads back masked to the field width (`10_state.md` sections 1, 3, 4 and 5; `20_memory.md` section 3). -/
def Obligations.WrittenRegistersReadBack : Prop :=
  ∀ (s : State) (off : Nat) (v mask : Word), s.Inv → s.status.busy = false → admitted s off → hostWrites s off v →
    (off = 0x010 ∧ mask = 0x1 ∨ off = 0x020 ∧ mask = 0x1F ∨ off = 0x024 ∧ mask = 0x3F ∨
     (off = 0x028 ∨ off = 0x030 ∨ (0x040 ≤ off ∧ off < 0x040 + 4 * s.params.nmax) ∨
      (0x10000 ≤ off ∧ off < 0x10000 + 4 * s.params.inWords)) ∧ mask = 0xFFFFFFFF) →
    ∃ t, step s = .next t ∧
      (off = 0x010 → t = { s.popped with ie := v.getLsbD 0 }) ∧
      (off = 0x020 → t = { s.popped with cfgK := v.extractLsb' 0 5 }) ∧
      (off = 0x024 → t = { s.popped with cfgN := v.extractLsb' 0 6 }) ∧
      (off = 0x028 → t = { s.popped with inLen := v }) ∧
      (off = 0x030 → t = { s.popped with arg := v }) ∧
      (∀ i, i < s.params.nmax → off = 0x040 + 4 * i →
        t = { s.popped with cfgPoly := t.cfgPoly } ∧ t.cfgPoly.length = s.cfgPoly.length ∧ t.cfgPolyAt i = v ∧
        ∀ j, j ≠ i → t.cfgPolyAt j = s.cfgPolyAt j) ∧
      (∀ w, w < s.params.inWords → off = 0x10000 + 4 * w →
        t = { s.popped with mem := t.mem } ∧ (∀ b, b < 32 → t.inBit (32 * w + b) = v.getLsbD b) ∧
        ∀ a, a < off ∨ off + 4 ≤ a → t.byteAt a = s.byteAt a) ∧
      SameActive s t ∧ SameResults s t ∧ t.status = s.status ∧ (∀ j, t.outBit j = s.outBit j) ∧
      (hostReads t off → ∃ u, step t = .next u ∧ u.readData = v &&& mask)

/-- R27: what a host write to STATUS clears, busy or not; all else is unchanged. A read of STATUS has no effect. -/
def Obligations.StatusWriteClearsOnes : Prop :=
  (∀ s : State, s.rst = false → hostReads s 0x14 → step s = .next { s.popped with readData := s.regValue .status }) ∧
  ∀ (s : State) (v : Word), s.rst = false → hostWrites s 0x14 v →
    ∃ t, step s = .next t ∧
      t.status.done = (if v.getLsbD 1 then false else s.status.done) ∧
      t.status.err = (if v.getLsbD 2 then false else s.status.err) ∧
      t.status.ovr = (if v.getLsbD 4 then false else s.status.ovr) ∧
      t = { s.popped with
            status := { s.status with done := t.status.done, err := t.status.err, ovr := t.status.ovr } }

/-- R67: while BUSY = 1 a write to the locked set is discarded and sets OVR; CTRL takes effect; a write to a read-only
register, to the output buffer or to a reserved offset is ignored whatever BUSY is. (STATUS: `StatusWriteClearsOnes`.) -/
def Obligations.LockedWritesAreDiscarded : Prop :=
  ∀ (s : State) (off : Nat) (v : Word), s.params.ok = true → admitted s off → hostWrites s off v →
    (s.status.busy = true →
      (off = 0x018 ∨ off = 0x020 ∨ off = 0x024 ∨ (0x040 ≤ off ∧ off < 0x040 + 4 * s.params.nmax) ∨
       off = 0x028 ∨ off = 0x030 ∨ (0x10000 ≤ off ∧ off < 0x10000 + 4 * s.params.inWords)) →
      step s = .next { s.popped with status := { s.status with ovr := true } }) ∧
    (off = 0x010 → step s = .next { s.popped with ie := v.getLsbD 0 }) ∧
    (off = 0x014 → ∃ t, step s = .next t ∧ t.status.done = (s.status.done && !v.getLsbD 1) ∧
      t.status.err = (s.status.err && !v.getLsbD 2) ∧ t.status.ovr = (s.status.ovr && !v.getLsbD 4)) ∧
    (off < 0x010 ∨ off = 0x01C ∨ off = 0x02C ∨ off = 0x034 ∨ off = 0x038 ∨ off = 0x03C ∨
      (0x040 + 4 * s.params.nmax ≤ off ∧ off < 0x10000) ∨
      (0x10000 + 4 * s.params.inWords ≤ off ∧ off < 0x20000) ∨ 0x20000 ≤ off →
      step s = .next s.popped)

/-- R63: reserved offsets read 0 and ignore writes, busy or not, and do not set OVR. -/
def Obligations.ReservedOffsetsAreInert : Prop :=
  ∀ (s : State) (off : Nat), s.params.ok = true → admitted s off →
    (off = 0x00C ∨ off = 0x01C ∨ (0x040 + 4 * s.params.nmax ≤ off ∧ off < 0x0C0) ∨
     (0x0C0 + 4 * s.params.nmax ≤ off ∧ off < 0x10000) ∨ (0x10000 + 4 * s.params.inWords ≤ off ∧ off < 0x20000) ∨
     0x20000 + 4 * s.params.outWords ≤ off) →
    (hostReads s off → step s = .next { s.popped with readData := 0 }) ∧
    (∀ v, hostWrites s off v → step s = .next s.popped)

/-- An access that is not one aligned word of the window, or that comes while reset is asserted, is not admitted: the
host has no step (`20_memory.md` R61, `93_implementation_defined.md` U5). That the model ends the run there by a fault
is its choice (logs 7, 8). -/
def Obligations.UnadmittedAccessesStop : Prop :=
  ∀ (s : State) (addr size : Nat) (v : Word),
    (s.schedule.head? = some (.hostRead addr size) ∨ s.schedule.head? = some (.hostWrite addr size v)) →
    (s.rst = true → step s = .fault .accessDuringReset) ∧
    (s.rst = false → (addr < s.params.base ∨ s.params.base + windowSize ≤ addr) → step s = .fault .outsideWindow) ∧
    (s.rst = false → s.params.base ≤ addr → addr < s.params.base + windowSize →
      (size ≠ 4 ∨ (addr - s.params.base) % 4 ≠ 0) → step s = .fault .accessNotAdmitted) ∧
    (s.rst = false → s.params.base ≤ addr → addr < s.params.base + windowSize →
      size = 4 → (addr - s.params.base) % 4 = 0 → safeStep s)

/-! ### Flags, errors and the interrupt -/

/-- R37: which events write each flag and condition code. -/
def Obligations.FlagsChangeOnlyByTheirEvents : Prop :=
  ∀ s t : State, step s = .next t →
    (t.status.busy ≠ s.status.busy →
      (s.status.busy = false ∧ ∃ w, hostWrites s 0x18 w) ∨ engineRuns s ∨ assertsReset s) ∧
    (t.status.done ≠ s.status.done ∨ t.status.err ≠ s.status.err →
      engineRuns s ∨ (s.status.busy = false ∧ ∃ w, hostWrites s 0x18 w) ∨ (∃ v, hostWrites s 0x14 v) ∨
        assertsReset s) ∧
    (t.status.cfgValid ≠ s.status.cfgValid → (∃ rev, runsCommand s (.configure rev)) ∨ assertsReset s) ∧
    (t.status.ovr ≠ s.status.ovr →
      (s.status.busy = true ∧ ∃ off v, hostWrites s off v ∧ (regAt s.params off).locked = true) ∨
      (∃ v, hostWrites s 0x14 v ∧ v.getLsbD 4 = true) ∨ assertsReset s) ∧
    (t.status.code ≠ s.status.code ∨ t.status.sub ≠ s.status.sub ∨ t.status.idx ≠ s.status.idx →
      engineRuns s ∨ (s.status.busy = false ∧ ∃ w, hostWrites s 0x18 w) ∨ assertsReset s)

/-- R250: what an error changes, by the command that ends with it; and an illegal word. -/
def Obligations.ErrorsChangeOnlyTheirFields : Prop :=
  (∀ (s : State) (e : DecodeError), engineRuns s → decodeWord s.engine.latched = .error e →
    ∃ t, step s = .next t ∧ Completed .command e.sub 0 t ∧ SameOperands s.popped t ∧ SameActive s t ∧ SameBytes s t ∧
      SameResults s t) ∧
  ∀ (i : Instr) (s t : State), exec i s = .next t → t.status.code ≠ .none →
    t.status.busy = false ∧ t.status.done = true ∧ t.status.err = true ∧ SameOperands s t ∧ SameBytes s t ∧
    t.result = s.result ∧
    (∀ rev, i = .configure rev → NoConfig t ∧ t.outLen = s.outLen ∧ t.status.code = .config) ∧
    (i = .encode ∨ i = .decode → SameActive s t ∧ t.outLen = 0) ∧
    (i = .nop ∨ (∃ width, i = .revbits width) → SameActive s t ∧ t.outLen = s.outLen)

/-- R253: how irq = DONE & IE falls and what masks it, with the completion that raises it. -/
def Obligations.InterruptFollowsDoneAndEnable : Prop :=
  (∀ s : State, s.irq = (s.status.done && s.ie)) ∧
  (∀ (i : Instr) (s t : State), exec i s = .next t → t.irq = s.ie) ∧
  (∀ (s t : State) (v : Word), step s = .next t → hostWrites s 0x14 v → v.getLsbD 1 = true → t.irq = false) ∧
  (∀ (s t : State) (w : Word), step s = .next t → s.status.busy = false → hostWrites s 0x18 w → t.irq = false) ∧
  (∀ s t : State, step s = .next t → assertsReset s → t.irq = false) ∧
  (∀ (s t : State) (v : Word), step s = .next t → hostWrites s 0x10 v →
    t.status.done = s.status.done ∧ t.irq = (s.status.done && v.getLsbD 0)) ∧
  (∀ s t : State, step s = .next t → s.status.done = true → t.status.done = false →
    (∃ v, hostWrites s 0x14 v ∧ v.getLsbD 1 = true) ∨ (s.status.busy = false ∧ ∃ w, hostWrites s 0x18 w) ∨
      assertsReset s)

/-- OUT_LEN is written only by ENCODE and DECODE, RESULT only by a successful REVBITS, the output buffer only by ENCODE
and DECODE (and all of them by reset): `10_state.md` section 5, `20_memory.md` section 7. -/
def Obligations.ResultsAreWrittenOnlyByTheirCommands : Prop :=
  ∀ s t : State, step s = .next t → ¬assertsReset s →
    (t.outLen ≠ s.outLen → runsCommand s .encode ∨ runsCommand s .decode) ∧
    (t.result ≠ s.result → ∃ width, runsCommand s (.revbits width) ∧ width.toNat ≤ 32) ∧
    (∀ a, outBase ≤ a → s.params.ok = true → t.byteAt a ≠ s.byteAt a →
      (runsCommand s .encode ∨ runsCommand s .decode) ∧ t.status.code = .none) ∧
    (∀ a, a < outBase → s.params.ok = true → t.byteAt a ≠ s.byteAt a →
      ∃ off v, hostWrites s off v ∧ off ≤ a ∧ a < off + 4)

/-! ### CONFIGURE and NOP -/

/-- CONFIGURE with legal staged values latches them, reversed when REV = 1, and changes nothing else
(`40_configuration.md`, CONFIGURE). -/
def Obligations.ConfigureLatchesLegalValues : Prop :=
  ∀ (rev : Bool) (s : State), 1 ≤ s.cfgK.toNat → s.cfgK.toNat ≤ s.params.kmax → 1 ≤ s.cfgN.toNat →
    s.cfgN.toNat ≤ s.params.nmax →
    (∀ i, i < s.cfgN.toNat → 0 < (s.cfgPolyAt i).toNat ∧ (s.cfgPolyAt i).toNat < 2 ^ s.cfgK.toNat) →
    ∃ t, exec (.configure rev) s = .next t ∧ Completed .none 0 0 t ∧ t.status.cfgValid = true ∧ t.actK = s.cfgK ∧
      t.actN = s.cfgN ∧ t.actPoly.length = s.params.nmax ∧
      (∀ i, i < s.params.nmax → t.actPolyAt i =
        if i < s.cfgN.toNat then (if rev then reverseBits s.cfgK.toNat (s.cfgPolyAt i) else s.cfgPolyAt i) else 0) ∧
      SameOperands s t ∧ SameResults s t ∧ SameBytes s t

/-- CONFIGURE reports the first failing check, polynomials in index order, before any reversal
(`60_exceptions.md` section 3, item 2; `40_configuration.md`, CONFIGURE). -/
def Obligations.ConfigureReportsTheFirstError : Prop :=
  ∀ (rev : Bool) (s : State) (sub : BitVec 4) (idx : BitVec 5),
    (s.cfgK.toNat = 0 ∧ sub = 1 ∧ idx = 0 ∨
     s.params.kmax < s.cfgK.toNat ∧ s.cfgK.toNat ≠ 0 ∧ sub = 2 ∧ idx = 0 ∨
     s.cfgK.toNat ≠ 0 ∧ s.cfgK.toNat ≤ s.params.kmax ∧
       (s.cfgN.toNat = 0 ∧ sub = 3 ∧ idx = 0 ∨
        s.params.nmax < s.cfgN.toNat ∧ s.cfgN.toNat ≠ 0 ∧ sub = 4 ∧ idx = 0 ∨
        s.cfgN.toNat ≠ 0 ∧ s.cfgN.toNat ≤ s.params.nmax ∧
          ∃ i, i < s.cfgN.toNat ∧ idx = BitVec.ofNat 5 i ∧
            (∀ j, j < i → 0 < (s.cfgPolyAt j).toNat ∧ (s.cfgPolyAt j).toNat < 2 ^ s.cfgK.toNat) ∧
            ((s.cfgPolyAt i).toNat = 0 ∧ sub = 5 ∨ 2 ^ s.cfgK.toNat ≤ (s.cfgPolyAt i).toNat ∧ sub = 6))) →
    ∃ t, exec (.configure rev) s = .next t ∧ Completed .config sub idx t ∧ NoConfig t ∧ SameOperands s t ∧
      SameResults s t ∧ SameBytes s t

/-- R123: a failing CONFIGURE leaves no active configuration, and without one ENCODE and DECODE fail with
Error(1, 7, 0); that stays so until a CONFIGURE succeeds. -/
def Obligations.FailedConfigureLeavesNoConfiguration : Prop :=
  (∀ (rev : Bool) (s t : State), exec (.configure rev) s = .next t → t.status.code ≠ .none → NoConfig t) ∧
  (∀ (i : Instr) (s : State), i = .encode ∨ i = .decode → s.status.cfgValid = false →
    ∃ t, exec i s = .next t ∧ Completed .config 7 0 t ∧ t.outLen = 0 ∧ t.status.cfgValid = false ∧ SameBytes s t) ∧
  (∀ s t : State, step s = .next t → s.status.cfgValid = false → t.status.cfgValid = true →
    ∃ rev, runsCommand s (.configure rev) ∧ t.status.code = .none)

/-- R125: the active configuration changes only by CONFIGURE and by reset; a successful CONFIGURE replaces it. -/
def Obligations.ActiveConfigurationChangesOnlyByConfigure : Prop :=
  ∀ s t : State, step s = .next t →
    (¬SameActive s t → (∃ rev, runsCommand s (.configure rev)) ∨ assertsReset s) ∧
    (∀ off v, hostWrites s off v → SameActive s t) ∧
    (∀ rev, runsCommand s (.configure rev) → t.status.code = .none →
      t.status.cfgValid = true ∧ t.actK = s.cfgK ∧ t.actN = s.cfgN ∧
      t.actPoly = (List.range s.params.nmax).map fun j =>
        if j < s.cfgN.toNat then (if rev then reverseBits s.cfgK.toNat (s.cfgPolyAt j) else s.cfgPolyAt j) else 0)

/-- R126: NOP is word 0 only, needs no configuration, completes with success and changes nothing else. -/
def Obligations.NopOnlyCompletes : Prop :=
  (∀ w : Word, decodeWord w = .ok .nop ↔ w = 0) ∧
  (∀ s : State, ∃ t, exec .nop s = .next t ∧ Completed .none 0 0 t ∧ SameOperands s t ∧ SameActive s t ∧
    SameResults s t ∧ SameBytes s t)

/-! ### Bit utilities -/

/-- R140: the bits of ReverseBits(width, v). -/
def Obligations.ReverseBitsMovesEachBit : Prop :=
  ∀ (width : Nat) (v : Word), width ≤ 32 →
    (∀ i, i < width → (reverseBits width v).getLsbD i = v.getLsbD (width - 1 - i)) ∧
    (∀ i, width ≤ i → (reverseBits width v).getLsbD i = false) ∧
    (∀ u : Word, (∀ i, i < width → u.getLsbD i = v.getLsbD i) → reverseBits width u = reverseBits width v) ∧
    reverseBits 0 v = 0

/-- R142: the double reversal is the value modulo 2^width, so the value itself below 2^width. -/
def Obligations.ReverseBitsIsAnInvolution : Prop :=
  ∀ (width : Nat) (p : Word), width ≤ 32 →
    (reverseBits width (reverseBits width p)).toNat = p.toNat % 2 ^ width ∧
    (p.toNat < 2 ^ width → reverseBits width (reverseBits width p) = p)

/-- R141: REVBITS, its word, its result for WIDTH in 0..32, its error above, its frame. -/
def Obligations.RevbitsWritesTheResult : Prop :=
  (∀ width : BitVec 6, encodeWord (.revbits width) = 0x00000004 + 0x100 * width.setWidth 32) ∧
  (∀ (width : BitVec 6) (s : State), width.toNat ≤ 32 →
    ∃ t, exec (.revbits width) s = .next t ∧ Completed .none 0 0 t ∧ t.result = reverseBits width.toNat s.arg ∧
      (∀ j, t.result.getLsbD j = (decide (j < width.toNat) && s.arg.getLsbD (width.toNat - 1 - j))) ∧
      SameOperands s t ∧ SameActive s t ∧ t.outLen = s.outLen ∧ SameBytes s t) ∧
  (∀ (width : BitVec 6) (s : State), 32 < width.toNat →
    ∃ t, exec (.revbits width) s = .next t ∧ Completed .command 3 0 t ∧ SameResults s t ∧
      SameOperands s t ∧ SameActive s t ∧ SameBytes s t)

/-- The encoder register: its value, its current-input bit and its history bits (`41_bit_utilities.md` section 2). -/
def Obligations.RegisterHoldsTheLastInputs : Prop :=
  ∀ (k s : Nat) (b : Bool), 1 ≤ k → s < 2 ^ (k - 1) →
    reg k s b = 2 * s + b.toNat ∧ reg k s b < 2 ^ k ∧ (reg k s b).testBit 0 = b ∧
    (∀ j, 1 ≤ j → j ≤ k - 1 → (reg k s b).testBit j = s.testBit (j - 1))

/-- R144: the tap is the modulo-2 sum of the bits of `r AND p`, for K-bit values. -/
def Obligations.TapIsTheParityOfTheMaskedRegister : Prop :=
  ∀ k r p : Nat, r < 2 ^ k → p < 2 ^ k →
    tap k r p = decide (((List.range k).countP fun j => (r &&& p).testBit j) % 2 = 1)

/-- R146: the next-state function and the predecessors of a state. -/
def Obligations.NextStateAndItsPredecessors : Prop :=
  ∀ c : Code, 1 ≤ c.k →
    (∀ s b, c.next s b = (2 * s + b.toNat) % c.numStates) ∧
    (c.k = 1 → c.numStates = 1 ∧ (∀ s b, c.next s b = 0) ∧ preds c.k 0 = [(0, false), (0, true)]) ∧
    (∀ s, 2 ≤ c.k → s < c.numStates →
      (∀ p b, p < c.numStates →
        (c.next p b = s ↔ (p = s / 2 ∨ p = s / 2 + 2 ^ (c.k - 2)) ∧ b = decide (s % 2 = 1))) ∧
      s / 2 < 2 ^ (c.k - 2) ∧ s / 2 + 2 ^ (c.k - 2) < c.numStates)

/-! ### ENCODE -/

/-- R163: a successful ENCODE gives n·(L + K − 1) bits; position n·i + j is tap j of the register of step i. Only those
bits, OUT_LEN and the completion are written. -/
def Obligations.EncodeWritesTheCodeword : Prop :=
  ∀ s : State, s.params.ok = true → s.status.cfgValid = true → 1 ≤ s.actK.toNat → s.inLen.toNat ≤ s.params.inBits →
    s.actN.toNat * (s.inLen.toNat + s.actK.toNat - 1) ≤ s.params.outBits →
    ∃ t, exec .encode s = .next t ∧ Completed .none 0 0 t ∧
      t.outLen.toNat = s.actN.toNat * (s.inLen.toNat + s.actK.toNat - 1) ∧
      (∀ i j, i < s.inLen.toNat + s.actK.toNat - 1 → j < s.actN.toNat →
        t.outBit (s.actN.toNat * i + j) =
          tap s.actK.toNat
            (reg s.actK.toNat (s.activeCode.run 0 ((s.activeCode.flushed s.inputBits).take i))
              (decide (i < s.inLen.toNat) && s.inBit i))
            (s.actPolyAt j).toNat) ∧
      (∀ j, t.outLen.toNat ≤ j → t.outBit j = s.outBit j) ∧
      (∀ a, a < outBase ∨ outBase + (t.outLen.toNat + 7) / 8 ≤ a → t.byteAt a = s.byteAt a) ∧
      SameOperands s t ∧ SameActive s t ∧ t.result = s.result

/-- The encoder as a convolution: output bit j of step i is the modulo-2 sum of the inputs x(i − d) over the delays d
that polynomial j taps, where x is the message and 0 outside it (`41_bit_utilities.md` section 2, "polynomial bit j
taps the input delayed by j steps", with `42_encoder.md`, ENCODE). -/
def Obligations.EncodeIsTheConvolutionOfTheMessage : Prop :=
  ∀ s : State, s.params.ok = true → s.status.cfgValid = true → 1 ≤ s.actK.toNat → s.inLen.toNat ≤ s.params.inBits →
    s.actN.toNat * (s.inLen.toNat + s.actK.toNat - 1) ≤ s.params.outBits →
    ∃ t, exec .encode s = .next t ∧
      ∀ i j, i < s.inLen.toNat + s.actK.toNat - 1 → j < s.actN.toNat →
        t.outBit (s.actN.toNat * i + j) =
          decide (((List.range s.actK.toNat).countP fun d =>
            (s.actPolyAt j).getLsbD d && (decide (d ≤ i) && (decide (i - d < s.inLen.toNat) && s.inBit (i - d)))) % 2 = 1)

/-- The errors of ENCODE in their order; each sets OUT_LEN to 0 and writes no output bit (`42_encoder.md`, ENCODE;
`60_exceptions.md` section 3, item 3). -/
def Obligations.EncodeReportsTheFirstError : Prop :=
  ∀ (s : State) (code : ErrCode) (sub : BitVec 4),
    (s.status.cfgValid = false ∧ code = .config ∧ sub = 7 ∨
     s.status.cfgValid = true ∧ s.params.inBits < s.inLen.toNat ∧ code = .capacity ∧ sub = 1 ∨
     s.status.cfgValid = true ∧ s.inLen.toNat ≤ s.params.inBits ∧
       s.params.outBits < s.actN.toNat * (s.inLen.toNat + s.actK.toNat - 1) ∧ code = .capacity ∧ sub = 2) →
    ∃ t, exec .encode s = .next t ∧ Completed code sub 0 t ∧ t.outLen = 0 ∧ t.result = s.result ∧ SameOperands s t ∧
      SameActive s t ∧ SameBytes s t

/-- R162: after the message the encoder takes exactly K − 1 zeros, and they drive the register back to state 0. -/
def Obligations.FlushReturnsToStateZero : Prop :=
  ∀ (c : Code) (msg : List Bool), 1 ≤ c.k →
    (c.flushed msg).length = msg.length + (c.k - 1) ∧ (c.flushed msg).take msg.length = msg ∧
    (∀ b ∈ (c.flushed msg).drop msg.length, b = false) ∧ c.run 0 (c.flushed msg) = 0

/-- R165: the empty message gives n·(K − 1) zero bits; for K = 1 it gives none and no byte is written. -/
def Obligations.EmptyMessageEncodesToZeros : Prop :=
  ∀ s : State, s.params.ok = true → s.status.cfgValid = true → 1 ≤ s.actK.toNat → s.inLen = 0 →
    s.actN.toNat * (s.actK.toNat - 1) ≤ s.params.outBits →
    ∃ t, exec .encode s = .next t ∧ Completed .none 0 0 t ∧
      t.outLen.toNat = s.actN.toNat * (s.actK.toNat - 1) ∧
      (∀ j, j < t.outLen.toNat → t.outBit j = false) ∧ (s.actK.toNat = 1 → t.outLen = 0 ∧ SameBytes s t)

/-- R166: the tap, the register, the next state and the encoding are linear over GF(2); the impulse response of K = 3,
[7, 5] is 111011. -/
def Obligations.EncodingIsLinear : Prop :=
  (∀ k r r' p : Nat, tap k (r ^^^ r') p = (tap k r p ^^ tap k r' p)) ∧
  (∀ (k s s' : Nat) (b b' : Bool), reg k (s ^^^ s') (b ^^ b') = reg k s b ^^^ reg k s' b') ∧
  (∀ (c : Code) (s s' : Nat) (b b' : Bool), c.next (s ^^^ s') (b ^^ b') = c.next s b ^^^ c.next s' b') ∧
  (∀ (c : Code) (m m' : List Bool), m.length = m'.length →
    c.encoded (List.zipWith (· ^^ ·) m m') = List.zipWith (· ^^ ·) (c.encoded m) (c.encoded m')) ∧
  ({ k := 3, polys := [7, 5] } : Code).encoded [true] = [true, true, true, false, true, true]

/-! ### DECODE -/

/-- R201: a successful DECODE writes the T − (K − 1) decoded bits before the tail, OUT_LEN and the completion, and
nothing else. -/
def Obligations.DecodeWritesTheMessage : Prop :=
  ∀ s : State, s.params.ok = true → s.status.cfgValid = true → s.inLen.toNat ≤ s.params.inBits → s.inLen.toNat ≠ 0 →
    s.inLen.toNat % s.actN.toNat = 0 → s.actK.toNat - 1 ≤ s.inLen.toNat / s.actN.toNat →
    s.inLen.toNat / s.actN.toNat ≤ s.params.tmax →
    s.inLen.toNat / s.actN.toNat - (s.actK.toNat - 1) ≤ s.params.outBits →
    ∃ t, exec .decode s = .next t ∧ Completed .none 0 0 t ∧
      t.outLen.toNat = s.inLen.toNat / s.actN.toNat - (s.actK.toNat - 1) ∧
      (s.activeCode.decodedBits s.params.inf s.inputBits).length = s.inLen.toNat / s.actN.toNat ∧
      (∀ j, j < t.outLen.toNat →
        t.outBit j = (s.activeCode.decodedBits s.params.inf s.inputBits).getD j false) ∧
      (∀ j, t.outLen.toNat ≤ j → t.outBit j = s.outBit j) ∧
      (∀ a, a < outBase ∨ outBase + (t.outLen.toNat + 7) / 8 ≤ a → t.byteAt a = s.byteAt a) ∧
      SameOperands s t ∧ SameActive s t ∧ t.result = s.result

/-- The errors of DECODE in their order; each sets OUT_LEN to 0 and writes no output bit (`43_decoder.md` section 1;
`60_exceptions.md` section 3, item 4). -/
def Obligations.DecodeReportsTheFirstError : Prop :=
  ∀ (s : State) (code : ErrCode) (sub : BitVec 4),
    (s.status.cfgValid = false ∧ code = .config ∧ sub = 7 ∨
     s.status.cfgValid = true ∧ (s.params.inBits < s.inLen.toNat ∧ code = .capacity ∧ sub = 1 ∨
      s.inLen.toNat ≤ s.params.inBits ∧ (¬(0 < s.inLen.toNat ∧ s.actN.toNat ∣ s.inLen.toNat) ∧ code = .length ∧ sub = 1 ∨
       (0 < s.inLen.toNat ∧ s.actN.toNat ∣ s.inLen.toNat) ∧
        (s.inLen.toNat / s.actN.toNat < s.actK.toNat - 1 ∧ code = .length ∧ sub = 2 ∨
         s.actK.toNat - 1 ≤ s.inLen.toNat / s.actN.toNat ∧
          (s.params.tmax < s.inLen.toNat / s.actN.toNat ∧ code = .capacity ∧ sub = 3 ∨
           s.inLen.toNat / s.actN.toNat ≤ s.params.tmax ∧
            s.params.outBits < s.inLen.toNat / s.actN.toNat - (s.actK.toNat - 1) ∧ code = .capacity ∧ sub = 2))))) →
    ∃ t, exec .decode s = .next t ∧ Completed code sub 0 t ∧ t.outLen = 0 ∧ t.result = s.result ∧ SameOperands s t ∧
      SameActive s t ∧ SameBytes s t

/-- R196: the predecessors in ascending order of (p, b), and the winner: the first whose candidate is least. -/
def Obligations.AcsTakesTheFirstLeastCandidate : Prop :=
  ∀ (c : Code) (inf : Nat) (pm : List Nat) (y : List Bool) (s : Nat), 1 ≤ c.k → s < c.numStates →
    (preds c.k s).Pairwise (fun e d => e.1 < d.1 ∨ e.1 = d.1 ∧ e.2 = false ∧ d.2 = true) ∧
    (∀ p b, (p, b) ∈ preds c.k s ↔ p < c.numStates ∧ c.next p b = s) ∧
    ∃ before after : List Candidate,
      candidates c inf pm y s = before ++ acs c inf pm y s :: after ∧
      (∀ x ∈ before, (acs c inf pm y s).1 < x.1) ∧ (∀ x ∈ after, (acs c inf pm y s).1 ≤ x.1)

/-- R193: every path metric fits MW bits, a finite one is at most t·n after step t and below INF, so that no addition
overflows. -/
def Obligations.PathMetricsNeverOverflow : Prop :=
  ∀ (p : Params) (c : Code) (ys : List (List Bool)) (m : Nat), p.ok = true → c.valid p = true → ys.length ≤ p.tmax →
    m ∈ finalColumn c p.inf (initialColumn c p.inf) ys →
    m < 2 ^ p.mw ∧ m ≤ p.inf ∧
    (m ≠ p.inf → m ≤ ys.length * c.n ∧ m < p.inf ∧
      (ys.length < p.tmax → ∀ d, d ≤ c.n → addsat p.inf m d = m + d ∧ m + d < p.inf)) ∧
    (∀ d, addsat p.inf p.inf d = p.inf)

/-- R198: after t steps a state's metric is finite exactly when the state is reachable from state 0 in t transitions,
which is when it is below 2^min(t, K − 1); state 0 always is. -/
def Obligations.FiniteMetricMeansReachable : Prop :=
  ∀ (p : Params) (c : Code) (ys : List (List Bool)) (s : Nat), p.ok = true → c.valid p = true → ys.length ≤ p.tmax →
    s < c.numStates →
    ((finalColumn c p.inf (initialColumn c p.inf) ys).getD s p.inf < p.inf ↔
      ∃ x : List Bool, x.length = ys.length ∧ c.run 0 x = s) ∧
    ((finalColumn c p.inf (initialColumn c p.inf) ys).getD s p.inf < p.inf ↔ s < 2 ^ min ys.length (c.k - 1)) ∧
    (finalColumn c p.inf (initialColumn c p.inf) ys).getD 0 p.inf < p.inf

/-- R202: the K − 1 tail bits of a decode are 0, for every received sequence. -/
def Obligations.DecodedTailIsZero : Prop :=
  ∀ (p : Params) (c : Code) (y : List Bool) (j : Nat), p.ok = true → c.valid p = true →
    c.k - 1 ≤ y.length / c.n → y.length / c.n ≤ p.tmax →
    y.length / c.n - (c.k - 1) ≤ j → j < y.length / c.n → (c.decodedBits p.inf y).getD j false = false

/-- R204: PM_T[0] is the least Hamming distance between the received sequence and a zero-tail codeword, and the traced
sequence attains it. -/
def Obligations.PathMetricIsTheLeastDistance : Prop :=
  ∀ (p : Params) (c : Code) (y : List Bool), p.ok = true → c.valid p = true → c.n ∣ y.length →
    c.k - 1 ≤ y.length / c.n → y.length / c.n ≤ p.tmax →
    c.decodedBits p.inf y = c.flushed (c.decoded p.inf y) ∧
    hamming (c.encoded (c.decoded p.inf y)) y =
      (finalColumn c p.inf (initialColumn c p.inf) (c.symbols y)).getD 0 p.inf ∧
    ∀ msg : List Bool, msg.length + (c.k - 1) = y.length / c.n →
      (finalColumn c p.inf (initialColumn c p.inf) (c.symbols y)).getD 0 p.inf ≤ hamming (c.encoded msg) y

/-- DECODE is a maximum-likelihood decoder: no message of the same length has a codeword nearer to the received sequence
than the one in the output buffer (`43_decoder.md` section 4). -/
def Obligations.DecodeIsMaximumLikelihood : Prop :=
  ∀ s : State, s.Inv → s.status.cfgValid = true → s.inLen.toNat ≤ s.params.inBits → 0 < s.inLen.toNat →
    s.actN.toNat ∣ s.inLen.toNat → s.actK.toNat - 1 ≤ s.inLen.toNat / s.actN.toNat →
    s.inLen.toNat / s.actN.toNat ≤ s.params.tmax →
    s.inLen.toNat / s.actN.toNat - (s.actK.toNat - 1) ≤ s.params.outBits →
    ∃ t, exec .decode s = .next t ∧ Completed .none 0 0 t ∧
      ∀ msg : List Bool, msg.length = t.outLen.toNat →
        hamming (s.activeCode.encoded ((List.range t.outLen.toNat).map t.outBit)) s.inputBits ≤
          hamming (s.activeCode.encoded msg) s.inputBits

/-- R205: the round trip. Decoding what ENCODE wrote gives the message back, except for K = 1 with the empty message,
where DECODE of the empty sequence fails with Error(3, 1, 0). -/
def Obligations.DecodeUndoesEncode : Prop :=
  ∀ s t s' : State, s.Inv → s'.Inv → s.status.cfgValid = true → s'.status.cfgValid = true →
    s'.params = s.params → s'.activeCode = s.activeCode → s.inLen.toNat ≤ s.params.inBits →
    s.actN.toNat * (s.inLen.toNat + s.actK.toNat - 1) ≤ s.params.outBits →
    s.actN.toNat * (s.inLen.toNat + s.actK.toNat - 1) ≤ s.params.inBits →
    s.inLen.toNat + s.actK.toNat - 1 ≤ s.params.tmax →
    exec .encode s = .next t → s'.inLen = t.outLen → (∀ j, j < t.outLen.toNat → s'.inBit j = t.outBit j) →
    (¬(s.actK.toNat = 1 ∧ s.inLen = 0) →
      ∃ u, exec .decode s' = .next u ∧ Completed .none 0 0 u ∧ u.outLen = s.inLen ∧
        ∀ j, j < s.inLen.toNat → u.outBit j = s.inBit j) ∧
    (s.actK.toNat = 1 ∧ s.inLen = 0 →
      t.outLen = 0 ∧ ∃ u, exec .decode s' = .next u ∧ Completed .length 1 0 u ∧ u.outLen = 0)

/-- The documented example codes correct errors: K = 3, [7, 5] up to 2 flipped bits, K = 7, [91, 117, 121] up to 7
(`43_decoder.md` section 4, error tolerance). -/
def Obligations.ExampleCodesCorrectErrors : Prop :=
  ∀ (p : Params) (c : Code) (e : Nat) (msg y : List Bool), p.ok = true → c.valid p = true →
    (c = { k := 3, polys := [7, 5] } ∧ e = 2 ∨ c = { k := 7, polys := [91, 117, 121] } ∧ e = 7) →
    y.length = c.n * (msg.length + c.k - 1) → msg.length + c.k - 1 ≤ p.tmax → hamming (c.encoded msg) y ≤ e →
    c.decoded p.inf y = msg

/-- R207: for K = 1 the decoder takes a strict majority vote in each symbol. -/
def Obligations.ConstraintOneIsAMajorityVote : Prop :=
  ∀ (p : Params) (c : Code) (y : List Bool) (t : Nat), p.ok = true → c.valid p = true → c.k = 1 → c.n ∣ y.length →
    y.length / c.n ≤ p.tmax → t < y.length / c.n →
    c.decoded p.inf y = c.decodedBits p.inf y ∧
    (c.decoded p.inf y).getD t false =
      decide ((symbolAt y c.n (t + 1)).count false < (symbolAt y c.n (t + 1)).count true)
end

