-- ==== Sys2Proof/Laws/State.lean ====
section
/-!
SUPPORT. One lemma per field per update of State and STATUS, so that no later proof unfolds a record update.
-/

namespace Sys2Proof.Machine

@[simp] theorem succeed_eq (s : State) : succeed s = complete .none 0 0 s := rfl

@[simp] theorem raise_eq (code : ErrCode) (sub : BitVec 4) (idx : BitVec 5) (s : State) :
    raise code sub idx s = complete code sub idx s := rfl

/-! ### STATUS -/

@[simp] theorem Status.accepted_busy (s : Status) : (s.accepted).busy = true := rfl
@[simp] theorem Status.accepted_done (s : Status) : (s.accepted).done = false := rfl
@[simp] theorem Status.accepted_err (s : Status) : (s.accepted).err = false := rfl
@[simp] theorem Status.accepted_cfgValid (s : Status) : (s.accepted).cfgValid = s.cfgValid := rfl
@[simp] theorem Status.accepted_ovr (s : Status) : (s.accepted).ovr = s.ovr := rfl
@[simp] theorem Status.accepted_code (s : Status) : (s.accepted).code = .none := rfl
@[simp] theorem Status.accepted_sub (s : Status) : (s.accepted).sub = 0 := rfl
@[simp] theorem Status.accepted_idx (s : Status) : (s.accepted).idx = 0 := rfl
@[simp] theorem Status.completed_busy (c : ErrCode) (u : BitVec 4) (x : BitVec 5) (s : Status) : (s.completed c u x).busy = false := rfl
@[simp] theorem Status.completed_done (c : ErrCode) (u : BitVec 4) (x : BitVec 5) (s : Status) : (s.completed c u x).done = true := rfl
@[simp] theorem Status.completed_err (c : ErrCode) (u : BitVec 4) (x : BitVec 5) (s : Status) : (s.completed c u x).err = decide (c ≠ .none) := rfl
@[simp] theorem Status.completed_cfgValid (c : ErrCode) (u : BitVec 4) (x : BitVec 5) (s : Status) : (s.completed c u x).cfgValid = s.cfgValid := rfl
@[simp] theorem Status.completed_ovr (c : ErrCode) (u : BitVec 4) (x : BitVec 5) (s : Status) : (s.completed c u x).ovr = s.ovr := rfl
@[simp] theorem Status.completed_code (c : ErrCode) (u : BitVec 4) (x : BitVec 5) (s : Status) : (s.completed c u x).code = c := rfl
@[simp] theorem Status.completed_sub (c : ErrCode) (u : BitVec 4) (x : BitVec 5) (s : Status) : (s.completed c u x).sub = u := rfl
@[simp] theorem Status.completed_idx (c : ErrCode) (u : BitVec 4) (x : BitVec 5) (s : Status) : (s.completed c u x).idx = x := rfl
@[simp] theorem Status.clearOnes_busy (v : Word) (s : Status) : (s.clearOnes v).busy = s.busy := rfl
@[simp] theorem Status.clearOnes_done (v : Word) (s : Status) : (s.clearOnes v).done = (s.done && !v.getLsbD 1) := rfl
@[simp] theorem Status.clearOnes_err (v : Word) (s : Status) : (s.clearOnes v).err = (s.err && !v.getLsbD 2) := rfl
@[simp] theorem Status.clearOnes_cfgValid (v : Word) (s : Status) : (s.clearOnes v).cfgValid = s.cfgValid := rfl
@[simp] theorem Status.clearOnes_ovr (v : Word) (s : Status) : (s.clearOnes v).ovr = (s.ovr && !v.getLsbD 4) := rfl
@[simp] theorem Status.clearOnes_code (v : Word) (s : Status) : (s.clearOnes v).code = s.code := rfl
@[simp] theorem Status.clearOnes_sub (v : Word) (s : Status) : (s.clearOnes v).sub = s.sub := rfl
@[simp] theorem Status.clearOnes_idx (v : Word) (s : Status) : (s.clearOnes v).idx = s.idx := rfl
@[simp] theorem Status.overrun_busy (s : Status) : (s.overrun).busy = s.busy := rfl
@[simp] theorem Status.overrun_done (s : Status) : (s.overrun).done = s.done := rfl
@[simp] theorem Status.overrun_err (s : Status) : (s.overrun).err = s.err := rfl
@[simp] theorem Status.overrun_cfgValid (s : Status) : (s.overrun).cfgValid = s.cfgValid := rfl
@[simp] theorem Status.overrun_ovr (s : Status) : (s.overrun).ovr = true := rfl
@[simp] theorem Status.overrun_code (s : Status) : (s.overrun).code = s.code := rfl
@[simp] theorem Status.overrun_sub (s : Status) : (s.overrun).sub = s.sub := rfl
@[simp] theorem Status.overrun_idx (s : Status) : (s.overrun).idx = s.idx := rfl
@[simp] theorem Status.withCfgValid_busy (v : Bool) (s : Status) : (s.withCfgValid v).busy = s.busy := rfl
@[simp] theorem Status.withCfgValid_done (v : Bool) (s : Status) : (s.withCfgValid v).done = s.done := rfl
@[simp] theorem Status.withCfgValid_err (v : Bool) (s : Status) : (s.withCfgValid v).err = s.err := rfl
@[simp] theorem Status.withCfgValid_cfgValid (v : Bool) (s : Status) : (s.withCfgValid v).cfgValid = v := rfl
@[simp] theorem Status.withCfgValid_ovr (v : Bool) (s : Status) : (s.withCfgValid v).ovr = s.ovr := rfl
@[simp] theorem Status.withCfgValid_code (v : Bool) (s : Status) : (s.withCfgValid v).code = s.code := rfl
@[simp] theorem Status.withCfgValid_sub (v : Bool) (s : Status) : (s.withCfgValid v).sub = s.sub := rfl
@[simp] theorem Status.withCfgValid_idx (v : Bool) (s : Status) : (s.withCfgValid v).idx = s.idx := rfl

/-! ### State -/

@[simp] theorem accept_params (w : Word) (s : State) : (accept w s).params = s.params := rfl
@[simp] theorem accept_rst (w : Word) (s : State) : (accept w s).rst = s.rst := rfl
@[simp] theorem accept_ie (w : Word) (s : State) : (accept w s).ie = s.ie := rfl
@[simp] theorem accept_status (w : Word) (s : State) : (accept w s).status = s.status.accepted := rfl
@[simp] theorem accept_cfgK (w : Word) (s : State) : (accept w s).cfgK = s.cfgK := rfl
@[simp] theorem accept_cfgN (w : Word) (s : State) : (accept w s).cfgN = s.cfgN := rfl
@[simp] theorem accept_cfgPoly (w : Word) (s : State) : (accept w s).cfgPoly = s.cfgPoly := rfl
@[simp] theorem accept_inLen (w : Word) (s : State) : (accept w s).inLen = s.inLen := rfl
@[simp] theorem accept_outLen (w : Word) (s : State) : (accept w s).outLen = s.outLen := rfl
@[simp] theorem accept_arg (w : Word) (s : State) : (accept w s).arg = s.arg := rfl
@[simp] theorem accept_result (w : Word) (s : State) : (accept w s).result = s.result := rfl
@[simp] theorem accept_actK (w : Word) (s : State) : (accept w s).actK = s.actK := rfl
@[simp] theorem accept_actN (w : Word) (s : State) : (accept w s).actN = s.actN := rfl
@[simp] theorem accept_actPoly (w : Word) (s : State) : (accept w s).actPoly = s.actPoly := rfl
@[simp] theorem accept_mem (w : Word) (s : State) : (accept w s).mem = s.mem := rfl
@[simp] theorem accept_engine (w : Word) (s : State) : (accept w s).engine = { s.engine with latched := w } := rfl
@[simp] theorem accept_resets (w : Word) (s : State) : (accept w s).resets = s.resets := rfl
@[simp] theorem accept_draws (w : Word) (s : State) : (accept w s).draws = s.draws := rfl
@[simp] theorem accept_schedule (w : Word) (s : State) : (accept w s).schedule = s.schedule := rfl
@[simp] theorem accept_readData (w : Word) (s : State) : (accept w s).readData = s.readData := rfl
@[simp] theorem complete_params (code : ErrCode) (sub : BitVec 4) (idx : BitVec 5) (s : State) : (complete code sub idx s).params = s.params := rfl
@[simp] theorem complete_rst (code : ErrCode) (sub : BitVec 4) (idx : BitVec 5) (s : State) : (complete code sub idx s).rst = s.rst := rfl
@[simp] theorem complete_ie (code : ErrCode) (sub : BitVec 4) (idx : BitVec 5) (s : State) : (complete code sub idx s).ie = s.ie := rfl
@[simp] theorem complete_status (code : ErrCode) (sub : BitVec 4) (idx : BitVec 5) (s : State) : (complete code sub idx s).status = s.status.completed code sub idx := rfl
@[simp] theorem complete_cfgK (code : ErrCode) (sub : BitVec 4) (idx : BitVec 5) (s : State) : (complete code sub idx s).cfgK = s.cfgK := rfl
@[simp] theorem complete_cfgN (code : ErrCode) (sub : BitVec 4) (idx : BitVec 5) (s : State) : (complete code sub idx s).cfgN = s.cfgN := rfl
@[simp] theorem complete_cfgPoly (code : ErrCode) (sub : BitVec 4) (idx : BitVec 5) (s : State) : (complete code sub idx s).cfgPoly = s.cfgPoly := rfl
@[simp] theorem complete_inLen (code : ErrCode) (sub : BitVec 4) (idx : BitVec 5) (s : State) : (complete code sub idx s).inLen = s.inLen := rfl
@[simp] theorem complete_outLen (code : ErrCode) (sub : BitVec 4) (idx : BitVec 5) (s : State) : (complete code sub idx s).outLen = s.outLen := rfl
@[simp] theorem complete_arg (code : ErrCode) (sub : BitVec 4) (idx : BitVec 5) (s : State) : (complete code sub idx s).arg = s.arg := rfl
@[simp] theorem complete_result (code : ErrCode) (sub : BitVec 4) (idx : BitVec 5) (s : State) : (complete code sub idx s).result = s.result := rfl
@[simp] theorem complete_actK (code : ErrCode) (sub : BitVec 4) (idx : BitVec 5) (s : State) : (complete code sub idx s).actK = s.actK := rfl
@[simp] theorem complete_actN (code : ErrCode) (sub : BitVec 4) (idx : BitVec 5) (s : State) : (complete code sub idx s).actN = s.actN := rfl
@[simp] theorem complete_actPoly (code : ErrCode) (sub : BitVec 4) (idx : BitVec 5) (s : State) : (complete code sub idx s).actPoly = s.actPoly := rfl
@[simp] theorem complete_mem (code : ErrCode) (sub : BitVec 4) (idx : BitVec 5) (s : State) : (complete code sub idx s).mem = s.mem := rfl
@[simp] theorem complete_engine (code : ErrCode) (sub : BitVec 4) (idx : BitVec 5) (s : State) : (complete code sub idx s).engine = Engine.stale s.params s.draws := rfl
@[simp] theorem complete_resets (code : ErrCode) (sub : BitVec 4) (idx : BitVec 5) (s : State) : (complete code sub idx s).resets = s.resets := rfl
@[simp] theorem complete_draws (code : ErrCode) (sub : BitVec 4) (idx : BitVec 5) (s : State) : (complete code sub idx s).draws = s.draws + 1 := rfl
@[simp] theorem complete_schedule (code : ErrCode) (sub : BitVec 4) (idx : BitVec 5) (s : State) : (complete code sub idx s).schedule = s.schedule := rfl
@[simp] theorem complete_readData (code : ErrCode) (sub : BitVec 4) (idx : BitVec 5) (s : State) : (complete code sub idx s).readData = s.readData := rfl
@[simp] theorem State.storeWord_params (a : Nat) (v : Word) (s : State) : (s.storeWord a v).params = s.params := rfl
@[simp] theorem State.storeWord_rst (a : Nat) (v : Word) (s : State) : (s.storeWord a v).rst = s.rst := rfl
@[simp] theorem State.storeWord_ie (a : Nat) (v : Word) (s : State) : (s.storeWord a v).ie = s.ie := rfl
@[simp] theorem State.storeWord_status (a : Nat) (v : Word) (s : State) : (s.storeWord a v).status = s.status := rfl
@[simp] theorem State.storeWord_cfgK (a : Nat) (v : Word) (s : State) : (s.storeWord a v).cfgK = s.cfgK := rfl
@[simp] theorem State.storeWord_cfgN (a : Nat) (v : Word) (s : State) : (s.storeWord a v).cfgN = s.cfgN := rfl
@[simp] theorem State.storeWord_cfgPoly (a : Nat) (v : Word) (s : State) : (s.storeWord a v).cfgPoly = s.cfgPoly := rfl
@[simp] theorem State.storeWord_inLen (a : Nat) (v : Word) (s : State) : (s.storeWord a v).inLen = s.inLen := rfl
@[simp] theorem State.storeWord_outLen (a : Nat) (v : Word) (s : State) : (s.storeWord a v).outLen = s.outLen := rfl
@[simp] theorem State.storeWord_arg (a : Nat) (v : Word) (s : State) : (s.storeWord a v).arg = s.arg := rfl
@[simp] theorem State.storeWord_result (a : Nat) (v : Word) (s : State) : (s.storeWord a v).result = s.result := rfl
@[simp] theorem State.storeWord_actK (a : Nat) (v : Word) (s : State) : (s.storeWord a v).actK = s.actK := rfl
@[simp] theorem State.storeWord_actN (a : Nat) (v : Word) (s : State) : (s.storeWord a v).actN = s.actN := rfl
@[simp] theorem State.storeWord_actPoly (a : Nat) (v : Word) (s : State) : (s.storeWord a v).actPoly = s.actPoly := rfl
@[simp] theorem State.storeWord_engine (a : Nat) (v : Word) (s : State) : (s.storeWord a v).engine = s.engine := rfl
@[simp] theorem State.storeWord_resets (a : Nat) (v : Word) (s : State) : (s.storeWord a v).resets = s.resets := rfl
@[simp] theorem State.storeWord_draws (a : Nat) (v : Word) (s : State) : (s.storeWord a v).draws = s.draws := rfl
@[simp] theorem State.storeWord_schedule (a : Nat) (v : Word) (s : State) : (s.storeWord a v).schedule = s.schedule := rfl
@[simp] theorem State.storeWord_readData (a : Nat) (v : Word) (s : State) : (s.storeWord a v).readData = s.readData := rfl
@[simp] theorem clearConfig_params (s : State) : (clearConfig s).params = s.params := rfl
@[simp] theorem clearConfig_rst (s : State) : (clearConfig s).rst = s.rst := rfl
@[simp] theorem clearConfig_ie (s : State) : (clearConfig s).ie = s.ie := rfl
@[simp] theorem clearConfig_status (s : State) : (clearConfig s).status = s.status.withCfgValid false := rfl
@[simp] theorem clearConfig_cfgK (s : State) : (clearConfig s).cfgK = s.cfgK := rfl
@[simp] theorem clearConfig_cfgN (s : State) : (clearConfig s).cfgN = s.cfgN := rfl
@[simp] theorem clearConfig_cfgPoly (s : State) : (clearConfig s).cfgPoly = s.cfgPoly := rfl
@[simp] theorem clearConfig_inLen (s : State) : (clearConfig s).inLen = s.inLen := rfl
@[simp] theorem clearConfig_outLen (s : State) : (clearConfig s).outLen = s.outLen := rfl
@[simp] theorem clearConfig_arg (s : State) : (clearConfig s).arg = s.arg := rfl
@[simp] theorem clearConfig_result (s : State) : (clearConfig s).result = s.result := rfl
@[simp] theorem clearConfig_actK (s : State) : (clearConfig s).actK = 0 := rfl
@[simp] theorem clearConfig_actN (s : State) : (clearConfig s).actN = 0 := rfl
@[simp] theorem clearConfig_actPoly (s : State) : (clearConfig s).actPoly = List.replicate s.params.nmax 0 := rfl
@[simp] theorem clearConfig_mem (s : State) : (clearConfig s).mem = s.mem := rfl
@[simp] theorem clearConfig_engine (s : State) : (clearConfig s).engine = s.engine := rfl
@[simp] theorem clearConfig_resets (s : State) : (clearConfig s).resets = s.resets := rfl
@[simp] theorem clearConfig_draws (s : State) : (clearConfig s).draws = s.draws := rfl
@[simp] theorem clearConfig_schedule (s : State) : (clearConfig s).schedule = s.schedule := rfl
@[simp] theorem clearConfig_readData (s : State) : (clearConfig s).readData = s.readData := rfl
@[simp] theorem latchConfig_params (rev : Bool) (s : State) : (latchConfig rev s).params = s.params := rfl
@[simp] theorem latchConfig_rst (rev : Bool) (s : State) : (latchConfig rev s).rst = s.rst := rfl
@[simp] theorem latchConfig_ie (rev : Bool) (s : State) : (latchConfig rev s).ie = s.ie := rfl
@[simp] theorem latchConfig_status (rev : Bool) (s : State) : (latchConfig rev s).status = s.status.withCfgValid true := rfl
@[simp] theorem latchConfig_cfgK (rev : Bool) (s : State) : (latchConfig rev s).cfgK = s.cfgK := rfl
@[simp] theorem latchConfig_cfgN (rev : Bool) (s : State) : (latchConfig rev s).cfgN = s.cfgN := rfl
@[simp] theorem latchConfig_cfgPoly (rev : Bool) (s : State) : (latchConfig rev s).cfgPoly = s.cfgPoly := rfl
@[simp] theorem latchConfig_inLen (rev : Bool) (s : State) : (latchConfig rev s).inLen = s.inLen := rfl
@[simp] theorem latchConfig_outLen (rev : Bool) (s : State) : (latchConfig rev s).outLen = s.outLen := rfl
@[simp] theorem latchConfig_arg (rev : Bool) (s : State) : (latchConfig rev s).arg = s.arg := rfl
@[simp] theorem latchConfig_result (rev : Bool) (s : State) : (latchConfig rev s).result = s.result := rfl
@[simp] theorem latchConfig_actK (rev : Bool) (s : State) : (latchConfig rev s).actK = s.cfgK := rfl
@[simp] theorem latchConfig_actN (rev : Bool) (s : State) : (latchConfig rev s).actN = s.cfgN := rfl
@[simp] theorem latchConfig_mem (rev : Bool) (s : State) : (latchConfig rev s).mem = s.mem := rfl
@[simp] theorem latchConfig_engine (rev : Bool) (s : State) : (latchConfig rev s).engine = s.engine := rfl
@[simp] theorem latchConfig_resets (rev : Bool) (s : State) : (latchConfig rev s).resets = s.resets := rfl
@[simp] theorem latchConfig_draws (rev : Bool) (s : State) : (latchConfig rev s).draws = s.draws := rfl
@[simp] theorem latchConfig_schedule (rev : Bool) (s : State) : (latchConfig rev s).schedule = s.schedule := rfl
@[simp] theorem latchConfig_readData (rev : Bool) (s : State) : (latchConfig rev s).readData = s.readData := rfl
@[simp] theorem releaseReset_params (s : State) : (releaseReset s).params = s.params := rfl
@[simp] theorem releaseReset_rst (s : State) : (releaseReset s).rst = false := rfl
@[simp] theorem releaseReset_ie (s : State) : (releaseReset s).ie = s.ie := rfl
@[simp] theorem releaseReset_status (s : State) : (releaseReset s).status = s.status := rfl
@[simp] theorem releaseReset_cfgK (s : State) : (releaseReset s).cfgK = s.cfgK := rfl
@[simp] theorem releaseReset_cfgN (s : State) : (releaseReset s).cfgN = s.cfgN := rfl
@[simp] theorem releaseReset_cfgPoly (s : State) : (releaseReset s).cfgPoly = s.cfgPoly := rfl
@[simp] theorem releaseReset_inLen (s : State) : (releaseReset s).inLen = s.inLen := rfl
@[simp] theorem releaseReset_outLen (s : State) : (releaseReset s).outLen = s.outLen := rfl
@[simp] theorem releaseReset_arg (s : State) : (releaseReset s).arg = s.arg := rfl
@[simp] theorem releaseReset_result (s : State) : (releaseReset s).result = s.result := rfl
@[simp] theorem releaseReset_actK (s : State) : (releaseReset s).actK = s.actK := rfl
@[simp] theorem releaseReset_actN (s : State) : (releaseReset s).actN = s.actN := rfl
@[simp] theorem releaseReset_actPoly (s : State) : (releaseReset s).actPoly = s.actPoly := rfl
@[simp] theorem releaseReset_mem (s : State) : (releaseReset s).mem = s.mem := rfl
@[simp] theorem releaseReset_engine (s : State) : (releaseReset s).engine = s.engine := rfl
@[simp] theorem releaseReset_resets (s : State) : (releaseReset s).resets = s.resets := rfl
@[simp] theorem releaseReset_draws (s : State) : (releaseReset s).draws = s.draws := rfl
@[simp] theorem releaseReset_schedule (s : State) : (releaseReset s).schedule = s.schedule := rfl
@[simp] theorem releaseReset_readData (s : State) : (releaseReset s).readData = s.readData := rfl
@[simp] theorem State.storeOutBytes_params (bits : List Bool) (s : State) (q : Nat) :
    (s.storeOutBytes bits q).params = s.params := by
  induction q with
  | zero => rfl
  | succ q ih => simpa [State.storeOutBytes] using ih

@[simp] theorem State.storeOutBytes_rst (bits : List Bool) (s : State) (q : Nat) :
    (s.storeOutBytes bits q).rst = s.rst := by
  induction q with
  | zero => rfl
  | succ q ih => simpa [State.storeOutBytes] using ih

@[simp] theorem State.storeOutBytes_ie (bits : List Bool) (s : State) (q : Nat) :
    (s.storeOutBytes bits q).ie = s.ie := by
  induction q with
  | zero => rfl
  | succ q ih => simpa [State.storeOutBytes] using ih

@[simp] theorem State.storeOutBytes_status (bits : List Bool) (s : State) (q : Nat) :
    (s.storeOutBytes bits q).status = s.status := by
  induction q with
  | zero => rfl
  | succ q ih => simpa [State.storeOutBytes] using ih

@[simp] theorem State.storeOutBytes_cfgK (bits : List Bool) (s : State) (q : Nat) :
    (s.storeOutBytes bits q).cfgK = s.cfgK := by
  induction q with
  | zero => rfl
  | succ q ih => simpa [State.storeOutBytes] using ih

@[simp] theorem State.storeOutBytes_cfgN (bits : List Bool) (s : State) (q : Nat) :
    (s.storeOutBytes bits q).cfgN = s.cfgN := by
  induction q with
  | zero => rfl
  | succ q ih => simpa [State.storeOutBytes] using ih

@[simp] theorem State.storeOutBytes_cfgPoly (bits : List Bool) (s : State) (q : Nat) :
    (s.storeOutBytes bits q).cfgPoly = s.cfgPoly := by
  induction q with
  | zero => rfl
  | succ q ih => simpa [State.storeOutBytes] using ih

@[simp] theorem State.storeOutBytes_inLen (bits : List Bool) (s : State) (q : Nat) :
    (s.storeOutBytes bits q).inLen = s.inLen := by
  induction q with
  | zero => rfl
  | succ q ih => simpa [State.storeOutBytes] using ih

@[simp] theorem State.storeOutBytes_outLen (bits : List Bool) (s : State) (q : Nat) :
    (s.storeOutBytes bits q).outLen = s.outLen := by
  induction q with
  | zero => rfl
  | succ q ih => simpa [State.storeOutBytes] using ih

@[simp] theorem State.storeOutBytes_arg (bits : List Bool) (s : State) (q : Nat) :
    (s.storeOutBytes bits q).arg = s.arg := by
  induction q with
  | zero => rfl
  | succ q ih => simpa [State.storeOutBytes] using ih

@[simp] theorem State.storeOutBytes_result (bits : List Bool) (s : State) (q : Nat) :
    (s.storeOutBytes bits q).result = s.result := by
  induction q with
  | zero => rfl
  | succ q ih => simpa [State.storeOutBytes] using ih

@[simp] theorem State.storeOutBytes_actK (bits : List Bool) (s : State) (q : Nat) :
    (s.storeOutBytes bits q).actK = s.actK := by
  induction q with
  | zero => rfl
  | succ q ih => simpa [State.storeOutBytes] using ih

@[simp] theorem State.storeOutBytes_actN (bits : List Bool) (s : State) (q : Nat) :
    (s.storeOutBytes bits q).actN = s.actN := by
  induction q with
  | zero => rfl
  | succ q ih => simpa [State.storeOutBytes] using ih

@[simp] theorem State.storeOutBytes_actPoly (bits : List Bool) (s : State) (q : Nat) :
    (s.storeOutBytes bits q).actPoly = s.actPoly := by
  induction q with
  | zero => rfl
  | succ q ih => simpa [State.storeOutBytes] using ih

@[simp] theorem State.storeOutBytes_engine (bits : List Bool) (s : State) (q : Nat) :
    (s.storeOutBytes bits q).engine = s.engine := by
  induction q with
  | zero => rfl
  | succ q ih => simpa [State.storeOutBytes] using ih

@[simp] theorem State.storeOutBytes_resets (bits : List Bool) (s : State) (q : Nat) :
    (s.storeOutBytes bits q).resets = s.resets := by
  induction q with
  | zero => rfl
  | succ q ih => simpa [State.storeOutBytes] using ih

@[simp] theorem State.storeOutBytes_draws (bits : List Bool) (s : State) (q : Nat) :
    (s.storeOutBytes bits q).draws = s.draws := by
  induction q with
  | zero => rfl
  | succ q ih => simpa [State.storeOutBytes] using ih

@[simp] theorem State.storeOutBytes_schedule (bits : List Bool) (s : State) (q : Nat) :
    (s.storeOutBytes bits q).schedule = s.schedule := by
  induction q with
  | zero => rfl
  | succ q ih => simpa [State.storeOutBytes] using ih

@[simp] theorem State.storeOutBytes_readData (bits : List Bool) (s : State) (q : Nat) :
    (s.storeOutBytes bits q).readData = s.readData := by
  induction q with
  | zero => rfl
  | succ q ih => simpa [State.storeOutBytes] using ih

@[simp] theorem State.storeOutBits_params (bits : List Bool) (s : State) :
    (s.storeOutBits bits).params = s.params := by simp [State.storeOutBits]

@[simp] theorem State.storeOutBits_rst (bits : List Bool) (s : State) :
    (s.storeOutBits bits).rst = s.rst := by simp [State.storeOutBits]

@[simp] theorem State.storeOutBits_ie (bits : List Bool) (s : State) :
    (s.storeOutBits bits).ie = s.ie := by simp [State.storeOutBits]

@[simp] theorem State.storeOutBits_status (bits : List Bool) (s : State) :
    (s.storeOutBits bits).status = s.status := by simp [State.storeOutBits]

@[simp] theorem State.storeOutBits_cfgK (bits : List Bool) (s : State) :
    (s.storeOutBits bits).cfgK = s.cfgK := by simp [State.storeOutBits]

@[simp] theorem State.storeOutBits_cfgN (bits : List Bool) (s : State) :
    (s.storeOutBits bits).cfgN = s.cfgN := by simp [State.storeOutBits]

@[simp] theorem State.storeOutBits_cfgPoly (bits : List Bool) (s : State) :
    (s.storeOutBits bits).cfgPoly = s.cfgPoly := by simp [State.storeOutBits]

@[simp] theorem State.storeOutBits_inLen (bits : List Bool) (s : State) :
    (s.storeOutBits bits).inLen = s.inLen := by simp [State.storeOutBits]

@[simp] theorem State.storeOutBits_outLen (bits : List Bool) (s : State) :
    (s.storeOutBits bits).outLen = s.outLen := by simp [State.storeOutBits]

@[simp] theorem State.storeOutBits_arg (bits : List Bool) (s : State) :
    (s.storeOutBits bits).arg = s.arg := by simp [State.storeOutBits]

@[simp] theorem State.storeOutBits_result (bits : List Bool) (s : State) :
    (s.storeOutBits bits).result = s.result := by simp [State.storeOutBits]

@[simp] theorem State.storeOutBits_actK (bits : List Bool) (s : State) :
    (s.storeOutBits bits).actK = s.actK := by simp [State.storeOutBits]

@[simp] theorem State.storeOutBits_actN (bits : List Bool) (s : State) :
    (s.storeOutBits bits).actN = s.actN := by simp [State.storeOutBits]

@[simp] theorem State.storeOutBits_actPoly (bits : List Bool) (s : State) :
    (s.storeOutBits bits).actPoly = s.actPoly := by simp [State.storeOutBits]

@[simp] theorem State.storeOutBits_engine (bits : List Bool) (s : State) :
    (s.storeOutBits bits).engine = s.engine := by simp [State.storeOutBits]

@[simp] theorem State.storeOutBits_resets (bits : List Bool) (s : State) :
    (s.storeOutBits bits).resets = s.resets := by simp [State.storeOutBits]

@[simp] theorem State.storeOutBits_draws (bits : List Bool) (s : State) :
    (s.storeOutBits bits).draws = s.draws := by simp [State.storeOutBits]

@[simp] theorem State.storeOutBits_schedule (bits : List Bool) (s : State) :
    (s.storeOutBits bits).schedule = s.schedule := by simp [State.storeOutBits]

@[simp] theorem State.storeOutBits_readData (bits : List Bool) (s : State) :
    (s.storeOutBits bits).readData = s.readData := by simp [State.storeOutBits]


/-! ### Reset -/

@[simp] theorem assertReset_params (s : State) : (assertReset s).params = s.params := rfl
@[simp] theorem assertReset_rst (s : State) : (assertReset s).rst = true := rfl
@[simp] theorem assertReset_ie (s : State) : (assertReset s).ie = false := rfl
@[simp] theorem assertReset_status (s : State) : (assertReset s).status = Status.reset := rfl
@[simp] theorem assertReset_cfgK (s : State) : (assertReset s).cfgK = 0 := rfl
@[simp] theorem assertReset_cfgN (s : State) : (assertReset s).cfgN = 0 := rfl
@[simp] theorem assertReset_cfgPoly (s : State) : (assertReset s).cfgPoly = List.replicate s.params.nmax 0 := rfl
@[simp] theorem assertReset_inLen (s : State) : (assertReset s).inLen = 0 := rfl
@[simp] theorem assertReset_outLen (s : State) : (assertReset s).outLen = 0 := rfl
@[simp] theorem assertReset_arg (s : State) : (assertReset s).arg = 0 := rfl
@[simp] theorem assertReset_result (s : State) : (assertReset s).result = 0 := rfl
@[simp] theorem assertReset_actK (s : State) : (assertReset s).actK = 0 := rfl
@[simp] theorem assertReset_actN (s : State) : (assertReset s).actN = 0 := rfl
@[simp] theorem assertReset_actPoly (s : State) : (assertReset s).actPoly = List.replicate s.params.nmax 0 := rfl
@[simp] theorem assertReset_mem (s : State) : (assertReset s).mem = [] := rfl
@[simp] theorem assertReset_engine (s : State) : (assertReset s).engine = Engine.reset := rfl
@[simp] theorem assertReset_resets (s : State) : (assertReset s).resets = s.resets + 1 := rfl
@[simp] theorem assertReset_draws (s : State) : (assertReset s).draws = s.draws := rfl
@[simp] theorem assertReset_schedule (s : State) : (assertReset s).schedule = s.schedule := rfl
@[simp] theorem assertReset_readData (s : State) : (assertReset s).readData = s.readData := rfl

end Sys2Proof.Machine
end

