-- ==== Sys2Proof/Laws/Bits.lean ====
section
/-!
SUPPORT. Laws of the bit utilities (`41_bit_utilities.md`): ReverseBits, the encoder register, the tap, the trellis
functions.
-/

namespace Sys2Proof.Machine

theorem getLsbD_setWordBit (v : Word) (i j : Nat) (b : Bool) (hi : i < 32) :
    (setWordBit v i b).getLsbD j = if j = i then b else v.getLsbD j := by
  by_cases hj : j < 32
  · by_cases h : j = i
    · subst h
      cases b <;> simp [setWordBit, hj]
    · rcases Nat.lt_or_gt_of_ne h with h' | h' <;> cases b <;>
        simp [setWordBit, hj, h] <;> omega
  · rw [if_neg (by omega), BitVec.getLsbD_of_ge _ _ (by omega), BitVec.getLsbD_of_ge _ _ (by omega)]

theorem getLsbD_reverseLoop (width : Nat) (v : Word) (count j : Nat) (h : count ≤ 32) :
    (reverseLoop width v count).getLsbD j = (decide (j < count) && v.getLsbD (width - 1 - j)) := by
  induction count with
  | zero => simp [reverseLoop]
  | succ count ih =>
    rw [reverseLoop, getLsbD_setWordBit _ _ _ _ (by omega), ih (by omega)]
    by_cases hj : j = count
    · subst hj; simp
    · rw [if_neg hj]
      congr 1
      exact decide_eq_decide.2 (by omega)

/-- The bits of ReverseBits. -/
theorem getLsbD_reverseBits (width : Nat) (v : Word) (j : Nat) (h : width ≤ 32) :
    (reverseBits width v).getLsbD j = (decide (j < width) && v.getLsbD (width - 1 - j)) :=
  getLsbD_reverseLoop width v width j h

/-! ### The encoder register -/

theorem reg_eq (k s : Nat) (b : Bool) : reg k s b = (2 * s + b.toNat) % 2 ^ k := by
  unfold reg
  congr 1
  have hb : b.toNat < 2 ^ 1 := by cases b <;> decide
  have := Nat.two_pow_add_eq_or_of_lt hb s
  rw [Nat.shiftLeft_eq, Nat.mul_comm s, ← this]

theorem reg_lt (k s : Nat) (b : Bool) : reg k s b < 2 ^ k := Nat.mod_lt _ (by positivity)

/-- Bit 0 of the register is the current input. -/
theorem reg_testBit_zero (k s : Nat) (b : Bool) (hk : 1 ≤ k) : (reg k s b).testBit 0 = b := by
  obtain ⟨m, rfl⟩ : ∃ m, k = m + 1 := ⟨k - 1, by omega⟩
  rw [reg_eq, Nat.testBit_mod_two_pow]
  cases b <;> simp [Nat.testBit_zero, Nat.add_mod]

/-- Bit j + 1 of the register is bit j of the state. -/
theorem reg_testBit_succ (k s j : Nat) (b : Bool) (hj : j + 1 < k) : (reg k s b).testBit (j + 1) = s.testBit j := by
  rw [reg_eq, Nat.testBit_mod_two_pow, Nat.testBit_succ]
  have : (2 * s + b.toNat) / 2 = s := by cases b <;> (simp; try omega)
  simp [hj, this]

theorem Code.next_eq (c : Code) (s : Nat) (b : Bool) : c.next s b = (2 * s + b.toNat) % 2 ^ (c.k - 1) := by
  unfold Code.next
  rw [reg_eq]
  exact Nat.mod_mod_of_dvd _ (pow_dvd_pow 2 (Nat.sub_le _ _))

theorem Code.next_lt (c : Code) (s : Nat) (b : Bool) : c.next s b < c.numStates := Nat.mod_lt _ (by positivity)

/-! ### The tap -/

/-- The XOR of the bits of a bit list. -/
def xorBits : List Bool → Bool
  | [] => false
  | b :: rest => b ^^ xorBits rest

theorem parity_eq (count : Nat) : ∀ v, parity count v = xorBits ((List.range count).map v.testBit) := by
  induction count with
  | zero => intro v; rfl
  | succ count ih =>
    intro v
    rw [List.range_succ_eq_map, parity, ih]
    simp only [List.map_cons, List.map_map, xorBits, Nat.testBit_zero]
    congr 1
    congr 1
    apply List.map_congr_left
    intro i _
    simp [Nat.testBit_succ]

theorem parity_xor (count : Nat) : ∀ u v, parity count (u ^^^ v) = (parity count u ^^ parity count v) := by
  induction count with
  | zero => intro u v; rfl
  | succ count ih =>
    intro u v
    have h0 : ((u ^^^ v) % 2 == 1) = ((u % 2 == 1) ^^ (v % 2 == 1)) := by
      have := Nat.testBit_xor u v 0
      simpa [Nat.testBit_zero, Bool.beq_eq_decide_eq] using this
    rw [parity, parity, parity, Nat.xor_div_two, ih, h0]
    cases (u % 2 == 1) <;> cases (v % 2 == 1) <;> cases parity count (u / 2) <;> cases parity count (v / 2) <;> rfl

@[simp] theorem parity_zero (count : Nat) : parity count 0 = false := by
  induction count with
  | zero => rfl
  | succ count ih => simp [parity, ih]

/-- The tap of the zero register. -/
@[simp] theorem tap_zero (k p : Nat) : tap k 0 p = false := by simp [tap]

/-! ### The active code -/

@[simp] theorem State.activeCode_k (s : State) : s.activeCode.k = s.actK.toNat := rfl

@[simp] theorem State.activeCode_n (s : State) : s.activeCode.n = s.actN.toNat := by
  simp [State.activeCode, Code.n]

@[simp] theorem State.inputBits_length (s : State) : s.inputBits.length = s.inLen.toNat := by
  simp [State.inputBits]

/-! ### The encoder's output -/

@[simp] theorem Code.output_length (c : Code) (s : Nat) (b : Bool) : (c.output s b).length = c.n := by
  simp [Code.output, Code.n]

@[simp] theorem Code.emit_length (c : Code) (bits : List Bool) : ∀ sr, (c.emit sr bits).length = c.n * bits.length := by
  induction bits with
  | nil => intro sr; simp [Code.emit]
  | cons b rest ih => intro sr; simp [Code.emit, ih]; ring

@[simp] theorem Code.flushed_length (c : Code) (msg : List Bool) : (c.flushed msg).length = msg.length + (c.k - 1) := by
  simp [Code.flushed]

/-- len(Encode(M)) = n·(len(M) + K − 1), for a constraint length of at least 1 (`42_encoder.md` R163). -/
theorem Code.encoded_length (c : Code) (msg : List Bool) (hk : 1 ≤ c.k) :
    (c.encoded msg).length = c.encodedLength msg.length := by
  rw [Code.encoded, Code.emit_length, Code.flushed_length, Code.encodedLength, Nat.add_sub_assoc hk]

theorem Code.run_append (c : Code) (xs ys : List Bool) : ∀ sr, c.run sr (xs ++ ys) = c.run (c.run sr xs) ys := by
  induction xs with
  | nil => intro sr; rfl
  | cons b rest ih => intro sr; exact ih _

theorem Code.emit_append (c : Code) (xs ys : List Bool) :
    ∀ sr, c.emit sr (xs ++ ys) = c.emit sr xs ++ c.emit (c.run sr xs) ys := by
  induction xs with
  | nil => intro sr; rfl
  | cons b rest ih => intro sr; simp [Code.emit, Code.run, ih]

/-! ### The decoder's lists -/

@[simp] theorem Code.symbols_length (c : Code) (y : List Bool) : (c.symbols y).length = y.length / c.n := by
  simp [Code.symbols]

@[simp] theorem acsColumn_length (c : Code) (inf : Nat) (pm : List Nat) (y : List Bool) :
    (acsColumn c inf pm y).length = c.numStates := by simp [acsColumn]

@[simp] theorem acsRow_length (c : Code) (inf : Nat) (pm : List Nat) (y : List Bool) :
    (acsRow c inf pm y).length = c.numStates := by simp [acsRow]

@[simp] theorem pathMemory_length (c : Code) (inf : Nat) (ys : List (List Bool)) :
    ∀ pm, (pathMemory c inf pm ys).length = ys.length := by
  induction ys with
  | nil => intro pm; rfl
  | cons y ys ih => intro pm; simp [pathMemory, ih]

@[simp] theorem traceback_length (rows : List (List (Nat × Bool))) :
    ∀ tbS bits, (traceback rows tbS bits).length = rows.length + bits.length := by
  induction rows with
  | nil => intro tbS bits; simp [traceback]
  | cons row rows ih => intro tbS bits; simp [traceback, ih]; omega

/-- The traceback recovers T bits (`43_decoder.md` R200). -/
@[simp] theorem Code.decodedBits_length (c : Code) (inf : Nat) (y : List Bool) :
    (c.decodedBits inf y).length = y.length / c.n := by simp [Code.decodedBits]

/-- len(Decode(R)) = len(R)/n − (K − 1) (`43_decoder.md` R201). -/
@[simp] theorem Code.decoded_length (c : Code) (inf : Nat) (y : List Bool) :
    (c.decoded inf y).length = y.length / c.n - (c.k - 1) := by simp [Code.decoded]

end Sys2Proof.Machine
end

