-- ==== Sys2Proof/Laws/Memory.lean ====
section
/-!
SUPPORT. The laws of the buffers: read after write, the canonical form, words and bits (`20_memory.md` R64 to R66).
-/

namespace Sys2Proof.Machine

/-! ### Bytes -/

theorem Memory.find_put (m : Memory) (a b : Nat) (v : Byte) :
    (m.put a v).find b = if b = a then some v else m.find b := by
  induction m with
  | nil => simp only [Memory.put, Memory.find, eq_comm]
  | cons c rest ih =>
    obtain ⟨x, u⟩ := c
    by_cases h1 : a < x
    · simp only [Memory.put, h1, if_true, Memory.find, eq_comm]
    · by_cases h2 : a = x
      · subst h2
        simp only [Memory.put, lt_irrefl, if_false, if_true, Memory.find]
        by_cases hb : b = a
        · simp [hb]
        · simp [hb, Ne.symm hb]
      · simp only [Memory.put, h1, h2, if_false, Memory.find, ih]
        by_cases hb : b = a
        · subst hb; simp [Ne.symm h2]
        · simp [hb]

theorem Memory.mem_put {m : Memory} {a : Nat} {v : Byte} {c : Host.Cell} (h : c ∈ m.put a v) :
    c = (a, v) ∨ c ∈ m := by
  induction m with
  | nil => simpa [Memory.put] using h
  | cons d rest ih =>
    obtain ⟨x, u⟩ := d
    by_cases h1 : a < x
    · simpa [Memory.put, h1] using h
    · by_cases h2 : a = x
      · simp only [Memory.put, h2, lt_irrefl, if_false, if_true, List.mem_cons] at h ⊢
        tauto
      · simp only [Memory.put, h1, h2, if_false, List.mem_cons] at h ⊢
        rcases h with h | h
        · tauto
        · rcases ih h with h | h <;> tauto

/-- The canonical form, as a statement about every pair of entries. -/
theorem Memory.wf_iff (m : Memory) : m.wf = true ↔ List.Pairwise (fun c d : Host.Cell => c.1 < d.1) m := by
  induction m with
  | nil => simp [Memory.wf]
  | cons c rest ih =>
    cases rest with
    | nil => simp [Memory.wf]
    | cons d tail =>
      rw [Memory.wf, Bool.and_eq_true, ih, decide_eq_true_iff, List.pairwise_cons (a := c)]
      constructor
      · rintro ⟨h, hp⟩
        refine ⟨fun e he => ?_, hp⟩
        rcases List.mem_cons.1 he with rfl | he
        · exact h
        · exact h.trans ((List.pairwise_cons.1 hp).1 e he)
      · rintro ⟨h, hp⟩
        exact ⟨h d (by simp), hp⟩

/-- A write keeps the canonical form. -/
theorem Memory.wf_put {m : Memory} (h : m.wf = true) (a : Nat) (v : Byte) : (m.put a v).wf = true := by
  rw [Memory.wf_iff] at h ⊢
  induction m with
  | nil => simp [Memory.put]
  | cons c rest ih =>
    obtain ⟨x, u⟩ := c
    have hx := List.pairwise_cons.1 h
    by_cases h1 : a < x
    · simp only [Memory.put, h1, if_true, List.pairwise_cons]
      refine ⟨fun e he => ?_, hx.1, hx.2⟩
      rcases List.mem_cons.1 he with rfl | he
      · exact h1
      · exact h1.trans (hx.1 e he)
    · by_cases h2 : a = x
      · subst h2
        simp only [Memory.put, lt_irrefl, if_false, if_true, List.pairwise_cons]
        exact ⟨hx.1, hx.2⟩
      · simp only [Memory.put, h1, h2, if_false, List.pairwise_cons]
        refine ⟨fun e he => ?_, ih hx.2⟩
        rcases Memory.mem_put he with rfl | he
        · show x < a
          omega
        · exact hx.1 e he

/-- Reading a byte after one byte was written. -/
theorem State.byteAt_put (s : State) (m : Memory) (a b : Nat) (v : Byte) :
    ({ s with mem := m.put a v } : State).byteAt b = if b = a then v else ({ s with mem := m } : State).byteAt b := by
  unfold State.byteAt
  simp only [Memory.find_put]
  split <;> simp

theorem State.byteAt_congr {s t : State} (hm : t.mem = s.mem) (hr : t.resets = s.resets) : SameBytes s t := by
  intro a; simp [State.byteAt, hm, hr]

/-! ### Words -/

theorem State.byteAt_storeWord (s : State) (a b : Nat) (v : Word) :
    (s.storeWord a v).byteAt b =
      if b = a + 3 then v.extractLsb' 24 8 else if b = a + 2 then v.extractLsb' 16 8
      else if b = a + 1 then v.extractLsb' 8 8 else if b = a then v.extractLsb' 0 8 else s.byteAt b := by
  simp only [State.storeWord, State.byteAt_put]

/-- Bit i of a buffer word is bit i mod 8 of its byte lane i div 8 (R69). -/
theorem State.getLsbD_wordAt (s : State) (a i : Nat) (h : i < 32) :
    (s.wordAt a).getLsbD i = (s.byteAt (a + i / 8)).getLsbD (i % 8) := by
  unfold State.wordAt
  simp only [BitVec.getLsbD_append]
  by_cases h1 : i < 8
  · simp [h1, Nat.div_eq_of_lt h1, Nat.mod_eq_of_lt h1]
  · by_cases h2 : i < 16
    · have e1 : i / 8 = 1 := by omega
      have e2 : i % 8 = i - 8 := by omega
      simp [h1, show i - 8 < 8 by omega, e1, e2]
    · by_cases h3 : i < 24
      · have e1 : i / 8 = 2 := by omega
        have e2 : i % 8 = i - 8 - 8 := by omega
        simp [h1, show ¬ i - 8 < 8 by omega, show i - 8 - 8 < 8 by omega, e1, e2]
      · have e1 : i / 8 = 3 := by omega
        have e2 : i % 8 = i - 8 - 8 - 8 := by omega
        simp [h1, show ¬ i - 8 < 8 by omega, show ¬ i - 8 - 8 < 8 by omega, e1, e2]

/-- A word read from where it was just written. -/
theorem State.wordAt_storeWord_same (s : State) (a : Nat) (v : Word) : (s.storeWord a v).wordAt a = v := by
  apply BitVec.eq_of_getLsbD_eq
  intro i hi
  rw [State.getLsbD_wordAt _ _ _ hi, State.byteAt_storeWord]
  have h4 : i / 8 = 0 ∨ i / 8 = 1 ∨ i / 8 = 2 ∨ i / 8 = 3 := by omega
  rcases h4 with h | h | h | h <;> simp [h, show i % 8 < 8 by omega] <;>
    congr 1 <;> omega

/-- A word store leaves every byte outside its four. -/
theorem State.byteAt_storeWord_other (s : State) (a b : Nat) (v : Word) (h : b < a ∨ a + 4 ≤ b) :
    (s.storeWord a v).byteAt b = s.byteAt b := by
  rw [State.byteAt_storeWord, if_neg (by omega), if_neg (by omega), if_neg (by omega), if_neg (by omega)]

/-! ### Bits -/

/-- IBIT(j), from its byte. -/
theorem State.inBit_eq (s : State) (j : Nat) : s.inBit j = (s.byteAt (inBase + j / 8)).getLsbD (j % 8) := by
  have h1 : inBase + 4 * (j / 32) + j % 32 / 8 = inBase + j / 8 := by omega
  have h2 : j % 32 % 8 = j % 8 := by omega
  unfold State.inBit
  rw [State.getLsbD_wordAt _ _ _ (Nat.mod_lt _ (by decide)), h1, h2]

/-- OBIT(j), from its byte. -/
theorem State.outBit_eq (s : State) (j : Nat) : s.outBit j = (s.byteAt (outBase + j / 8)).getLsbD (j % 8) := by
  have h1 : outBase + 4 * (j / 32) + j % 32 / 8 = outBase + j / 8 := by omega
  have h2 : j % 32 % 8 = j % 8 := by omega
  unfold State.outBit
  rw [State.getLsbD_wordAt _ _ _ (Nat.mod_lt _ (by decide)), h1, h2]

theorem getLsbD_setByteBit (v : Byte) (i j : Nat) (b : Bool) (hi : i < 8) :
    (setByteBit v i b).getLsbD j = if j = i then b else v.getLsbD j := by
  by_cases hj : j < 8
  · interval_cases i <;> interval_cases j <;> cases b <;> simp [setByteBit]
  · have : j ≠ i := by omega
    rw [if_neg this, BitVec.getLsbD_of_ge _ _ (by omega), BitVec.getLsbD_of_ge _ _ (by omega)]

theorem getLsbD_setByteBits (bits : List Bool) :
    ∀ (v : Byte) (i j : Nat), i + bits.length ≤ 8 →
      (setByteBits v i bits).getLsbD j =
        if i ≤ j ∧ j < i + bits.length then bits.getD (j - i) false else v.getLsbD j := by
  induction bits with
  | nil => intro v i j _; simp [setByteBits]; omega
  | cons b rest ih =>
    intro v i j h
    simp only [List.length_cons] at h ⊢
    rw [setByteBits, ih _ _ _ (by omega), getLsbD_setByteBit _ _ _ _ (by omega)]
    by_cases h1 : i + 1 ≤ j ∧ j < i + 1 + rest.length
    · rw [if_pos h1, if_pos (by omega)]
      obtain ⟨k, hk⟩ : ∃ k, j - i = k + 1 := ⟨j - i - 1, by omega⟩
      rw [hk, List.getD_cons_succ, show j - (i + 1) = k by omega]
    · rw [if_neg h1]
      by_cases h2 : j = i
      · subst h2; simp
      · rw [if_neg h2, if_neg (by omega)]

/-- The merged byte: the new bits below, the old byte's above. -/
theorem getLsbD_mergeByte (old : Byte) (bits : List Bool) (h : bits.length ≤ 8) (j : Nat) :
    (mergeByte old bits).getLsbD j = if j < bits.length then bits.getD j false else old.getLsbD j := by
  unfold mergeByte
  rw [getLsbD_setByteBits _ _ _ _ (by omega)]
  by_cases hj : j < bits.length
  · rw [if_pos (by omega), if_pos hj, Nat.sub_zero]
  · rw [if_neg (by omega), if_neg hj]
    split
    · rw [BitVec.getLsbD_of_ge old _ (by omega)]; simp
    · rfl

theorem State.byteAt_storeOutBytes (bits : List Bool) (s : State) (q a : Nat) :
    (s.storeOutBytes bits q).byteAt a =
      if outBase ≤ a ∧ a < outBase + q
      then mergeByte (s.byteAt a) ((bits.drop (8 * (a - outBase))).take 8) else s.byteAt a := by
  induction q with
  | zero => rw [if_neg (by omega)]; rfl
  | succ q ih =>
    have hs : (s.storeOutBytes bits (q + 1)).byteAt a =
        if a = outBase + q
        then mergeByte ((s.storeOutBytes bits q).byteAt (outBase + q)) ((bits.drop (8 * q)).take 8)
        else (s.storeOutBytes bits q).byteAt a := State.byteAt_put (s.storeOutBytes bits q) _ _ _ _
    rw [hs]
    by_cases h : a = outBase + q
    · subst h
      have hq : (s.storeOutBytes bits q).byteAt (outBase + q) = s.byteAt (outBase + q) := by
        have : ∀ r, r ≤ q → (s.storeOutBytes bits r).byteAt (outBase + q) = s.byteAt (outBase + q) := by
          intro r
          induction r with
          | zero => intro _; rfl
          | succ r ihr =>
            intro hr
            have := State.byteAt_put (s.storeOutBytes bits r) (s.storeOutBytes bits r).mem (outBase + r) (outBase + q)
              (mergeByte ((s.storeOutBytes bits r).byteAt (outBase + r)) ((bits.drop (8 * r)).take 8))
            rw [if_neg (by omega)] at this
            exact this.trans (ihr (by omega))
        exact this q le_rfl
      rw [if_pos rfl, if_pos (by omega), hq, Nat.add_sub_cancel_left]
    · rw [if_neg h, ih]
      by_cases h2 : outBase ≤ a ∧ a < outBase + q
      · rw [if_pos h2, if_pos (by omega)]
      · rw [if_neg h2, if_neg (by omega)]

/-- What storing output bits does to each byte. -/
theorem State.byteAt_storeOutBits (bits : List Bool) (s : State) (a : Nat) :
    (s.storeOutBits bits).byteAt a =
      if outBase ≤ a ∧ a < outBase + (bits.length + 7) / 8
      then mergeByte (s.byteAt a) ((bits.drop (8 * (a - outBase))).take 8) else s.byteAt a :=
  State.byteAt_storeOutBytes bits s _ a

/-- R66: exactly the bits below the length are written, every other output bit keeps its value. -/
theorem State.outBit_storeOutBits (bits : List Bool) (s : State) (j : Nat) :
    (s.storeOutBits bits).outBit j = if j < bits.length then bits.getD j false else s.outBit j := by
  rw [State.outBit_eq, State.outBit_eq, State.byteAt_storeOutBits]
  by_cases h : j / 8 < (bits.length + 7) / 8
  · have hlen : ((bits.drop (8 * (j / 8))).take 8).length ≤ 8 := by simp
    rw [if_pos (by omega), Nat.add_sub_cancel_left, getLsbD_mergeByte _ _ hlen]
    have hl : ((bits.drop (8 * (j / 8))).take 8).length = min 8 (bits.length - 8 * (j / 8)) := by simp
    by_cases hj : j < bits.length
    · rw [if_pos (by omega), if_pos hj]
      simp only [List.getD_eq_getElem?_getD, List.getElem?_take, List.getElem?_drop]
      rw [if_pos (by omega)]
      congr 2
      omega
    · rw [if_neg (by omega), if_neg hj]
  · rw [if_neg (by omega), if_neg (by omega)]

/-- The bytes that storing output bits leaves. -/
theorem State.byteAt_storeOutBits_other (bits : List Bool) (s : State) (a : Nat)
    (h : a < outBase ∨ outBase + (bits.length + 7) / 8 ≤ a) : (s.storeOutBits bits).byteAt a = s.byteAt a := by
  rw [State.byteAt_storeOutBits, if_neg (by omega)]

/-! ### The canonical form is kept -/

theorem State.wf_storeWord {s : State} (h : s.mem.wf = true) (a : Nat) (v : Word) :
    (s.storeWord a v).mem.wf = true :=
  Memory.wf_put (Memory.wf_put (Memory.wf_put (Memory.wf_put h _ _) _ _) _ _) _ _

theorem State.wf_storeOutBytes {s : State} (h : s.mem.wf = true) (bits : List Bool) (q : Nat) :
    (s.storeOutBytes bits q).mem.wf = true := by
  induction q with
  | zero => exact h
  | succ q ih => exact Memory.wf_put ih _ _

theorem State.wf_storeOutBits {s : State} (h : s.mem.wf = true) (bits : List Bool) :
    (s.storeOutBits bits).mem.wf = true := State.wf_storeOutBytes h bits _

theorem State.mem_storeWord {s : State} {a : Nat} {v : Word} {c : Host.Cell} (h : c ∈ (s.storeWord a v).mem) :
    (a ≤ c.1 ∧ c.1 < a + 4) ∨ c ∈ s.mem := by
  rcases Memory.mem_put h with rfl | h
  · left; simp
  rcases Memory.mem_put h with rfl | h
  · left; simp
  rcases Memory.mem_put h with rfl | h
  · left; simp
  rcases Memory.mem_put h with rfl | h
  · left; simp
  · exact Or.inr h

theorem State.mem_storeOutBytes {s : State} {bits : List Bool} {q : Nat} {c : Host.Cell}
    (h : c ∈ (s.storeOutBytes bits q).mem) : (outBase ≤ c.1 ∧ c.1 < outBase + q) ∨ c ∈ s.mem := by
  induction q with
  | zero => exact Or.inr h
  | succ q ih =>
    rcases Memory.mem_put h with rfl | h
    · left; simp
    · rcases ih h with h | h
      · left; omega
      · exact Or.inr h

end Sys2Proof.Machine
end

