-- ==== Sys2Proof/Laws/Exec.lean ====
section
/-!
SUPPORT. One inversion lemma per meaning, which says once everything that command can do; later proofs cite it instead
of unfolding the meaning.
-/

namespace Sys2Proof.Machine

theorem execNop_spec {s t : State} (h : execNop s = .next t) : t = complete .none 0 0 s := by
  cases h; rfl

theorem execRevbits_spec {width : BitVec 6} {s t : State} (h : execRevbits width s = .next t) :
    (32 < width.toNat ∧ t = complete .command 3 0 s) ∨
    (width.toNat ≤ 32 ∧ t = complete .none 0 0 { s with result := reverseBits width.toNat s.arg }) := by
  unfold execRevbits at h
  split at h <;> cases h
  · exact .inl ⟨‹_›, rfl⟩
  · exact .inr ⟨by omega, rfl⟩

theorem execConfigure_spec {rev : Bool} {s t : State} (h : execConfigure rev s = .next t) :
    (∃ e, configError s = some e ∧ t = complete .config e.1 e.2 (clearConfig s)) ∨
    (configError s = none ∧ t = complete .none 0 0 (latchConfig rev s)) := by
  unfold execConfigure at h
  split at h <;> cases h
  · exact .inl ⟨_, ‹_›, rfl⟩
  · exact .inr ⟨‹_›, rfl⟩

theorem execEncode_spec {s t : State} (h : execEncode s = .next t) :
    (∃ e, encodeError s = some e ∧ t = complete e.1 e.2 0 { s with outLen := 0 }) ∨
    (encodeError s = none ∧ t = complete .none 0 0 { s.storeOutBits (s.activeCode.encoded s.inputBits) with
      outLen := BitVec.ofNat 32 (s.activeCode.encodedLength s.inLen.toNat) }) := by
  unfold execEncode at h
  split at h <;> cases h
  · exact .inl ⟨_, ‹_›, rfl⟩
  · exact .inr ⟨‹_›, rfl⟩

theorem execDecode_spec {s t : State} (h : execDecode s = .next t) :
    (∃ e, decodeError s = some e ∧ t = complete e.1 e.2 0 { s with outLen := 0 }) ∨
    (decodeError s = none ∧ t = complete .none 0 0 { s.storeOutBits (s.activeCode.decoded s.params.inf s.inputBits) with
      outLen := BitVec.ofNat 32 (s.trellisSteps - (s.actK.toNat - 1)) }) := by
  unfold execDecode at h
  split at h <;> cases h
  · exact .inl ⟨_, ‹_›, rfl⟩
  · exact .inr ⟨‹_›, rfl⟩

/-! ### Which errors a check reports -/

theorem polyError_spec {k : Nat} {polys : List Word} :
    ∀ {i : Nat} {e : BitVec 4 × BitVec 5}, polyError k i polys = some e →
      ∃ j, j < polys.length ∧ e.2 = BitVec.ofNat 5 (i + j) ∧
        (∀ l, l < j → 0 < (polys.getD l 0).toNat ∧ (polys.getD l 0).toNat < 2 ^ k) ∧
        ((e.1 = 5 ∧ (polys.getD j 0).toNat = 0) ∨
         (e.1 = 6 ∧ 0 < (polys.getD j 0).toNat ∧ 2 ^ k ≤ (polys.getD j 0).toNat)) := by
  induction polys with
  | nil => intro i e h; cases h
  | cons p rest ih =>
    intro i e h
    unfold polyError at h
    split at h
    · cases h
      exact ⟨0, by simp, by simp, by simp, .inl ⟨rfl, by simpa using ‹p.toNat = 0›⟩⟩
    · split at h
      · cases h
        exact ⟨0, by simp, by simp, by simp, .inr ⟨rfl, by simp; omega, by simpa using ‹2 ^ k ≤ p.toNat›⟩⟩
      · obtain ⟨j, hj, he, hl, hb⟩ := ih h
        refine ⟨j + 1, by simpa using hj, ?_, ?_, by simpa using hb⟩
        · rw [he, show i + 1 + j = i + (j + 1) by omega]
        · intro l hlt
          rcases l with _ | l
          · simp; omega
          · simpa using hl l (by omega)

theorem polyError_none {k : Nat} {polys : List Word} :
    ∀ {i : Nat}, polyError k i polys = none ↔ ∀ p ∈ polys, 0 < p.toNat ∧ p.toNat < 2 ^ k := by
  induction polys with
  | nil => intro i; simp [polyError]
  | cons p rest ih =>
    intro i
    unfold polyError
    split
    · simp; intro h; omega
    · split
      · simp; intro _ h; omega
      · rw [ih]; simp; intro _; omega

/-- The sub-causes CONFIGURE reports, and the index it reports with each (`60_exceptions.md` R243). -/
theorem configError_spec {s : State} {e : BitVec 4 × BitVec 5} (h : configError s = some e) :
    (s.cfgK.toNat = 0 ∧ e = (1, 0)) ∨
    (s.cfgK.toNat ≠ 0 ∧ s.params.kmax < s.cfgK.toNat ∧ e = (2, 0)) ∨
    (s.cfgK.toNat ≠ 0 ∧ s.cfgK.toNat ≤ s.params.kmax ∧ s.cfgN.toNat = 0 ∧ e = (3, 0)) ∨
    (s.cfgK.toNat ≠ 0 ∧ s.cfgK.toNat ≤ s.params.kmax ∧ s.cfgN.toNat ≠ 0 ∧ s.params.nmax < s.cfgN.toNat ∧ e = (4, 0)) ∨
    (s.cfgK.toNat ≠ 0 ∧ s.cfgK.toNat ≤ s.params.kmax ∧ s.cfgN.toNat ≠ 0 ∧ s.cfgN.toNat ≤ s.params.nmax ∧
      polyError s.cfgK.toNat 0 s.stagedPolys = some e) := by
  unfold configError at h
  split at h
  · cases h; exact .inl ⟨‹_›, rfl⟩
  split at h
  · cases h; exact .inr (.inl ⟨‹_›, ‹_›, rfl⟩)
  split at h
  · cases h; exact .inr (.inr (.inl ⟨‹_›, by omega, ‹_›, rfl⟩))
  split at h
  · cases h; exact .inr (.inr (.inr (.inl ⟨‹_›, by omega, ‹_›, ‹_›, rfl⟩)))
  · exact .inr (.inr (.inr (.inr ⟨‹_›, by omega, ‹_›, by omega, h⟩)))

theorem configError_none {s : State} : configError s = none ↔
    1 ≤ s.cfgK.toNat ∧ s.cfgK.toNat ≤ s.params.kmax ∧ 1 ≤ s.cfgN.toNat ∧ s.cfgN.toNat ≤ s.params.nmax ∧
      ∀ p ∈ s.stagedPolys, 0 < p.toNat ∧ p.toNat < 2 ^ s.cfgK.toNat := by
  unfold configError
  split
  · simp; omega
  split
  · simp; omega
  split
  · simp; omega
  split
  · simp; omega
  · rw [polyError_none]
    constructor
    · intro h; exact ⟨by omega, by omega, by omega, by omega, h⟩
    · intro h; exact h.2.2.2.2

theorem encodeError_none {s : State} : encodeError s = none ↔
    s.status.cfgValid = true ∧ s.inLen.toNat ≤ s.params.inBits ∧
      s.activeCode.encodedLength s.inLen.toNat ≤ s.params.outBits := by
  unfold encodeError
  split
  · simp_all
  split
  · simp; omega
  split
  · simp; omega
  · simp_all

/-- The errors of ENCODE (`42_encoder.md` R160). -/
theorem encodeError_some {s : State} {e : ErrCode × BitVec 4} (h : encodeError s = some e) :
    e = (.config, 7) ∨ e = (.capacity, 1) ∨ e = (.capacity, 2) := by
  unfold encodeError at h
  split at h
  · cases h; simp
  split at h
  · cases h; simp
  split at h <;> cases h
  simp

theorem decodeError_none {s : State} : decodeError s = none ↔
    s.status.cfgValid = true ∧ s.inLen.toNat ≤ s.params.inBits ∧ s.inLen.toNat ≠ 0 ∧
      s.inLen.toNat % s.actN.toNat = 0 ∧ s.actK.toNat - 1 ≤ s.trellisSteps ∧ s.trellisSteps ≤ s.params.tmax ∧
      s.trellisSteps - (s.actK.toNat - 1) ≤ s.params.outBits := by
  unfold decodeError
  split
  · simp_all
  split
  · simp; omega
  split
  · simp; omega
  split
  · simp; omega
  split
  · simp; omega
  split
  · simp; omega
  · simp only [true_iff]
    refine ⟨by simp_all, by omega, by omega, by omega, by omega, by omega, by omega⟩

/-- The errors of DECODE (`43_decoder.md` R190). -/
theorem decodeError_some {s : State} {e : ErrCode × BitVec 4} (h : decodeError s = some e) :
    e = (.config, 7) ∨ e = (.capacity, 1) ∨ e = (.length, 1) ∨ e = (.length, 2) ∨ e = (.capacity, 3) ∨
      e = (.capacity, 2) := by
  unfold decodeError at h
  split at h
  · cases h; simp
  split at h
  · cases h; simp
  split at h
  · cases h; simp
  split at h
  · cases h; simp
  split at h
  · cases h; simp
  split at h <;> cases h
  simp

/-- The engine-internal registers left by a completion fit their widths. -/
theorem Engine.stale_fits (p : Params) (draw : Nat) : (Engine.stale p draw).Fits p where
  sr := Nat.mod_lt _ (by positivity)
  pm := by
    intro m hm
    obtain ⟨x, -, rfl⟩ := List.mem_map.1 hm
    exact Nat.mod_lt _ (by positivity)
  pmCount := by simp [Engine.stale]
  pmem := by
    intro row hr x hx
    obtain ⟨r, -, rfl⟩ := List.mem_map.1 hr
    obtain ⟨e, -, rfl⟩ := List.mem_map.1 hx
    exact Nat.mod_lt _ (by positivity)
  pmemRow := by
    intro row hr
    obtain ⟨r, -, rfl⟩ := List.mem_map.1 hr
    simp
  pmemDepth := by simp [Engine.stale]
  tbS := Nat.mod_lt _ (by positivity)
  tbT := Nat.lt_succ_iff.1 (Nat.mod_lt _ (by omega))

theorem Engine.Fits.withLatched {p : Params} {e : Engine} (h : e.Fits p) (w : Word) :
    ({ e with latched := w } : Engine).Fits p :=
  ⟨h.sr, h.pm, h.pmCount, h.pmem, h.pmemRow, h.pmemDepth, h.tbS, h.tbT⟩

/-! ### Steps -/

theorem step_nil {s : State} (h : s.schedule = []) : step s = engineTurn s := by
  unfold step; rw [h]

theorem step_cons {s : State} {e : Event} {rest : List Event} (h : s.schedule = e :: rest) :
    step s = serve { s with schedule := rest } e := by
  unfold step; rw [h]

/-- Everything the engine's turn can do. -/
theorem engineTurn_spec {s t : State} (h : engineTurn s = .next t) :
    ((s.status.busy = false ∨ s.rst = true) ∧ t = s) ∨
    (s.status.busy = true ∧ s.rst = false ∧
      ((∃ i, decodeWord s.engine.latched = .ok i ∧ exec i s = .next t) ∨
       (∃ e, decodeWord s.engine.latched = .error e ∧ t = complete .command e.sub 0 s))) := by
  unfold engineTurn at h
  split at h
  · rename_i hb
    simp only [Bool.and_eq_true, Bool.not_eq_true'] at hb
    refine .inr ⟨hb.1, hb.2, ?_⟩
    unfold executeLatched at h
    split at h
    · exact .inl ⟨_, ‹_›, h⟩
    · cases h; exact .inr ⟨_, ‹_›, rfl⟩
  · rename_i hb
    cases h
    refine .inl ⟨?_, rfl⟩
    cases h1 : s.status.busy <;> cases h2 : s.rst <;> simp_all

/-- An admitted access: `rst` released, inside the window, one aligned word. -/
theorem admitOffset_ok {s : State} {addr size off : Nat} (h : admitOffset s addr size = .ok off) :
    s.rst = false ∧ s.params.base ≤ addr ∧ addr < s.params.base + windowSize ∧ size = 4 ∧
      off = addr - s.params.base ∧ off % 4 = 0 ∧ off < windowSize := by
  unfold admitOffset at h
  split at h
  · cases h
  split at h
  · cases h
  split at h
  · cases h
  · cases h
    refine ⟨by simpa using ‹¬ s.rst = true›, by omega, by omega, by omega, rfl, by omega, by omega⟩

theorem admitOffset_of {s : State} {off : Nat} (hr : s.rst = false) (ha : off % 4 = 0) (ho : off < windowSize) :
    admitOffset s (s.params.base + off) 4 = .ok off := by
  unfold admitOffset
  rw [hr, if_neg (by simp), if_neg (by omega), if_neg (by omega), Nat.add_sub_cancel_left]

/-- Everything one event can do. -/
theorem serve_spec {s t : State} {e : Event} (h : serve s e = .next t) :
    (∃ addr size off, e = .hostRead addr size ∧ admitOffset s addr size = .ok off ∧ t = readOffset off s) ∨
    (∃ addr size v off, e = .hostWrite addr size v ∧ admitOffset s addr size = .ok off ∧ t = writeOffset off v s) ∨
    (e = .engineTurn ∧ engineTurn s = .next t) ∨
    (e = .resetAssert ∧ t = assertReset s) ∨ (e = .resetRelease ∧ t = releaseReset s) := by
  cases e with
  | hostRead addr size =>
    left
    change hostRead addr size s = .next t at h
    unfold hostRead at h
    split at h <;> cases h
    exact ⟨addr, size, _, rfl, ‹_›, rfl⟩
  | hostWrite addr size v =>
    right; left
    change hostWrite addr size v s = .next t at h
    unfold hostWrite at h
    split at h <;> cases h
    exact ⟨addr, size, v, _, rfl, ‹_›, rfl⟩
  | engineTurn => exact .inr (.inr (.inl ⟨rfl, h⟩))
  | resetAssert => cases h; exact .inr (.inr (.inr (.inl ⟨rfl, rfl⟩)))
  | resetRelease => cases h; exact .inr (.inr (.inr (.inr ⟨rfl, rfl⟩)))

end Sys2Proof.Machine
end

