-- ==== Sys2Proof/Laws/PerInstr.lean ====
section
/-!
SUPPORT. Statements about every command as syntax: one lemma per constructor.
-/

namespace Sys2Proof.Laws.TableRow

/-- The mask of the command's row in spec/opcode_table.json. -/
def mask : Instr → Word
  | .nop => 0xFFFFFFFF
  | .configure _ => 0xFFFFFFEF
  | .encode => 0xFFFFFFFF
  | .decode => 0xFFFFFFFF
  | .revbits _ => 0xFFFFC0FF

/-- The match of the command's row. -/
def pattern : Instr → Word
  | .nop => 0x00000000
  | .configure _ => 0x00000001
  | .encode => 0x00000002
  | .decode => 0x00000003
  | .revbits _ => 0x00000004

/-- A command's word matches its own row of spec/opcode_table.json. -/
def Statement (i : Instr) : Prop := encodeWord i &&& mask i = pattern i

theorem nop : Statement .nop := by unfold Statement; decide

theorem configure (rev : Bool) : Statement (.configure rev) := by unfold Statement; cases rev <;> decide

theorem encode : Statement .encode := by unfold Statement; decide

theorem decode : Statement .decode := by unfold Statement; decide

theorem revbits (width : BitVec 6) : Statement (.revbits width) := by
  unfold Statement
  revert width
  decide

end Sys2Proof.Laws.TableRow
end

