-- ==== Sys2Proof/Laws/Words.lean ====
section
/-!
SUPPORT. The command word as a number (`30_encoding.md` R90): its fields, and the word packed from fields.
-/

namespace Sys2Proof

/-- A concatenation as a number. -/
theorem toNat_append {n m : Nat} (x : BitVec n) (y : BitVec m) : (x ++ y).toNat = x.toNat * 2 ^ m + y.toNat := by
  rw [BitVec.toNat_append, Nat.shiftLeft_eq, Nat.mul_comm, Nat.two_pow_add_eq_or_of_lt y.isLt]

theorem packWord_toNat (width : BitVec 6) (rev : Bool) (op : BitVec 4) :
    (packWord width rev op).toNat = width.toNat * 256 + rev.toNat * 16 + op.toNat := by
  unfold packWord
  simp only [toNat_append]
  simp; omega

theorem opField_toNat (w : Word) : (opField w).toNat = w.toNat % 16 := by
  simp [opField, BitVec.extractLsb'_toNat]

theorem revField_eq (w : Word) : revField w = decide (w.toNat / 16 % 2 = 1) := by
  simp only [revField, BitVec.getLsbD, Nat.testBit_eq_decide_div_mod_eq, Nat.reducePow]

theorem reservedLow_toNat (w : Word) : (reservedLow w).toNat = w.toNat / 32 % 8 := by
  simp [reservedLow, BitVec.extractLsb'_toNat, Nat.shiftRight_eq_div_pow]

theorem widthField_toNat (w : Word) : (widthField w).toNat = w.toNat / 256 % 64 := by
  simp [widthField, BitVec.extractLsb'_toNat, Nat.shiftRight_eq_div_pow]

theorem reservedHigh_toNat (w : Word) : (reservedHigh w).toNat = w.toNat / 2 ^ 14 := by
  simp [reservedHigh, BitVec.extractLsb'_toNat, Nat.shiftRight_eq_div_pow]
  omega

end Sys2Proof
end

