-- ==== Sys2Proof/Tests/Slice0.lean ====
section
/-!
SUPPORT. Small tests, whose expected values are the spec's own (`95_test_vectors.md`, by the vector's name, or the rule
named), and for every statement with hypotheses a state that meets them.
-/

namespace Sys2Proof.Machine.Tests

open Sys2Proof Sys2Proof.Machine

/-! ### Encodings, bit 31 first, written out from the pattern strings of `30_encoding.md` R90 and R96 -/

theorem test_decode_nop : decodeWord 0b00000000000000000000000000000000 = .ok .nop := by decide

theorem test_decode_configure : decodeWord 0b00000000000000000000000000000001 = .ok (.configure false) := by decide

theorem test_decode_configure_rev : decodeWord 0b00000000000000000000000000010001 = .ok (.configure true) := by decide

theorem test_decode_encode : decodeWord 0b00000000000000000000000000000010 = .ok .encode := by decide

theorem test_decode_decode : decodeWord 0b00000000000000000000000000000011 = .ok .decode := by decide

/-- WIDTH = 0b000111 in bits 13:8 (REV-1). -/
theorem test_decode_revbits : decodeWord 0b00000000000000000000011100000100 = .ok (.revbits 7) := by decide

/-- WIDTH = 0b100000, the largest legal one (REV-8). -/
theorem test_decode_revbits_32 : decodeWord 0b00000000000000000010000000000100 = .ok (.revbits 32) := by decide

/-- CMD-1, CMD-3, CMD-4, CMD-5 and R95's third and fourth checks. -/
theorem test_decode_errors :
    decodeWord 0x00000005 = .error .reservedOpcode ∧ decodeWord 0x00000015 = .error .reservedOpcode ∧
    decodeWord 0x00000020 = .error .reservedBits ∧ decodeWord 0x80000002 = .error .reservedBits ∧
    decodeWord 0x00000012 = .error .revOutsideConfigure ∧ decodeWord 0x00000102 = .error .widthOutsideRevbits := by
  decide

/-- The one check on a command's fields: WIDTH = 33 (REV-E1) and WIDTH = 63 (REV-E2) are refused, 32 and 0 are not. -/
theorem test_wellFormed_width :
    Instr.wf (.revbits 33) = false ∧ Instr.wf (.revbits 63) = false ∧ Instr.wf (.revbits 32) = true ∧
    Instr.wf (.revbits 0) = true ∧ legalWord 0x00002104 = false ∧ legalWord 0x00002004 = true := by decide

/-- The table's rows, read as the table numbers bits. -/
theorem test_table_words :
    decodeTableWord 32 0x1 = some (.configure false) ∧ decodeTableWord 32 0x704 = some (.revbits 7) ∧
    decodeTableWord 32 0x5 = none := by decide

/-! ### Small states -/

/-- An outcome's next state, looked at through `f`. -/
def observe {α : Type} (o : Host.Outcome State Fault Refusal) (f : State → α) : Option α :=
  match o with
  | .next t => some (f t)
  | .fault _ => none
  | .refused _ => none

/-- Reset, with staged values. -/
def staged (k : BitVec 5) (n : BitVec 6) (polys : List Word) : State :=
  { State.reset with cfgK := k, cfgN := n, cfgPoly := polys }

/-- Reset, with an active configuration. -/
def configured (k : BitVec 5) (n : BitVec 6) (polys : List Word) : State :=
  { State.reset with status := Status.reset.withCfgValid true, actK := k, actN := n, actPoly := polys }

/-- K = 3, [7, 5]. -/
def k3 : State := configured 3 2 [7, 5, 0, 0]

/-- K = 7, [91, 117, 121]. -/
def k7 : State := configured 7 3 [91, 117, 121, 0]

/-- IN_LEN and the first two words of the input buffer; the first two words of the output buffer hold 0. -/
def loaded (s : State) (len w0 w1 : Word) : State :=
  (((({ s with inLen := len }.storeWord inBase w0).storeWord (inBase + 4) w1).storeWord outBase 0).storeWord (outBase + 4) 0)

/-- STATUS, OUT_LEN and the first two words of the output buffer. -/
def results (t : State) : Word × Word × Word × Word :=
  (t.status.word, t.outLen, t.wordAt outBase, t.wordAt (outBase + 4))

/-- The active configuration and STATUS. -/
def active (t : State) : Word × BitVec 5 × BitVec 6 × List Word := (t.status.word, t.actK, t.actN, t.actPoly)

/-- The same state with events to come. -/
def events (s : State) (l : List Event) : State := { s with schedule := l }

/-- The word `w` has been accepted. -/
def running (s : State) (w : Word) : State := accept w s

/-! ### Commands -/

/-- NOP-1. -/
theorem test_nop : observe (exec .nop State.reset) (fun t => t.status.word) = some 0x00000002 := by decide

/-- CFG-2. -/
theorem test_configure_rev :
    observe (exec (.configure true) (staged 7 3 [109, 87, 79, 0])) active =
      some (0x0000000A, 7, 3, [91, 117, 121, 0]) := by decide +kernel

/-- CFG-E8 and CFG-E9. -/
theorem test_configure_errors :
    observe (exec (.configure false) (staged 3 3 [7, 9, 0, 0])) active = some (0x00016106, 0, 0, [0, 0, 0, 0]) ∧
    observe (exec (.configure true) (staged 3 1 [8, 0, 0, 0])) active = some (0x00006106, 0, 0, [0, 0, 0, 0]) := by
  decide +kernel

/-- ENC-1 (EX-1): bits beyond OUT_LEN keep the 0 they held. -/
theorem test_encode :
    observe (exec .encode (loaded k3 15 0x0000453A 0)) results =
      some (0x0000000A, 34, 0x7347E61C, 0x00000003) := by decide +kernel

/-- ENC-E3. -/
theorem test_encode_capacity :
    observe (exec .encode (loaded k3 2047 0 0)) results = some (0x0000240E, 0, 0, 0) := by decide +kernel

/-- EX-4 (DEC-5). -/
theorem test_decode_k7 :
    observe (exec .decode (loaded k7 42 0x3FAF474F 0x0000039D)) results =
      some (0x0000000A, 8, 0x000000ED, 0) := by decide +kernel

/-- DEC-7, a tie between `00` and `11`, and DEC-E2. -/
theorem test_decode_tie_and_length :
    observe (exec .decode (loaded k3 8 0x000000E0 0)) results = some (0x0000000A, 2, 0, 0) ∧
    observe (exec .decode (loaded k3 3 5 0)) results = some (0x0000130E, 0, 0, 0) := by decide +kernel

/-- REV-9. -/
theorem test_revbits :
    observe (exec (.revbits 32) { State.reset with arg := 0x12345678 }) (fun t => (t.status.word, t.result)) =
      some (0x00000002, 0x1E6A2C48) := by decide +kernel

/-- REV-E1: RESULT is unchanged. -/
theorem test_revbits_width :
    observe (exec (.revbits 33) { State.reset with arg := 1, result := 0x6D }) (fun t => (t.status.word, t.result)) =
      some (0x00003506, 0x6D) := by decide

/-- The register and trellis functions of `95_test_vectors.md` for K = 3, [7, 5], at state 3. -/
theorem test_trellis :
    reg 3 3 true = 0b111 ∧ k3.activeCode.output 3 true = [true, false] ∧ k3.activeCode.next 3 true = 3 ∧
    preds 3 1 = [(0, true), (2, true)] := by decide

/-- DEC-1: the metrics after the first two steps. -/
theorem test_metrics :
    finalColumn k3.activeCode 65535 (initialColumn k3.activeCode 65535) [[false, false], [true, true]] = [2, 0, 3, 3] := by
  decide

/-! ### The host's accesses and the engine's turn -/

/-- P3: CTRL = 1, CFG_K = 3 of the value 0xFFFFFFE3 masked to its field. -/
theorem test_host_writes :
    observe (step (events State.reset [.hostWrite 0x10 4 1])) (fun t => t.ie) = some true ∧
    observe (step (events State.reset [.hostWrite 0x20 4 0xFFFFFFE3])) (fun t => t.cfgK) = some 3 := by decide +kernel

/-- R22 with the reference parameters: 9 + 4·2^5 + 16·2^11. -/
theorem test_host_read :
    observe (step (events State.reset [.hostRead 0 4])) (fun t => t.readData) = some 0x00008089 := by decide +kernel

/-- P6: a write to IN_LEN while ENCODE runs is discarded and sets OVR; the engine's turn before it lets it land. -/
theorem test_busy_write :
    observe (step (events (running (loaded k3 2 3 0) 2) [.hostWrite 0x28 4 1])) (fun t => (t.inLen, t.status.ovr)) =
      some (2, true) ∧
    observe (step (events (running (loaded k3 2 3 0) 2) [.engineTurn, .hostWrite 0x28 4 1])) results =
      some (0x0000000A, 8, 0x000000EB, 0) := by decide +kernel

/-- CMD-3: the opcode check comes first. -/
theorem test_illegal_word : observe (step (running k3 0x15)) (fun t => t.status.word) = some 0x0000150E := by
  decide +kernel

/-- CFG-E1 and NOP-1, as the first command after reset. -/
theorem test_first_command :
    observe (step (State.reset.withFetchWord 32 1)) (fun t => t.status.word) = some 0x00001106 ∧
    observe (step (State.reset.withFetchWord 32 0)) (fun t => t.status.word) = some 0x00000002 := by decide +kernel

/-- R280: while `rst` is asserted there is no command running, and an access is no step. -/
theorem test_reset :
    observe (step (events (running k3 2) [.resetAssert])) (fun t => (t.status.word, t.rst)) = some (0, true) ∧
    step (events { k3 with rst := true } [.hostRead 0 4]) = .fault .accessDuringReset := ⟨by decide +kernel, rfl⟩

/-- The map's edges with the reference parameters (NMAX = 4, IN_WORDS = OUT_WORDS = 128). -/
theorem test_window_edges :
    regAt Params.reference 0x04C = .cfgPoly 3 ∧ regAt Params.reference 0x050 = .reserved ∧
    regAt Params.reference 0x0BC = .reserved ∧ regAt Params.reference 0x0C0 = .actPoly 0 ∧
    regAt Params.reference 0x0CC = .actPoly 3 ∧ regAt Params.reference 0x0D0 = .reserved ∧
    regAt Params.reference 0x13C = .reserved ∧ regAt Params.reference 0x140 = .reserved ∧
    regAt Params.reference 0xFFFC = .reserved ∧ regAt Params.reference 0x10000 = .inBuf 0 ∧
    regAt Params.reference 0x101FC = .inBuf 127 ∧ regAt Params.reference 0x10200 = .reserved ∧
    regAt Params.reference 0x20000 = .outBuf 0 ∧ regAt Params.reference 0x201FC = .outBuf 127 ∧
    regAt Params.reference 0x20200 = .reserved ∧ regAt Params.reference 0x30000 = .reserved ∧
    regAt Params.reference 0x3FFFC = .reserved := by decide +kernel

/-! ### States that meet the hypotheses of the statements -/

/-- The invariant of the small states: nothing but the active configuration, IN_LEN and buffer bytes differs from reset. -/
theorem inv_loaded (len w0 w1 : Word) : (loaded k3 len w0 w1).Inv where
  paramsOk := by show Params.reference.ok = true; decide
  memWf := State.wf_storeWord (State.wf_storeWord (State.wf_storeWord (State.wf_storeWord rfl _ _) _ _) _ _) _ _
  memInBuffers := by
    intro c hc
    show bufferByte Params.reference c.1 = true
    have h : (inBase ≤ c.1 ∧ c.1 < inBase + 8) ∨ (outBase ≤ c.1 ∧ c.1 < outBase + 8) := by
      rcases State.mem_storeWord hc with h | h
      · omega
      rcases State.mem_storeWord h with h | h
      · omega
      rcases State.mem_storeWord h with h | h
      · omega
      rcases State.mem_storeWord h with h | h
      · omega
      cases h
    unfold bufferByte
    rw [Bool.or_eq_true]
    rcases h with h | h
    · exact .inl (decide_eq_true ⟨h.1, by show c.1 < inBase + 4 * 128; omega⟩)
    · exact .inr (decide_eq_true ⟨h.1, by show c.1 < outBase + 4 * 128; omega⟩)
  cfgPolyCount := rfl
  actPolyCount := rfl
  activeValid := by intro _; show Code.valid Params.reference k3.activeCode = true; decide
  activeAbsent := by intro h; cases h
  unusedPolys := by
    intro i (hi : 2 ≤ i)
    show [(7 : Word), 5, 0, 0].getD i 0 = 0
    rcases i with _ | _ | _ | _ | i
    · omega
    · omega
    · rfl
    · rfl
    · rfl
  busyClear := by intro h; cases h
  noError := by intro _; exact ⟨rfl, rfl, rfl⟩
  indexMeaning := by intro h; exact absurd rfl h
  indexBound := by show 0 < 4; decide
  resetIdle := by intro h; cases h
  outLenFits := by show 0 ≤ 32 * 128; decide
  engineFits := by
    show Engine.reset.Fits Params.reference
    constructor <;> decide

/-- A state whose next event is a host access, and one where an accepted word runs: each meets the invariant too. -/
theorem witness_step_keeps_the_invariant :
    ∃ s t : State, s.Inv ∧ step s = .next t ∧ t.status.done ≠ s.status.done := by
  refine ⟨loaded k3 0 0 0 |> accept 0, _, ?_, rfl, by decide⟩
  have h := inv_loaded 0 0 0
  exact ⟨h.paramsOk, h.memWf, h.memInBuffers, h.cfgPolyCount, h.actPolyCount, h.activeValid, h.activeAbsent, h.unusedPolys,
    fun _ => ⟨rfl, rfl, rfl⟩, fun _ => ⟨rfl, rfl, rfl⟩, fun h => absurd rfl h, h.indexBound, fun h => (by cases h),
    h.outLenFits, h.engineFits.withLatched 0⟩

/-! #### The engine's turn and illegal words -/

theorem witness_reserved_opcode : engineRuns (running k3 5) ∧ 5 ≤ (running k3 5).engine.latched.toNat % 16 ∧
    decodeWord (running k3 5).engine.latched = .error .reservedOpcode :=
  ⟨⟨rfl, rfl, .inl rfl⟩, by decide, by decide⟩

/-- A reserved bit (5, 7, 14, 31), REV outside CONFIGURE, WIDTH outside REVBITS. -/
theorem witness_reserved_fields :
    (engineRuns (running k3 0x20) ∧ (0x20 : Word).toNat % 16 < 5 ∧ (0x20 : Word).toNat / 32 % 8 ≠ 0) ∧
    (engineRuns (running k3 0x80) ∧ (0x80 : Word).toNat % 16 < 5 ∧ (0x80 : Word).toNat / 32 % 8 ≠ 0) ∧
    (engineRuns (running k3 0x4000) ∧ (0x4000 : Word).toNat % 16 < 5 ∧ (0x4000 : Word).toNat / 2 ^ 14 ≠ 0) ∧
    (engineRuns (running k3 0x80000002) ∧ (0x80000002 : Word).toNat % 16 < 5 ∧ (0x80000002 : Word).toNat / 2 ^ 14 ≠ 0) ∧
    (engineRuns (running k3 0x12) ∧ (0x12 : Word).toNat / 16 % 2 = 1 ∧ (0x12 : Word).toNat % 16 ≠ 1) ∧
    (engineRuns (running k3 0x3F00) ∧ (0x3F00 : Word).toNat / 256 % 64 ≠ 0 ∧ (0x3F00 : Word).toNat % 16 ≠ 4) := by
  refine ⟨⟨⟨rfl, rfl, .inl rfl⟩, ?_⟩, ⟨⟨rfl, rfl, .inl rfl⟩, ?_⟩, ⟨⟨rfl, rfl, .inl rfl⟩, ?_⟩, ⟨⟨rfl, rfl, .inl rfl⟩, ?_⟩,
    ⟨⟨rfl, rfl, .inl rfl⟩, ?_⟩, ⟨⟨rfl, rfl, .inl rfl⟩, ?_⟩⟩ <;> decide

/-- WIDTH = 33, the first illegal one, and WIDTH = 32, the last legal one. -/
theorem witness_width :
    (engineRuns (running k3 0x2104) ∧ (0x2104 : Word).toNat % 16 = 4 ∧ (0x2104 : Word).toNat / 32 % 8 = 0 ∧
      (0x2104 : Word).toNat / 2 ^ 14 = 0 ∧ (0x2104 : Word).toNat / 16 % 2 = 0 ∧ 32 < (0x2104 : Word).toNat / 256 % 64) ∧
    (engineRuns (running k3 0x2004) ∧ (0x2004 : Word).toNat % 16 < 5 ∧ (0x2004 : Word).toNat / 32 % 8 = 0 ∧
      (0x2004 : Word).toNat / 2 ^ 14 = 0 ∧ (0x2004 : Word).toNat / 16 % 2 = 0 ∧
      (0x2004 : Word).toNat % 16 = 4 ∧ (0x2004 : Word).toNat / 256 % 64 ≤ 32) := by
  refine ⟨⟨⟨rfl, rfl, .inl rfl⟩, ?_⟩, ⟨⟨rfl, rfl, .inl rfl⟩, ?_⟩⟩ <;> decide

/-- Each row of the table is run by some step. -/
theorem witness_runs_command :
    ∀ i ∈ [Instr.nop, .configure false, .configure true, .encode, .decode, .revbits 0, .revbits 63],
      runsCommand (running k3 (encodeWord i)) i := by
  intro i hi
  refine ⟨⟨rfl, rfl, .inl rfl⟩, ?_⟩
  show decodeWord (encodeWord i) = .ok i
  revert i
  decide

/-- The engine's turn comes before a read that is still to come. -/
theorem witness_runs_revbits :
    runsCommand (events (running k3 0x704) [.engineTurn, .hostRead 0x34 4]) (.revbits 7) :=
  ⟨⟨rfl, rfl, .inr rfl⟩, by decide⟩

/-! #### Reset -/

/-- A command is running when `rst` is asserted, and it is released next. -/
theorem witness_reset :
    (events (running k3 2) [.resetAssert, .resetRelease]).params.ok = true ∧
    assertsReset (events (running k3 2) [.resetAssert, .resetRelease]) ∧
    (events (running k3 2) [.resetAssert, .resetRelease]).schedule.tail.head? = some .resetRelease := by
  refine ⟨by decide, ?_, ?_⟩ <;> rfl

/-! #### Host accesses -/

/-- A write of any word to CMD, idle and busy. -/
theorem witness_cmd_write :
    ((events k3 [.hostWrite 0x18 4 0x15]).rst = false ∧ hostWrites (events k3 [.hostWrite 0x18 4 0x15]) 0x18 0x15 ∧
      (events k3 [.hostWrite 0x18 4 0x15]).status.busy = false) ∧
    (hostWrites (events (running k3 2) [.hostWrite 0x18 4 3]) 0x18 3 ∧
      (events (running k3 2) [.hostWrite 0x18 4 3]).status.busy = true) :=
  ⟨⟨rfl, rfl, rfl⟩, ⟨rfl, rfl⟩⟩

/-- While ENCODE runs: a read of the last word of the window and a write to its first. -/
theorem witness_busy_access :
    (k3.rst = false ∧ (running k3 2).status.busy = true) ∧
    (admitted (events (running k3 2) [.hostRead 0x3FFFC 4]) 0x3FFFC ∧
      hostReads (events (running k3 2) [.hostRead 0x3FFFC 4]) 0x3FFFC) ∧
    (admitted (events (running k3 2) [.hostWrite 0 4 1]) 0 ∧ hostWrites (events (running k3 2) [.hostWrite 0 4 1]) 0 1) := by
  refine ⟨⟨rfl, rfl⟩, ⟨⟨rfl, ?_, ?_⟩, rfl⟩, ⟨⟨rfl, ?_, ?_⟩, rfl⟩⟩ <;> decide

/-- P6: ENCODE is accepted, then IN_LEN is written and STATUS is read. -/
theorem witness_accepted_command :
    let s := events (running (loaded k3 2 3 0) 2) [.hostWrite 0x28 4 1, .hostRead 0x14 4]
    s.status.busy = true ∧ s.rst = false ∧ decodeWord s.engine.latched = .ok .encode ∧
    ∀ e ∈ s.schedule, ∃ off, admitted s off ∧
      (e = .hostRead (s.params.base + off) 4 ∨ ∃ v, e = .hostWrite (s.params.base + off) 4 v) := by
  refine ⟨rfl, rfl, by decide, ?_⟩
  intro e he
  rcases List.mem_cons.1 he with rfl | he
  · exact ⟨0x28, ⟨rfl, by decide, by decide⟩, .inr ⟨1, rfl⟩⟩
  · rw [List.mem_singleton.1 he]
    exact ⟨0x14, ⟨rfl, by decide, by decide⟩, .inl rfl⟩

/-- Two states that differ in a hidden register and in an input bit above IN_LEN. -/
theorem witness_same_visible :
    ∃ s s' t t' : State, SameVisible s s' ∧ s.engine ≠ s'.engine ∧ s.inBit 3 ≠ s'.inBit 3 ∧
      exec .encode s = .next t ∧ exec .encode s' = .next t' := by
  refine ⟨loaded k3 2 3 0, { (loaded k3 2 3 0).storeWord inBase 0xB with engine := { Engine.reset with sr := 1 } }, _, _,
    ⟨rfl, rfl, rfl, rfl, rfl, rfl, rfl, rfl, rfl, rfl, rfl, rfl, rfl, ?_, ?_⟩, by decide, by decide +kernel, rfl, rfl⟩
  · intro j hj
    have : j = 0 ∨ j = 1 := by
      have : j < 2 := hj
      omega
    rcases this with rfl | rfl <;> decide +kernel
  · intro j
    have h : ∀ a, outBase ≤ a → ((loaded k3 2 3 0).storeWord inBase 0xB).byteAt a = (loaded k3 2 3 0).byteAt a :=
      fun a ha => State.byteAt_storeWord_other _ _ _ _ (.inr ((show inBase + 4 ≤ outBase by decide).trans ha))
    exact (State.outBit_eq _ j).trans ((congrArg (fun v : Byte => v.getLsbD (j % 8)) (h _ (by omega))).trans
      (State.outBit_eq _ j).symm)

theorem witness_idle :
    (k3.status.busy = false ∧ k3.schedule = []) ∧ (events k3 [.engineTurn]).schedule.head? = some .engineTurn :=
  ⟨⟨rfl, rfl⟩, rfl⟩

theorem witness_params : Params.reference.ok = true := by decide

/-- Reads: a register while idle; OUT_LEN, and the last output word, while busy. -/
theorem witness_reads :
    (admitted (events k3 [.hostRead 0x14 4]) 0x14 ∧ hostReads (events k3 [.hostRead 0x14 4]) 0x14 ∧
      (events k3 [.hostRead 0x14 4]).status.busy = false) ∧
    (admitted (events (running k3 2) [.hostRead 0x2C 4]) 0x2C ∧ hostReads (events (running k3 2) [.hostRead 0x2C 4]) 0x2C ∧
      (running k3 2).status.busy = true ∧ (regAt k3.params 0x2C).volatile = true) ∧
    (admitted (events (running k3 2) [.hostRead 0x201FC 4]) 0x201FC ∧
      hostReads (events (running k3 2) [.hostRead 0x201FC 4]) 0x201FC ∧ (regAt k3.params 0x201FC).volatile = true) := by
  refine ⟨⟨⟨rfl, ?_, ?_⟩, rfl, rfl⟩, ⟨⟨rfl, ?_, ?_⟩, rfl, rfl, ?_⟩, ⟨⟨rfl, ?_, ?_⟩, rfl, ?_⟩⟩ <;> decide

/-- An idle read of each register, and of the first and last slots and words: the first case of every clause. -/
theorem witness_idle_reads (off : Nat)
    (h : off ∈ [0x0, 0x4, 0x8, 0x10, 0x14, 0x18, 0x20, 0x24, 0x28, 0x2C, 0x30, 0x34, 0x38, 0x3C, 0x40, 0x4C, 0xC0, 0xCC,
      0x10000, 0x101FC, 0x20000, 0x201FC]) :
    let s := events k3 [.hostRead off 4]
    s.params.ok = true ∧ admitted s off ∧ hostReads s off ∧
    ¬(s.status.busy = true ∧ (regAt s.params off).volatile = true) := by
  have h4 : off % 4 = 0 ∧ off < windowSize := by revert h; revert off; decide
  have hb : (0 : Nat) + off = off := Nat.zero_add off
  refine ⟨witness_params, ⟨rfl, h4⟩, ?_, fun hc => ?_⟩
  · show some (Event.hostRead off 4) = some (.hostRead (0 + off) 4)
    rw [hb]
  · cases hc.1

theorem inv_events {s : State} (h : s.Inv) (l : List Event) : (events s l).Inv :=
  ⟨h.paramsOk, h.memWf, h.memInBuffers, h.cfgPolyCount, h.actPolyCount, h.activeValid, h.activeAbsent, h.unusedPolys,
    h.busyClear, h.noError, h.indexMeaning, h.indexBound, h.resetIdle, h.outLenFits, h.engineFits⟩

/-- A write to each read-write register and to the first and last words of CFG_POLY and of the input buffer, then a read
of it. -/
theorem witness_read_back (off : Nat) (h : off ∈ [0x10, 0x20, 0x24, 0x28, 0x30, 0x40, 0x4C, 0x10000, 0x101FC]) :
    let s := events (loaded k3 0 0 0) [.hostWrite off 4 0xFFFFFFFF, .hostRead off 4]
    s.Inv ∧ s.status.busy = false ∧ admitted s off ∧ hostWrites s off 0xFFFFFFFF ∧
    s.schedule.tail.head? = some (.hostRead (s.params.base + off) 4) := by
  have h4 : off % 4 = 0 ∧ off < windowSize := by revert h; revert off; decide
  have hb : (0 : Nat) + off = off := Nat.zero_add off
  refine ⟨inv_events (inv_loaded 0 0 0) _, rfl, ⟨rfl, h4⟩, ?_, ?_⟩
  · show some (Event.hostWrite off 4 _) = some (.hostWrite (0 + off) 4 _)
    rw [hb]
  · show some (Event.hostRead off 4) = some (.hostRead (0 + off) 4)
    rw [hb]

/-- STATUS, written with ones at DONE, ERR and OVR. -/
theorem witness_status_write :
    (events k3 [.hostWrite 0x14 4 0x16]).rst = false ∧ hostWrites (events k3 [.hostWrite 0x14 4 0x16]) 0x14 0x16 :=
  ⟨rfl, rfl⟩

/-- Writes at the edges of the locked set while busy, and at the edges of what ignores writes. -/
theorem witness_writes (off : Nat)
    (h : off ∈ [0x10, 0x14, 0x18, 0x20, 0x24, 0x28, 0x30, 0x40, 0x4C, 0x10000, 0x101FC, 0x0, 0xC, 0x1C, 0x2C, 0x34, 0x38,
      0x3C, 0x50, 0xFFFC, 0x10200, 0x1FFFC, 0x20000, 0x3FFFC]) :
    let s := events (running k3 2) [.hostWrite off 4 1]
    s.params.ok = true ∧ s.status.busy = true ∧ admitted s off ∧ hostWrites s off 1 := by
  have h4 : off % 4 = 0 ∧ off < windowSize := by revert h; revert off; decide
  have hb : (0 : Nat) + off = off := Nat.zero_add off
  refine ⟨witness_params, rfl, ⟨rfl, h4⟩, ?_⟩
  show some (Event.hostWrite off 4 _) = some (.hostWrite (0 + off) 4 _)
  rw [hb]

/-- Reads at the edges of the reserved offsets. -/
theorem witness_reserved_reads (off : Nat)
    (h : off ∈ [0xC, 0x1C, 0x50, 0xBC, 0xD0, 0x13C, 0x140, 0xFFFC, 0x10200, 0x1FFFC, 0x20200, 0x2FFFC, 0x30000, 0x3FFFC]) :
    let s := events (running k3 2) [.hostRead off 4]
    s.params.ok = true ∧ admitted s off ∧ hostReads s off ∧ regAt s.params off = .reserved := by
  have h4 : off % 4 = 0 ∧ off < windowSize ∧ regAt Params.reference off = .reserved := by revert h; revert off; decide
  have hb : (0 : Nat) + off = off := Nat.zero_add off
  refine ⟨witness_params, ⟨rfl, h4.1, h4.2.1⟩, ?_, h4.2.2⟩
  show some (Event.hostRead off 4) = some (.hostRead (0 + off) 4)
  rw [hb]

/-- Accesses at the edges of the window: in reset, above it, misaligned, too wide, and one that is admitted. -/
theorem witness_unadmitted :
    ({ k3 with rst := true, schedule := [.hostRead 0 4] } : State).schedule.head? = some (.hostRead 0 4) ∧
    ((events k3 [.hostRead 0x40000 4]).rst = false ∧ k3.params.base + windowSize ≤ 0x40000) ∧
    ((events k3 [.hostRead 2 4]).rst = false ∧ k3.params.base ≤ 2 ∧ (2 - k3.params.base) % 4 ≠ 0) ∧
    ((events k3 [.hostWrite 0x3FFFC 8 0]).rst = false ∧ 0x3FFFC < k3.params.base + windowSize) ∧
    ((events k3 [.hostWrite 0x3FFFC 4 0]).rst = false ∧ 0x3FFFC < k3.params.base + windowSize ∧
      (0x3FFFC - k3.params.base) % 4 = 0) ∧
    (({ k3 with params := { Params.reference with base := 0x40000 }, schedule := [.hostRead 0x3FFFC 4] } : State).rst = false ∧
      0x3FFFC < ({ Params.reference with base := 0x40000 } : Params).base) := by
  refine ⟨rfl, ⟨rfl, ?_⟩, ⟨rfl, ?_⟩, ⟨rfl, ?_⟩, ⟨rfl, ?_⟩, ⟨rfl, ?_⟩⟩ <;> decide

/-! #### Flags, errors, the interrupt, the results -/

/-- Each flag changes in some step: BUSY and DONE, CFG_VALID, OVR, the condition codes. -/
theorem witness_flags_change :
    observe (step (running k3 0)) (fun t => t.status.busy) ≠ some (running k3 0).status.busy ∧
    observe (step (running k3 0)) (fun t => t.status.done) ≠ some (running k3 0).status.done ∧
    observe (step (running k3 1)) (fun t => t.status.cfgValid) ≠ some (running k3 1).status.cfgValid ∧
    observe (step (events (running k3 0) [.hostWrite 0x18 4 0])) (fun t => t.status.ovr) ≠
      some (running k3 0).status.ovr ∧
    observe (step (running k3 5)) (fun t => t.status.code) ≠ some (running k3 5).status.code := by decide +kernel

/-- Each command that can fail does so in some state. -/
theorem witness_errors :
    observe (exec (.configure false) k3) (fun t => t.status.code) = some .config ∧
    observe (exec .encode State.reset) (fun t => t.status.code) = some .config ∧
    observe (exec .decode k3) (fun t => t.status.code) = some .length ∧
    observe (exec (.revbits 33) k3) (fun t => t.status.code) = some .command := by decide

/-- A state with DONE = 1 and IE = 1. -/
def completedState : State := { k3 with status := { k3.status with done := true }, ie := true }

/-- irq is high, and each way of clearing it is a step. -/
theorem witness_interrupt :
    completedState.irq = true ∧
    (hostWrites (events completedState [.hostWrite 0x14 4 2]) 0x14 2 ∧ (2 : Word).getLsbD 1 = true ∧
      safeStep (events completedState [.hostWrite 0x14 4 2])) ∧
    (hostWrites (events completedState [.hostWrite 0x18 4 0]) 0x18 0 ∧
      (events completedState [.hostWrite 0x18 4 0]).status.busy = false ∧
      safeStep (events completedState [.hostWrite 0x18 4 0])) ∧
    (assertsReset (events completedState [.resetAssert]) ∧ safeStep (events completedState [.resetAssert])) ∧
    (hostWrites (events completedState [.hostWrite 0x10 4 0]) 0x10 0 ∧
      safeStep (events completedState [.hostWrite 0x10 4 0])) :=
  ⟨rfl, ⟨rfl, by decide, ⟨_, rfl⟩⟩, ⟨rfl, rfl, ⟨_, rfl⟩⟩, ⟨rfl, ⟨_, rfl⟩⟩, ⟨rfl, ⟨_, rfl⟩⟩⟩

/-- OUT_LEN, an output byte, RESULT and an input byte change in some step that does not assert reset. -/
theorem witness_results_change :
    observe (step (running (loaded k3 2 3 0) 2)) (fun t => (t.outLen, t.byteAt outBase)) = some (8, 0xEB) ∧
    ((running (loaded k3 2 3 0) 2).outLen, (running (loaded k3 2 3 0) 2).byteAt outBase) = (0, 0) ∧
    observe (step (running { k3 with arg := 91 } 0x704)) (fun t => t.result) = some 109 ∧
    observe (step (events (loaded k3 2 3 0) [.hostWrite 0x10000 4 9])) (fun t => t.byteAt inBase) = some 9 ∧
    Params.reference.ok = true := by decide +kernel

/-! #### CONFIGURE -/

/-- CFG-5 and CFG-6: the least and the largest K and N. -/
theorem witness_configure_legal :
    (∀ i, i < (1 : BitVec 6).toNat → 0 < ((staged 1 1 [1, 0, 0, 0]).cfgPolyAt i).toNat ∧
      ((staged 1 1 [1, 0, 0, 0]).cfgPolyAt i).toNat < 2 ^ (1 : BitVec 5).toNat) ∧
    (∀ i, i < (4 : BitVec 6).toNat → 0 < ((staged 9 4 [511, 256, 1, 300]).cfgPolyAt i).toNat ∧
      ((staged 9 4 [511, 256, 1, 300]).cfgPolyAt i).toNat < 2 ^ (9 : BitVec 5).toNat) ∧
    (9 : BitVec 5).toNat ≤ State.reset.params.kmax ∧ (4 : BitVec 6).toNat ≤ State.reset.params.nmax := by decide

/-- What comes before the check of N: K is legal. -/
def legalK (s : State) : Prop := s.cfgK.toNat ≠ 0 ∧ s.cfgK.toNat ≤ s.params.kmax

/-- CFG-E1, E2, E3, E4, E5 and E6: a state for each check, which passes the checks before it. -/
theorem witness_configure_errors :
    (staged 0 2 [7, 5, 0, 0]).cfgK.toNat = 0 ∧
    ((staged 10 2 [7, 5, 0, 0]).params.kmax < (staged 10 2 [7, 5, 0, 0]).cfgK.toNat ∧
      (staged 10 2 [7, 5, 0, 0]).cfgK.toNat ≠ 0) ∧
    (legalK (staged 3 0 [0, 0, 0, 0]) ∧ (staged 3 0 [0, 0, 0, 0]).cfgN.toNat = 0) ∧
    (legalK (staged 3 5 [7, 5, 0, 0]) ∧ (staged 3 5 [7, 5, 0, 0]).params.nmax < (staged 3 5 [7, 5, 0, 0]).cfgN.toNat ∧
      (staged 3 5 [7, 5, 0, 0]).cfgN.toNat ≠ 0) ∧
    (legalK (staged 3 2 [7, 0, 0, 0]) ∧ 1 < (staged 3 2 [7, 0, 0, 0]).cfgN.toNat ∧
      (staged 3 2 [7, 0, 0, 0]).cfgN.toNat ≤ (staged 3 2 [7, 0, 0, 0]).params.nmax ∧
      (∀ j, j < 1 → 0 < ((staged 3 2 [7, 0, 0, 0]).cfgPolyAt j).toNat ∧
        ((staged 3 2 [7, 0, 0, 0]).cfgPolyAt j).toNat < 2 ^ (staged 3 2 [7, 0, 0, 0]).cfgK.toNat) ∧
      ((staged 3 2 [7, 0, 0, 0]).cfgPolyAt 1).toNat = 0) ∧
    (legalK (staged 3 2 [8, 5, 0, 0]) ∧ 0 < (staged 3 2 [8, 5, 0, 0]).cfgN.toNat ∧
      (staged 3 2 [8, 5, 0, 0]).cfgN.toNat ≤ (staged 3 2 [8, 5, 0, 0]).params.nmax ∧
      2 ^ (staged 3 2 [8, 5, 0, 0]).cfgK.toNat ≤ ((staged 3 2 [8, 5, 0, 0]).cfgPolyAt 0).toNat) := by
  unfold legalK
  decide

/-- A failing CONFIGURE, a decoder without a configuration, and a step that gives one. -/
theorem witness_no_configuration :
    observe (exec (.configure true) k3) (fun t => t.status.code) = some .config ∧ State.reset.status.cfgValid = false ∧
    observe (step (running (staged 3 2 [7, 5, 0, 0]) 1)) (fun t => t.status.cfgValid) = some true := by decide +kernel

/-- The active configuration changes in some step, a write to CFG_K is a step, and a CONFIGURE succeeds in a step. -/
theorem witness_active_changes :
    (∃ s t : State, step s = .next t ∧ ¬SameActive s t) ∧
    (∃ s t : State, step s = .next t ∧ hostWrites s 0x20 5) ∧
    (∃ s t : State, step s = .next t ∧ runsCommand s (.configure false) ∧ t.status.code = .none) := by
  refine ⟨⟨running k3 1, _, rfl, fun h => ?_⟩, ⟨events k3 [.hostWrite 0x20 4 5], _, rfl, rfl⟩,
    ⟨running (staged 3 2 [7, 5, 0, 0]) 1, _, rfl, ⟨⟨rfl, rfl, .inl rfl⟩, by decide⟩, by decide⟩⟩
  have : (0 : BitVec 5) = 3 := h.actK
  revert this
  decide

/-! #### Bit utilities -/

theorem witness_widths : (0 : Nat) ≤ 32 ∧ (7 : Nat) ≤ 32 ∧ (32 : Nat) ≤ 32 ∧ (91 : Word).toNat < 2 ^ 7 ∧
    (0 : BitVec 6).toNat ≤ 32 ∧ (32 : BitVec 6).toNat ≤ 32 ∧ 32 < (33 : BitVec 6).toNat := by decide

theorem witness_register : (1 ≤ 1 ∧ 0 < 2 ^ (1 - 1)) ∧ (1 ≤ 3 ∧ 3 < 2 ^ (3 - 1)) ∧ (7 < 2 ^ 3 ∧ 5 < 2 ^ 3) := by decide

theorem witness_states :
    (1 ≤ ({ k := 1, polys := [1] } : Code).k ∧ 0 < ({ k := 1, polys := [1] } : Code).numStates) ∧
    (2 ≤ ({ k := 2, polys := [3, 2] } : Code).k ∧ 1 < ({ k := 2, polys := [3, 2] } : Code).numStates) ∧
    (2 ≤ k3.activeCode.k ∧ 3 < k3.activeCode.numStates) := by decide

/-! #### ENCODE -/

/-- ENC-1's lengths, and ENC-12's: 2046 message bits fill the output buffer exactly. -/
theorem witness_encode :
    (∀ len, len = 15 ∨ len = 2046 → (1 ≤ k3.actK.toNat ∧ len ≤ k3.params.inBits ∧
      k3.actN.toNat * (len + k3.actK.toNat - 1) ≤ k3.params.outBits)) ∧
    k3.params.ok = true ∧ k3.status.cfgValid = true := by
  refine ⟨?_, by decide, rfl⟩
  rintro len (rfl | rfl) <;> decide

/-- ENC-E1, ENC-E2 and ENC-E3: a state for each check, which passes the checks before it. -/
theorem witness_encode_errors :
    State.reset.status.cfgValid = false ∧
    (k3.status.cfgValid = true ∧ k3.params.inBits < ({ k3 with inLen := 4097 } : State).inLen.toNat) ∧
    (({ k3 with inLen := 2047 } : State).inLen.toNat ≤ k3.params.inBits ∧
      k3.params.outBits < k3.actN.toNat * (({ k3 with inLen := 2047 } : State).inLen.toNat + k3.actK.toNat - 1)) := by
  decide

/-- ENC-2 and ENC-4: the empty message, for K = 3 and K = 1. -/
theorem witness_empty_message :
    (k3.params.ok = true ∧ k3.status.cfgValid = true ∧ 1 ≤ k3.actK.toNat ∧ k3.inLen = 0 ∧
      k3.actN.toNat * (k3.actK.toNat - 1) ≤ k3.params.outBits) ∧
    ((configured 1 2 [1, 1, 0, 0]).status.cfgValid = true ∧ (configured 1 2 [1, 1, 0, 0]).actK.toNat = 1) := by decide

theorem witness_flush : 1 ≤ k3.activeCode.k ∧ [true, false].length = [false, true].length := by decide

/-! #### DECODE -/

/-- EX-2 and the shortest decode, DEC-11: T = K − 1. -/
theorem witness_decode :
    (∀ len, len = 34 ∨ len = 4 → (len ≤ k3.params.inBits ∧ len ≠ 0 ∧ 0 < len ∧ len % k3.actN.toNat = 0 ∧
      k3.actN.toNat ∣ len ∧ k3.actK.toNat - 1 ≤ len / k3.actN.toNat ∧ len / k3.actN.toNat ≤ k3.params.tmax ∧
      len / k3.actN.toNat - (k3.actK.toNat - 1) ≤ k3.params.outBits)) ∧
    k3.params.ok = true ∧ k3.status.cfgValid = true ∧ (loaded k3 34 0x7347E61C 3).Inv ∧ (loaded k3 4 0 0).Inv := by
  refine ⟨?_, by decide, rfl, inv_loaded _ _ _, inv_loaded _ _ _⟩
  rintro len (rfl | rfl) <;> decide

/-- DEC-E1, E6, E2, E3, E4, E5 and, with one output word, E8: a state for each check, which passes the checks before
it. -/
theorem witness_decode_errors :
    State.reset.status.cfgValid = false ∧
    (k3.status.cfgValid = true ∧ k3.params.inBits < (4097 : Word).toNat) ∧
    ((3 : Word).toNat ≤ k3.params.inBits ∧ ¬(0 < (3 : Word).toNat ∧ k3.actN.toNat ∣ (3 : Word).toNat)) ∧
    ((0 : Word).toNat ≤ k3.params.inBits ∧ ¬(0 < (0 : Word).toNat ∧ k3.actN.toNat ∣ (0 : Word).toNat)) ∧
    ((2 : Word).toNat ≤ k3.params.inBits ∧ (0 < (2 : Word).toNat ∧ k3.actN.toNat ∣ (2 : Word).toNat) ∧
      (2 : Word).toNat / k3.actN.toNat < k3.actK.toNat - 1) ∧
    ((2050 : Word).toNat ≤ k3.params.inBits ∧ (0 < (2050 : Word).toNat ∧ k3.actN.toNat ∣ (2050 : Word).toNat) ∧
      k3.actK.toNat - 1 ≤ (2050 : Word).toNat / k3.actN.toNat ∧ k3.params.tmax < (2050 : Word).toNat / k3.actN.toNat) ∧
    ((70 : Word).toNat ≤ k3.params.inBits ∧ (0 < (70 : Word).toNat ∧ k3.actN.toNat ∣ (70 : Word).toNat) ∧
      k3.actK.toNat - 1 ≤ (70 : Word).toNat / k3.actN.toNat ∧ (70 : Word).toNat / k3.actN.toNat ≤ k3.params.tmax ∧
      ({ k3.params with outWords := 1 } : Params).outBits < (70 : Word).toNat / k3.actN.toNat - (k3.actK.toNat - 1)) := by
  decide

/-- K = 3 with three steps: a state is below 2^2, a metric of the column is named, and the tail is not empty. -/
theorem witness_trellis :
    Params.reference.ok = true ∧ k3.activeCode.valid Params.reference = true ∧
    [[false, false], [true, true], [true, false]].length ≤ Params.reference.tmax ∧
    (3 : Nat) ∈ finalColumn k3.activeCode Params.reference.inf (initialColumn k3.activeCode Params.reference.inf)
      [[false, false], [true, true], [true, false]] ∧
    (3 < k3.activeCode.numStates ∧ 1 ≤ k3.activeCode.k) ∧
    (k3.activeCode.n ∣ (List.replicate 6 true).length ∧ k3.activeCode.k - 1 ≤ (List.replicate 6 true).length / 2 ∧
      (List.replicate 6 true).length / 2 - (k3.activeCode.k - 1) ≤ 1 ∧ 1 < (List.replicate 6 true).length / 2) ∧
    [true].length + (k3.activeCode.k - 1) = (List.replicate 6 true).length / k3.activeCode.n := by decide

/-- ENC-10 and back. -/
theorem witness_round_trip :
    ∃ s t s' : State, s.Inv ∧ s'.Inv ∧ s.status.cfgValid = true ∧ s'.status.cfgValid = true ∧ s'.params = s.params ∧
      s'.activeCode = s.activeCode ∧ s.inLen.toNat ≤ s.params.inBits ∧
      s.actN.toNat * (s.inLen.toNat + s.actK.toNat - 1) ≤ s.params.outBits ∧
      s.actN.toNat * (s.inLen.toNat + s.actK.toNat - 1) ≤ s.params.inBits ∧
      s.inLen.toNat + s.actK.toNat - 1 ≤ s.params.tmax ∧ exec .encode s = .next t ∧ s'.inLen = t.outLen ∧
      (∀ j, j < t.outLen.toNat → s'.inBit j = t.outBit j) ∧ ¬(s.actK.toNat = 1 ∧ s.inLen = 0) := by
  refine ⟨loaded k3 2 3 0, _, loaded k3 8 0xEB 0, inv_loaded _ _ _, inv_loaded _ _ _, rfl, rfl, rfl, by decide, by decide,
    by decide, by decide, by decide, rfl, by decide, ?_, by decide⟩
  decide +kernel

/-- ENC-4 and DEC-E3: for K = 1 the empty message encodes to nothing. -/
theorem witness_round_trip_exception :
    observe (exec .encode (configured 1 1 [1, 0, 0, 0])) (fun t => t.outLen) = some 0 ∧
    (configured 1 1 [1, 0, 0, 0]).actK.toNat = 1 ∧ (configured 1 1 [1, 0, 0, 0]).inLen = 0 ∧
    (configured 1 1 [1, 0, 0, 0]).activeCode.valid Params.reference = true := by decide

/-- ENC-5 with two bits flipped, and ENC-9's code with seven. -/
theorem witness_example_codes :
    (k3.activeCode = { k := 3, polys := [7, 5] } ∧ k3.activeCode.valid Params.reference = true ∧
      [false, false, true, false, true, true].length = k3.activeCode.n * ([true].length + k3.activeCode.k - 1) ∧
      [true].length + k3.activeCode.k - 1 ≤ Params.reference.tmax ∧
      hamming (k3.activeCode.encoded [true]) [false, false, true, false, true, true] ≤ 2) ∧
    (k7.activeCode = { k := 7, polys := [91, 117, 121] } ∧ k7.activeCode.valid Params.reference = true ∧
      (List.replicate 7 true ++ List.replicate 11 false).length = k7.activeCode.n * (0 + k7.activeCode.k - 1) ∧
      hamming (k7.activeCode.encoded []) (List.replicate 7 true ++ List.replicate 11 false) ≤ 7) := by decide +kernel

/-- DEC-8: ties in three of the four symbols' places give 0. -/
theorem witness_majority :
    ({ k := 1, polys := [1, 1] } : Code).valid Params.reference = true ∧
    ({ k := 1, polys := [1, 1] } : Code).n ∣ [true, false, false, true, true, true, false, false].length ∧
    [true, false, false, true, true, true, false, false].length / 2 ≤ Params.reference.tmax ∧
    ({ k := 1, polys := [1, 1] } : Code).decoded Params.reference.inf
      [true, false, false, true, true, true, false, false] = [false, false, true, false] := by decide

end Sys2Proof.Machine.Tests
end

section
/-!
PROOFS. The family `10_state.md`: what one step can do, with the event it serves (R20, R37), what a write to STATUS does
(R27), and that a command reads host-visible state only (R45).
-/

namespace Sys2Proof.Machine

/-! ### The state a step's event acts on -/

@[simp] theorem State.popped_params (s : State) : s.popped.params = s.params := rfl
@[simp] theorem State.popped_rst (s : State) : s.popped.rst = s.rst := rfl
@[simp] theorem State.popped_ie (s : State) : s.popped.ie = s.ie := rfl
@[simp] theorem State.popped_status (s : State) : s.popped.status = s.status := rfl
@[simp] theorem State.popped_cfgK (s : State) : s.popped.cfgK = s.cfgK := rfl
@[simp] theorem State.popped_cfgN (s : State) : s.popped.cfgN = s.cfgN := rfl
@[simp] theorem State.popped_cfgPoly (s : State) : s.popped.cfgPoly = s.cfgPoly := rfl
@[simp] theorem State.popped_inLen (s : State) : s.popped.inLen = s.inLen := rfl
@[simp] theorem State.popped_outLen (s : State) : s.popped.outLen = s.outLen := rfl
@[simp] theorem State.popped_arg (s : State) : s.popped.arg = s.arg := rfl
@[simp] theorem State.popped_result (s : State) : s.popped.result = s.result := rfl
@[simp] theorem State.popped_actK (s : State) : s.popped.actK = s.actK := rfl
@[simp] theorem State.popped_actN (s : State) : s.popped.actN = s.actN := rfl
@[simp] theorem State.popped_actPoly (s : State) : s.popped.actPoly = s.actPoly := rfl
@[simp] theorem State.popped_mem (s : State) : s.popped.mem = s.mem := rfl
@[simp] theorem State.popped_engine (s : State) : s.popped.engine = s.engine := rfl
@[simp] theorem State.popped_resets (s : State) : s.popped.resets = s.resets := rfl
@[simp] theorem State.popped_draws (s : State) : s.popped.draws = s.draws := rfl
@[simp] theorem State.popped_readData (s : State) : s.popped.readData = s.readData := rfl
@[simp] theorem State.popped_schedule (s : State) : s.popped.schedule = s.schedule.tail := rfl

theorem State.popped_of_nil {s : State} (h : s.schedule = []) : s.popped = s := by
  rw [State.popped, h, List.tail_nil, ← h]

/-- A step serves the schedule's head on the rest. -/
theorem step_of_head {s : State} {e : Event} (h : s.schedule.head? = some e) : step s = serve s.popped e := by
  obtain ⟨rest, hrest⟩ := List.head?_eq_some_iff.1 h
  rw [step_cons hrest, State.popped, hrest, List.tail_cons]

theorem step_of_hostReads {s : State} {off : Nat} (ha : admitted s off) (h : hostReads s off) :
    step s = .next (readOffset off s.popped) := by
  obtain ⟨hr, h4, hw⟩ := ha
  have hoff : admitOffset s.popped (s.params.base + off) 4 = .ok off := admitOffset_of hr h4 hw
  rw [step_of_head h]
  simp only [serve, hostRead, hoff]

theorem step_of_hostWrites {s : State} {off : Nat} {v : Word} (ha : admitted s off) (h : hostWrites s off v) :
    step s = .next (writeOffset off v s.popped) := by
  obtain ⟨hr, h4, hw⟩ := ha
  have hoff : admitOffset s.popped (s.params.base + off) 4 = .ok off := admitOffset_of hr h4 hw
  rw [step_of_head h]
  simp only [serve, hostWrite, hoff]

/-! ### Everything a step can do -/

/-- A step from `s` to `t`, by what it is: the engine's turn with nothing to run, with a command, or with an illegal word
(`30_encoding.md` R95, R104), an admitted host access (`20_memory.md` R61), or an edge of the reset input. -/
inductive StepCase (s : State) : State → Prop
  | idle (h : ¬engineRuns s) : StepCase s s.popped
  | command {t : State} (i : Instr) (h : runsCommand s i) (ht : exec i s.popped = .next t) : StepCase s t
  | illegalWord (e : DecodeError) (h : engineRuns s) (he : decodeWord s.engine.latched = .error e) :
      StepCase s (complete .command e.sub 0 s.popped)
  | hostRead (off : Nat) (ha : admitted s off) (h : hostReads s off) : StepCase s (readOffset off s.popped)
  | hostWrite (off : Nat) (v : Word) (ha : admitted s off) (h : hostWrites s off v) :
      StepCase s (writeOffset off v s.popped)
  | assertReset (h : assertsReset s) : StepCase s (assertReset s.popped)
  | releaseReset (h : s.schedule.head? = some .resetRelease) : StepCase s (releaseReset s.popped)

theorem stepCase_of_engineTurn {s t : State} (hs : s.schedule = [] ∨ s.schedule.head? = some .engineTurn)
    (h : engineTurn s.popped = .next t) : StepCase s t := by
  obtain ⟨hidle, rfl⟩ | ⟨hb, hr, ⟨i, hi, ht⟩ | ⟨e, he, rfl⟩⟩ := engineTurn_spec h
  · refine .idle fun ⟨hb, hr, _⟩ => ?_
    simp [hb, hr] at hidle
  · exact .command i ⟨⟨hb, hr, hs⟩, hi⟩ ht
  · exact .illegalWord e ⟨hb, hr, hs⟩ he

/-- The access that `admitOffset` lets through, in the terms the statements use. -/
theorem admitted_of_admitOffset {s : State} {addr size off : Nat} (h : admitOffset s.popped addr size = .ok off) :
    admitted s off ∧ addr = s.params.base + off ∧ size = 4 := by
  obtain ⟨hr, hbase, -, hsize, hoff, h4, hw⟩ := admitOffset_ok h
  simp only [State.popped_params, State.popped_rst] at hr hbase hoff
  exact ⟨⟨hr, h4, hw⟩, by omega, hsize⟩

/-- Every step is one of these cases. -/
theorem step_cases {s t : State} (h : step s = .next t) : StepCase s t := by
  cases hs : s.schedule with
  | nil =>
    rw [step_nil hs, ← State.popped_of_nil hs] at h
    exact stepCase_of_engineTurn (.inl hs) h
  | cons e rest =>
    have hhead : s.schedule.head? = some e := by rw [hs, List.head?_cons]
    rw [step_of_head hhead] at h
    obtain ⟨addr, size, off, rfl, hoff, rfl⟩ | ⟨addr, size, v, off, rfl, hoff, rfl⟩ | ⟨rfl, hturn⟩ | ⟨rfl, rfl⟩ |
      ⟨rfl, rfl⟩ := serve_spec h
    · obtain ⟨ha, rfl, rfl⟩ := admitted_of_admitOffset hoff
      exact .hostRead off ha hhead
    · obtain ⟨ha, rfl, rfl⟩ := admitted_of_admitOffset hoff
      exact .hostWrite off v ha hhead
    · exact stepCase_of_engineTurn (.inr hhead) hturn
    · exact .assertReset hhead
    · exact .releaseReset hhead

/-! ### What each case does to STATUS -/

/-! Only offset 0x18 is CMD and only 0x14 is STATUS (`20_memory.md` R62). -/

theorem fixedReg_cmd_or_status :
    ∀ off, off < 0x40 → (fixedReg off = .cmd → off = 0x18) ∧ (fixedReg off = .status → off = 0x14) := by
  decide

theorem regAt_array_ne {p : Params} {off : Nat} (h : 0x40 ≤ off) : regAt p off ≠ .cmd ∧ regAt p off ≠ .status := by
  rw [regAt, if_neg (by omega)]
  unfold slotReg
  split_ifs <;> simp

theorem regAt_cmd_or_status {p : Params} {off : Nat} :
    (regAt p off = .cmd → off = 0x18) ∧ (regAt p off = .status → off = 0x14) := by
  by_cases h : off < 0x40
  · rw [regAt, if_pos h]
    exact fixedReg_cmd_or_status off h
  · obtain ⟨hcmd, hstatus⟩ := regAt_array_ne (p := p) (by omega : 0x40 ≤ off)
    exact ⟨fun hr => absurd hr hcmd, fun hr => absurd hr hstatus⟩

theorem readOffset_status (off : Nat) (s : State) : (readOffset off s).status = s.status := by
  unfold readOffset
  split <;> rfl

/-- The three registers whose write reaches STATUS: a CMD write that is accepted, STATUS itself, and the rest. -/
theorem State.writeReg_status (s : State) (v : Word) (r : Reg) :
    (r = .cmd ∧ (s.writeReg v r).status = s.status.accepted) ∨
    (r = .status ∧ (s.writeReg v r).status = s.status.clearOnes v) ∨ (s.writeReg v r).status = s.status := by
  cases r with
  | cmd => exact .inl ⟨rfl, rfl⟩
  | status => exact .inr (.inl ⟨rfl, rfl⟩)
  | _ => exact .inr (.inr rfl)

/-- What a host write can do to STATUS: set OVR when it is discarded, be accepted at CMD, clear at STATUS. -/
theorem writeOffset_status_cases (off : Nat) (v : Word) (s : State) :
    (s.status.busy = true ∧ (regAt s.params off).locked = true ∧ (writeOffset off v s).status = s.status.overrun) ∨
    (s.status.busy = false ∧ off = 0x18 ∧ (writeOffset off v s).status = s.status.accepted) ∨
    (off = 0x14 ∧ (writeOffset off v s).status = s.status.clearOnes v) ∨
    (writeOffset off v s).status = s.status := by
  unfold writeOffset
  split
  · rename_i hlock
    simp only [Bool.and_eq_true] at hlock
    exact .inl ⟨hlock.1, hlock.2, rfl⟩
  · rename_i hfree
    obtain ⟨hr, h⟩ | ⟨hr, h⟩ | h := s.writeReg_status v (regAt s.params off)
    · rw [hr, Reg.locked, Bool.and_true, Bool.not_eq_true] at hfree
      exact .inr (.inl ⟨hfree, regAt_cmd_or_status.1 hr, h⟩)
    · exact .inr (.inr (.inl ⟨regAt_cmd_or_status.2 hr, h⟩))
    · exact .inr (.inr (.inr h))

/-- A command is a completion, after writes that leave OVR, and only CONFIGURE's touch CFG_VALID (R37). -/
theorem exec_status {i : Instr} {s t : State} (h : exec i s = .next t) :
    t.status.ovr = s.status.ovr ∧ ((∀ rev, i ≠ .configure rev) → t.status.cfgValid = s.status.cfgValid) := by
  cases i with
  | nop => rw [execNop_spec h]; simp
  | configure rev =>
    refine ⟨?_, fun hne => absurd rfl (hne rev)⟩
    obtain ⟨e, -, rfl⟩ | ⟨-, rfl⟩ := execConfigure_spec h <;> simp
  | encode => obtain ⟨e, -, rfl⟩ | ⟨-, rfl⟩ := execEncode_spec h <;> simp
  | decode => obtain ⟨e, -, rfl⟩ | ⟨-, rfl⟩ := execDecode_spec h <;> simp
  | revbits width => obtain ⟨-, rfl⟩ | ⟨-, rfl⟩ := execRevbits_spec h <;> simp

/-- R37's events: what each step does to STATUS. -/
theorem step_status_cases {s t : State} (h : step s = .next t) :
    t.status = s.status ∨ assertsReset s ∨
    (engineRuns s ∧ t.status.ovr = s.status.ovr ∧
      (t.status.cfgValid = s.status.cfgValid ∨ ∃ rev, runsCommand s (.configure rev))) ∨
    (s.status.busy = true ∧ (∃ off v, hostWrites s off v ∧ (regAt s.params off).locked = true) ∧
      t.status = s.status.overrun) ∨
    (s.status.busy = false ∧ (∃ w, hostWrites s 0x18 w) ∧ t.status = s.status.accepted) ∨
    (∃ v, hostWrites s 0x14 v ∧ t.status = s.status.clearOnes v) := by
  cases step_cases h with
  | idle => exact .inl rfl
  | command i hi ht =>
    obtain ⟨hovr, hcfg⟩ := exec_status ht
    refine .inr (.inr (.inl ⟨hi.1, hovr, ?_⟩))
    by_cases hconf : ∃ rev, i = .configure rev
    · obtain ⟨rev, rfl⟩ := hconf
      exact .inr ⟨rev, hi⟩
    · exact .inl (hcfg fun rev hrev => hconf ⟨rev, hrev⟩)
  | illegalWord e hruns => exact .inr (.inr (.inl ⟨hruns, rfl, .inl rfl⟩))
  | hostRead off => exact .inl (readOffset_status off s.popped)
  | hostWrite off v _ hwrite =>
    obtain ⟨hb, hlock, ht⟩ | ⟨hb, rfl, ht⟩ | ⟨rfl, ht⟩ | ht := writeOffset_status_cases off v s.popped
    · exact .inr (.inr (.inr (.inl ⟨hb, ⟨off, v, hwrite, hlock⟩, ht⟩)))
    · exact .inr (.inr (.inr (.inr (.inl ⟨hb, ⟨v, hwrite⟩, ht⟩))))
    · exact .inr (.inr (.inr (.inr (.inr ⟨v, hwrite, ht⟩))))
    · exact .inl ht
  | assertReset hreset => exact .inr (.inl hreset)
  | releaseReset => exact .inl rfl

/-- Settles O23: each flag's events, read off the six ways a step can treat STATUS. -/
theorem flagsChangeOnlyByTheirEvents : Obligations.FlagsChangeOnlyByTheirEvents := by
  intro s t h
  obtain ht | hreset | ⟨hruns, hovr, hcfg⟩ | ⟨hb, hlock, ht⟩ | ⟨hb, hcmd, ht⟩ | ⟨v, hw, ht⟩ := step_status_cases h
  · simp [ht]
  · simp [hreset]
  · obtain hcfg | hconf := hcfg
    · simp [hruns, hovr, hcfg]
    · simp [hruns, hovr, hconf]
  · refine ⟨?_, ?_, ?_, fun _ => .inl ⟨hb, hlock⟩, ?_⟩ <;> simp [ht]
  · simp [ht, hb, hcmd]
  · have hbit : (s.status.clearOnes v).ovr ≠ s.status.ovr → v.getLsbD 4 = true := by
      rw [Status.clearOnes_ovr]
      cases v.getLsbD 4 <;> simp
    refine ⟨?_, fun _ => .inr (.inr (.inl ⟨v, hw⟩)), ?_, fun hne => .inr (.inl ⟨v, hw, hbit (ht ▸ hne)⟩), ?_⟩ <;>
      simp [ht]

/-! ### Accesses to STATUS -/

theorem readOffset_at_status (s : State) : readOffset 0x14 s = { s with readData := s.regValue .status } := by
  simp [readOffset, regAt, fixedReg, Reg.volatile]

/-- A write to STATUS is R27's, busy or not. -/
theorem writeOffset_at_status (v : Word) (s : State) :
    writeOffset 0x14 v s = { s with status := s.status.clearOnes v } := by
  simp [writeOffset, regAt, fixedReg, Reg.locked, State.writeReg]

theorem admitted_status {s : State} (hr : s.rst = false) : admitted s 0x14 := ⟨hr, by decide, by decide⟩

/-- Clearing a flag by a one. -/
theorem and_not_eq_ite (flag one : Bool) : (flag && !one) = if one then false else flag := by
  cases one <;> simp

/-- Settles O19: a read of STATUS only returns its word, and a write is `clearOnes`. -/
theorem statusWriteClearsOnes : Obligations.StatusWriteClearsOnes := by
  refine ⟨fun s hr h => ?_, fun s v hr h => ⟨{ s.popped with status := s.status.clearOnes v }, ?_, ?_, ?_, ?_, rfl⟩⟩
  · rw [step_of_hostReads (admitted_status hr) h, readOffset_at_status]
    rfl
  · rw [step_of_hostWrites (admitted_status hr) h, writeOffset_at_status, State.popped_status]
  · exact and_not_eq_ite _ _
  · exact and_not_eq_ite _ _
  · exact and_not_eq_ite _ _

/-! ### Input bits when output bits are stored -/

/-- The input buffer's region ends where the output buffer's begins, 0x10000 bytes on. -/
theorem State.inBit_eq_outBit (s : State) {j : Nat} (h : 0x80000 ≤ j) : s.inBit j = s.outBit (j - 0x80000) := by
  have hbyte : inBase + j / 8 = outBase + (j - 0x80000) / 8 := by simp only [inBase, outBase]; omega
  have hbit : j % 8 = (j - 0x80000) % 8 := by omega
  rw [State.inBit_eq, State.outBit_eq, hbyte, hbit]

theorem State.inBit_storeOutBits (bits : List Bool) (s : State) {j : Nat} (h : j < 0x80000) :
    (s.storeOutBits bits).inBit j = s.inBit j := by
  have hbyte : inBase + j / 8 < outBase := by simp only [inBase, outBase]; omega
  rw [State.inBit_eq, State.inBit_eq, State.byteAt_storeOutBits_other _ _ _ (.inl hbyte)]

/-! ### A command's operands are host-visible -/

section
variable {s s' : State}

theorem SameVisible.inputBits (h : SameVisible s s') : s'.inputBits = s.inputBits := by
  rw [State.inputBits, State.inputBits, h.inLen]
  exact List.map_congr_left fun j hj => h.inBits j (List.mem_range.1 hj)

theorem SameVisible.cfgPolyAt (h : SameVisible s s') : s'.cfgPolyAt = s.cfgPolyAt :=
  funext fun i => by rw [State.cfgPolyAt, State.cfgPolyAt, h.cfgPoly]

theorem SameVisible.actPolyAt (h : SameVisible s s') : s'.actPolyAt = s.actPolyAt :=
  funext fun i => by rw [State.actPolyAt, State.actPolyAt, h.actPoly]

theorem SameVisible.activeCode (h : SameVisible s s') : s'.activeCode = s.activeCode := by
  simp only [State.activeCode, h.actK, h.actN, h.actPolyAt]

theorem SameVisible.configError (h : SameVisible s s') : configError s' = configError s := by
  simp only [Machine.configError, State.stagedPolys, h.params, h.cfgK, h.cfgN, h.cfgPolyAt]

theorem SameVisible.encodeError (h : SameVisible s s') : encodeError s' = encodeError s := by
  simp only [Machine.encodeError, h.status, h.params, h.inLen, h.activeCode]

theorem SameVisible.trellisSteps (h : SameVisible s s') : s'.trellisSteps = s.trellisSteps := by
  simp only [State.trellisSteps, h.inLen, h.actN]

theorem SameVisible.decodeError (h : SameVisible s s') : decodeError s' = decodeError s := by
  simp only [Machine.decodeError, h.status, h.params, h.inLen, h.trellisSteps, h.actK, h.actN]

/-! ### A command's writes keep two states alike -/

theorem SameVisible.complete (h : SameVisible s s') (code : ErrCode) (sub : BitVec 4) (idx : BitVec 5) :
    SameVisible (complete code sub idx s) (complete code sub idx s') :=
  { h with status := by simp only [complete_status, h.status] }

theorem SameVisible.withOutLen (h : SameVisible s s') (len : Word) :
    SameVisible { s with outLen := len } { s' with outLen := len } :=
  { h with outLen := rfl }

theorem SameVisible.withResult (h : SameVisible s s') {v v' : Word} (hv : v' = v) :
    SameVisible { s with result := v } { s' with result := v' } :=
  { h with result := hv }

theorem SameVisible.clearConfig (h : SameVisible s s') : SameVisible (clearConfig s) (clearConfig s') :=
  { h with
    status := by simp only [clearConfig_status, h.status]
    actK := rfl
    actN := rfl
    actPoly := by simp only [clearConfig_actPoly, h.params] }

theorem SameVisible.latchConfig (h : SameVisible s s') (rev : Bool) :
    SameVisible (latchConfig rev s) (latchConfig rev s') :=
  { h with
    status := by simp only [latchConfig_status, h.status]
    actK := h.cfgK
    actN := h.cfgN
    actPoly := by simp only [Machine.latchConfig, h.params, h.cfgK, h.cfgN, h.cfgPolyAt] }

theorem SameVisible.storeOutBits (h : SameVisible s s') (bits : List Bool) :
    SameVisible (s.storeOutBits bits) (s'.storeOutBits bits) := by
  have hout (j : Nat) : (s'.storeOutBits bits).outBit j = (s.storeOutBits bits).outBit j := by
    rw [State.outBit_storeOutBits, State.outBit_storeOutBits, h.outBits]
  have hin (j : Nat) (hj : j < (s.storeOutBits bits).inLen.toNat) :
      (s'.storeOutBits bits).inBit j = (s.storeOutBits bits).inBit j := by
    rw [State.storeOutBits_inLen] at hj
    by_cases hlow : j < 0x80000
    · rw [State.inBit_storeOutBits _ _ hlow, State.inBit_storeOutBits _ _ hlow, h.inBits j hj]
    · rw [State.inBit_eq_outBit _ (by omega), State.inBit_eq_outBit _ (by omega), hout]
  constructor
  case inBits => exact hin
  case outBits => exact hout
  all_goals simp [h.params, h.ie, h.status, h.cfgK, h.cfgN, h.cfgPoly, h.inLen, h.outLen, h.arg, h.result, h.actK,
    h.actN, h.actPoly]

/-! ### The commands -/

variable {t t' : State}

theorem SameVisible.execConfigure {rev : Bool} (h : SameVisible s s') (ht : execConfigure rev s = .next t)
    (ht' : execConfigure rev s' = .next t') : SameVisible t t' := by
  have herr := h.configError
  obtain ⟨e, he, rfl⟩ | ⟨he, rfl⟩ := execConfigure_spec ht <;>
    obtain ⟨e', he', rfl⟩ | ⟨he', rfl⟩ := execConfigure_spec ht' <;> rw [he, he'] at herr <;> cases herr
  · exact h.clearConfig.complete _ _ _
  · exact (h.latchConfig rev).complete _ _ _

theorem SameVisible.execEncode (h : SameVisible s s') (ht : execEncode s = .next t)
    (ht' : execEncode s' = .next t') : SameVisible t t' := by
  have herr := h.encodeError
  obtain ⟨e, he, rfl⟩ | ⟨he, rfl⟩ := execEncode_spec ht <;>
    obtain ⟨e', he', rfl⟩ | ⟨he', rfl⟩ := execEncode_spec ht' <;> rw [he, he'] at herr <;> cases herr
  · exact (h.withOutLen 0).complete _ _ _
  · rw [h.activeCode, h.inputBits, h.inLen]
    exact ((h.storeOutBits _).withOutLen _).complete _ _ _

theorem SameVisible.execDecode (h : SameVisible s s') (ht : execDecode s = .next t)
    (ht' : execDecode s' = .next t') : SameVisible t t' := by
  have herr := h.decodeError
  obtain ⟨e, he, rfl⟩ | ⟨he, rfl⟩ := execDecode_spec ht <;>
    obtain ⟨e', he', rfl⟩ | ⟨he', rfl⟩ := execDecode_spec ht' <;> rw [he, he'] at herr <;> cases herr
  · exact (h.withOutLen 0).complete _ _ _
  · rw [h.activeCode, h.inputBits, h.params, h.trellisSteps, h.actK]
    exact ((h.storeOutBits _).withOutLen _).complete _ _ _

theorem SameVisible.execRevbits {width : BitVec 6} (h : SameVisible s s') (ht : execRevbits width s = .next t)
    (ht' : execRevbits width s' = .next t') : SameVisible t t' := by
  obtain ⟨hw, rfl⟩ | ⟨hw, rfl⟩ := execRevbits_spec ht <;>
    obtain ⟨hw', rfl⟩ | ⟨hw', rfl⟩ := execRevbits_spec ht'
  · exact h.complete _ _ _
  · omega
  · omega
  · exact (h.withResult (by rw [h.arg])).complete _ _ _

end

/-- Settles O13: command by command, equal operands give equal checks and equal results. -/
theorem commandsReadNoHiddenState : Obligations.CommandsReadNoHiddenState := by
  intro i s s' t t' h ht ht'
  cases i with
  | nop =>
    rw [execNop_spec ht, execNop_spec ht']
    exact h.complete _ _ _
  | configure rev => exact h.execConfigure ht ht'
  | encode => exact h.execEncode ht ht'
  | decode => exact h.execDecode ht ht'
  | revbits width => exact h.execRevbits ht ht'

end Sys2Proof.Machine
end

section
/-!
PROOFS. The family `20_memory.md`: what a host write does at each offset (R67), and the reserved offsets (R63).
-/

namespace Sys2Proof.Machine

/-! ### Where the map's regions end (R62) -/

/-- The limits on the arrays' sizes: no array of the window reaches into the next region (`00_scope.md` R7). -/
theorem Params.ok_sizes {p : Params} (h : p.ok = true) :
    p.nmax ≤ 32 ∧ p.inWords ≤ 16384 ∧ p.outWords ≤ 16384 := by
  simp only [Params.ok, Bool.and_eq_true, decide_eq_true_eq] at h
  omega

theorem slotReg_of_lt (mk : Nat → Reg) {start count off : Nat} (hs : start ≤ off) (h : off < start + 4 * count) :
    slotReg mk start count off = mk ((off - start) / 4) :=
  if_pos (by omega)

theorem slotReg_of_le (mk : Nat → Reg) {start count off : Nat} (h : start + 4 * count ≤ off) :
    slotReg mk start count off = .reserved :=
  if_neg (by omega)

/-- A slot is in the locked set exactly below the array's end, when the array's registers are. -/
theorem slotReg_locked_iff {mk : Nat → Reg} {start count off : Nat} (hmk : ∀ i, (mk i).locked = true)
    (hs : start ≤ off) : (slotReg mk start count off).locked = true ↔ off < start + 4 * count := by
  by_cases h : off < start + 4 * count
  · simp [slotReg_of_lt mk hs h, hmk, h]
  · simp [slotReg_of_le mk (Nat.le_of_not_lt h), Reg.locked, h]

theorem slotReg_not_locked {mk : Nat → Reg} (start count off : Nat) (hmk : ∀ i, (mk i).locked = false) :
    (slotReg mk start count off).locked = false := by
  unfold slotReg
  split
  · exact hmk _
  · rfl

theorem fixedReg_locked_iff :
    ∀ off, off < 0x40 → ((fixedReg off).locked = true ↔
      off = 0x018 ∨ off = 0x020 ∨ off = 0x024 ∨ off = 0x028 ∨ off = 0x030) := by
  decide

/-- The locked set of R67, by offset. -/
theorem regAt_locked_iff {p : Params} (hp : p.ok = true) (off : Nat) :
    (regAt p off).locked = true ↔
      off = 0x018 ∨ off = 0x020 ∨ off = 0x024 ∨ (0x040 ≤ off ∧ off < 0x040 + 4 * p.nmax) ∨
      off = 0x028 ∨ off = 0x030 ∨ (0x10000 ≤ off ∧ off < 0x10000 + 4 * p.inWords) := by
  obtain ⟨hn, hi, -⟩ := Params.ok_sizes hp
  unfold regAt
  split_ifs with hfix hcfg hact hgap hin hout
  · rw [fixedReg_locked_iff off hfix]
    omega
  · rw [slotReg_locked_iff (fun _ => rfl) (by omega)]
    omega
  · exact iff_of_false (Bool.eq_false_iff.1 (slotReg_not_locked _ _ _ fun _ => rfl)) (by omega)
  · exact iff_of_false Bool.false_ne_true (by omega)
  · rw [slotReg_locked_iff (fun _ => rfl) (by unfold inBase; omega), inBase]
    omega
  · exact iff_of_false (Bool.eq_false_iff.1 (slotReg_not_locked _ _ _ fun _ => rfl)) (by omega)
  · exact iff_of_false Bool.false_ne_true (by omega)

theorem fixedReg_ctrl : ∀ off, off < 0x40 → fixedReg off = .ctrl → off = 0x10 := by
  decide

theorem regAt_ctrl {p : Params} {off : Nat} (h : regAt p off = .ctrl) : off = 0x10 := by
  by_cases hlow : off < 0x40
  · rw [regAt, if_pos hlow] at h
    exact fixedReg_ctrl off hlow h
  · rw [regAt, if_neg hlow] at h
    unfold slotReg at h
    split_ifs at h

/-- The reserved offsets of R62's map. -/
theorem regAt_reserved {p : Params} (hp : p.ok = true) {off : Nat}
    (h : off = 0x00C ∨ off = 0x01C ∨ (0x040 + 4 * p.nmax ≤ off ∧ off < 0x0C0) ∨
      (0x0C0 + 4 * p.nmax ≤ off ∧ off < 0x10000) ∨ (0x10000 + 4 * p.inWords ≤ off ∧ off < 0x20000) ∨
      0x20000 + 4 * p.outWords ≤ off) : regAt p off = .reserved := by
  obtain ⟨hn, hi, ho⟩ := Params.ok_sizes hp
  unfold regAt
  split_ifs with hfix hcfg hact hgap hin hout
  · obtain rfl | rfl : off = 0x00C ∨ off = 0x01C := by omega
    · rfl
    · rfl
  · exact slotReg_of_le _ (by omega)
  · exact slotReg_of_le _ (by omega)
  · rfl
  · exact slotReg_of_le _ (by unfold inBase; omega)
  · exact slotReg_of_le _ (by unfold outBase; omega)
  · rfl

/-! ### What a write does -/

/-- Outside the locked set only CTRL and STATUS take a write. -/
theorem State.writeReg_ignored (s : State) (v : Word) {r : Reg} (hl : r.locked = false) (hc : r ≠ .ctrl)
    (hs : r ≠ .status) : s.writeReg v r = s := by
  cases r with
  | ctrl => exact absurd rfl hc
  | status => exact absurd rfl hs
  | cmd | cfgK | cfgN | cfgPoly _ | inLen | arg | inBuf _ => cases hl
  | _ => rfl

theorem writeOffset_unlocked (v : Word) {off : Nat} {s : State} (hl : (regAt s.params off).locked = false) :
    writeOffset off v s = s.writeReg v (regAt s.params off) := by
  simp [writeOffset, hl]

/-- R67: a write to the locked set while BUSY = 1 only sets OVR. -/
theorem writeOffset_discarded (v : Word) {off : Nat} {s : State} (hb : s.status.busy = true)
    (hl : (regAt s.params off).locked = true) : writeOffset off v s = { s with status := s.status.overrun } := by
  simp [writeOffset, hb, hl]

/-- A write outside the locked set, CTRL and STATUS is ignored, busy or not. -/
theorem writeOffset_ignored (v : Word) {off : Nat} {s : State} (hl : (regAt s.params off).locked = false)
    (hc : off ≠ 0x10) (hs : off ≠ 0x14) : writeOffset off v s = s := by
  rw [writeOffset_unlocked v hl]
  exact s.writeReg_ignored v hl (fun h => hc (regAt_ctrl h)) fun h => hs (regAt_cmd_or_status.2 h)

/-- A write to CTRL sets IE, busy or not. -/
theorem writeOffset_at_ctrl (v : Word) (s : State) : writeOffset 0x10 v s = { s with ie := v.getLsbD 0 } :=
  writeOffset_unlocked v rfl

/-- Settles O20: `regAt_locked_iff` says which offsets are locked; of the others only CTRL and STATUS take a write. -/
theorem lockedWritesAreDiscarded : Obligations.LockedWritesAreDiscarded := by
  intro s off v hp ha hw
  have hstep := step_of_hostWrites ha hw
  have hlocked := regAt_locked_iff hp off
  obtain ⟨hn, hi, -⟩ := Params.ok_sizes hp
  refine ⟨fun hb hoff => ?_, fun hoff => ?_, fun hoff => ?_, fun hoff => ?_⟩
  · rw [hstep, writeOffset_discarded (s := s.popped) v hb (hlocked.2 hoff)]
    rfl
  · rw [hstep, hoff, writeOffset_at_ctrl]
  · rw [hstep, hoff, writeOffset_at_status]
    exact ⟨_, rfl, rfl, rfl, rfl⟩
  · have hfree : (regAt s.params off).locked = false := Bool.eq_false_iff.2 (mt hlocked.1 (by omega))
    rw [hstep, writeOffset_ignored (s := s.popped) v hfree (by omega) (by omega)]

/-! ### The reserved offsets -/

theorem readOffset_reserved {off : Nat} {s : State} (h : regAt s.params off = .reserved) :
    readOffset off s = { s with readData := 0 } := by
  simp [readOffset, h, Reg.volatile, State.regValue]

theorem writeOffset_reserved (v : Word) {off : Nat} {s : State} (h : regAt s.params off = .reserved) :
    writeOffset off v s = s := by
  rw [writeOffset_unlocked v (by rw [h]; rfl), h]
  rfl

/-- Settles O21: the offsets of the hypothesis are the map's reserved ones, which read 0 and take no write. -/
theorem reservedOffsetsAreInert : Obligations.ReservedOffsetsAreInert := by
  intro s off hp ha hoff
  have hreg : regAt s.params off = .reserved := regAt_reserved hp hoff
  refine ⟨fun hr => ?_, fun v hw => ?_⟩
  · rw [step_of_hostReads ha hr, readOffset_reserved (s := s.popped) hreg]
  · rw [step_of_hostWrites ha hw, writeOffset_reserved (s := s.popped) v hreg]

end Sys2Proof.Machine
end

section
/-!
PROOFS. The family `30_encoding.md`: the commands' words (R95, R96), what the engine does with a latched word (R104),
acceptance (R103) and completion (R105).
-/

namespace Sys2Proof

/-! ### Decoding inverts encoding -/

theorem decodeWord_encodeWord (i : Instr) : decodeWord (encodeWord i) = .ok i := by
  cases i with
  | nop => rfl
  | configure rev => cases rev <;> rfl
  | encode => rfl
  | decode => rfl
  | revbits width =>
    revert width
    decide

theorem encodeWord_injective : Function.Injective encodeWord := fun i j h =>
  Except.ok.inj ((decodeWord_encodeWord i).symm.trans (h ▸ decodeWord_encodeWord j))

/-- A word without reserved bits is packed from its fields. -/
theorem packWord_fields {w : Word} (hlow : reservedLow w = 0) (hhigh : reservedHigh w = 0) :
    packWord (widthField w) (revField w) (opField w) = w := by
  have hl : 0 = w.toNat / 32 % 8 := by rw [← reservedLow_toNat, hlow]; rfl
  have hh : 0 = w.toNat / 2 ^ 14 := by rw [← reservedHigh_toNat, hhigh]; rfl
  have hrev : (revField w).toNat = w.toNat / 16 % 2 := by
    rw [revField_eq]
    obtain h | h := Nat.mod_two_eq_zero_or_one (w.toNat / 16) <;> simp [h]
  apply BitVec.eq_of_toNat_eq
  rw [packWord_toNat, widthField_toNat, opField_toNat, hrev]
  omega

/-- The checks leave no bit of the word that its command's word does not have. -/
theorem encodeWord_of_decodeWord {w : Word} {i : Instr} (h : decodeWord w = .ok i) : encodeWord i = w := by
  unfold decodeWord at h
  split_ifs at h with hop hres hrev hwidth
  cases h
  obtain ⟨hlow, hhigh⟩ : reservedLow w = 0 ∧ reservedHigh w = 0 := by simpa using hres
  have hrev0 : opField w ≠ 1 → revField w = false := fun hne => Bool.eq_false_iff.2 fun h => hrev ⟨h, hne⟩
  have hwidth0 : opField w ≠ 4 → widthField w = 0 := fun hne => not_not.1 fun h => hwidth ⟨h, hne⟩
  refine Eq.trans ?_ (packWord_fields hlow hhigh)
  unfold selectCommand
  split_ifs with h0 h1 h2 h3
  · rw [h0, hrev0 (by simp [h0]), hwidth0 (by simp [h0]), encodeWord]
  · rw [h1, hwidth0 (by simp [h1]), encodeWord]
  · rw [h2, hrev0 (by simp [h2]), hwidth0 (by simp [h2]), encodeWord]
  · rw [h3, hrev0 (by simp [h3]), hwidth0 (by simp [h3]), encodeWord]
  · have h4 : opField w = 4 := by bv_omega
    rw [h4, hrev0 h1, encodeWord]

/-- A word decodes to a command exactly when it is that command's word. -/
theorem decodeWord_eq_ok_iff {w : Word} {i : Instr} : decodeWord w = .ok i ↔ w = encodeWord i :=
  ⟨fun h => (encodeWord_of_decodeWord h).symm, fun h => h ▸ decodeWord_encodeWord i⟩

theorem encodeWord_revbits (width : BitVec 6) :
    encodeWord (.revbits width) = 0x00000004 + 0x100 * width.setWidth 32 := by
  apply BitVec.eq_of_toNat_eq
  rw [encodeWord, packWord_toNat]
  simp
  omega

/-! ### The 38 legal words (R96) -/

theorem legalWord_encodeWord (i : Instr) : legalWord (encodeWord i) = i.wf := by
  rw [legalWord, decodeWord_encodeWord]

/-- The commands that have a legal word: five without WIDTH, and REVBITS of WIDTH 0 to 32. -/
def legalCommands : List Instr :=
  [.nop, .configure false, .configure true, .encode, .decode] ++
    (List.range 33).map fun n => .revbits (BitVec.ofNat 6 n)

theorem mem_legalCommands (i : Instr) : i ∈ legalCommands ↔ i.wf = true := by
  cases i with
  | nop => decide
  | configure rev => cases rev <;> decide
  | encode => decide
  | decode => decide
  | revbits width =>
    revert width
    decide

theorem legalWord_iff (w : Word) : legalWord w = true ↔ ∃ i : Instr, i.wf = true ∧ encodeWord i = w := by
  constructor
  · intro h
    unfold legalWord at h
    split at h
    · rename_i i hi
      exact ⟨i, h, encodeWord_of_decodeWord hi⟩
    · cases h
  · rintro ⟨i, hi, rfl⟩
    rw [legalWord_encodeWord, hi]

/-! ### The decoder's checks, read as numbers (R95) -/

theorem decodeWord_toNat (w : Word) : decodeWord w =
    if 5 ≤ w.toNat % 16 then .error .reservedOpcode
    else if w.toNat / 32 % 8 ≠ 0 ∨ w.toNat / 2 ^ 14 ≠ 0 then .error .reservedBits
    else if w.toNat / 16 % 2 = 1 ∧ w.toNat % 16 ≠ 1 then .error .revOutsideConfigure
    else if w.toNat / 256 % 64 ≠ 0 ∧ w.toNat % 16 ≠ 4 then .error .widthOutsideRevbits
    else .ok (selectCommand w) := by
  simp only [decodeWord, ne_eq, ← BitVec.toNat_inj, opField_toNat, reservedLow_toNat, reservedHigh_toNat,
    widthField_toNat, revField_eq, decide_eq_true_eq]
  rfl

theorem decodeWord_of_reservedOpcode {w : Word} (h : 5 ≤ w.toNat % 16) : decodeWord w = .error .reservedOpcode := by
  rw [decodeWord_toNat, if_pos h]

/-- The three checks of the other fields share sub-cause 2. -/
theorem decodeWord_of_reservedFields {w : Word} (hop : w.toNat % 16 < 5)
    (h : w.toNat / 32 % 8 ≠ 0 ∨ w.toNat / 2 ^ 14 ≠ 0 ∨ w.toNat / 16 % 2 = 1 ∧ w.toNat % 16 ≠ 1 ∨
      w.toNat / 256 % 64 ≠ 0 ∧ w.toNat % 16 ≠ 4) : ∃ e, decodeWord w = .error e ∧ e.sub = 2 := by
  rw [decodeWord_toNat, if_neg (by omega)]
  split_ifs with hres hrev hwidth
  · exact ⟨_, rfl, rfl⟩
  · exact ⟨_, rfl, rfl⟩
  · exact ⟨_, rfl, rfl⟩
  · omega

theorem decodeWord_of_checked {w : Word} (hop : w.toNat % 16 < 5) (hlow : w.toNat / 32 % 8 = 0)
    (hhigh : w.toNat / 2 ^ 14 = 0) (hrev : w.toNat / 16 % 2 = 1 → w.toNat % 16 = 1)
    (hwidth : w.toNat / 256 % 64 ≠ 0 → w.toNat % 16 = 4) : decodeWord w = .ok (selectCommand w) := by
  rw [decodeWord_toNat, if_neg (by omega), if_neg (by omega), if_neg (by omega), if_neg (by omega)]

theorem selectCommand_revbits {w : Word} (h : w.toNat % 16 = 4) : selectCommand w = .revbits (widthField w) := by
  have hop : opField w = 4 := BitVec.eq_of_toNat_eq ((opField_toNat w).trans h)
  simp [selectCommand, hop]

theorem selectCommand_wf {w : Word} (h : w.toNat / 256 % 64 ≤ 32) : (selectCommand w).wf = true := by
  unfold selectCommand
  split_ifs
  case neg => exact decide_eq_true (widthField_toNat w ▸ h)
  all_goals rfl

end Sys2Proof

namespace Sys2Proof.Machine

/-! ### The engine's turn (R104) -/

theorem step_of_engineRuns {s : State} (h : engineRuns s) : step s = executeLatched s.popped := by
  obtain ⟨hb, hr, hs⟩ := h
  have hturn : engineTurn s.popped = executeLatched s.popped := by simp [engineTurn, hb, hr]
  obtain hs | hs := hs
  · rw [step_nil hs, ← hturn, State.popped_of_nil hs]
  · exact (step_of_head hs).trans hturn

theorem step_of_runsCommand {s : State} {i : Instr} (h : runsCommand s i) : step s = exec i s.popped := by
  obtain ⟨hruns, hi⟩ := h
  simp only [step_of_engineRuns hruns, executeLatched, State.popped_engine, hi]

theorem step_of_illegalWord {s : State} {e : DecodeError} (h : engineRuns s)
    (he : decodeWord s.engine.latched = .error e) : step s = .next (complete .command e.sub 0 s.popped) := by
  simp only [step_of_engineRuns h, executeLatched, State.popped_engine, he, raise_eq]

theorem execRevbits_of_illegalWidth {width : BitVec 6} (h : 32 < width.toNat) (s : State) :
    execRevbits width s = .next (complete .command 3 0 s) :=
  if_pos h

/-! ### The frame of a completion (R105) -/

theorem complete_completed (code : ErrCode) (sub : BitVec 4) (idx : BitVec 5) (s : State) :
    Completed code sub idx (complete code sub idx s) := by
  constructor <;> rfl

theorem SameOperands.refl (s : State) : SameOperands s s := by
  constructor <;> rfl

theorem SameOperands.complete {s t : State} (h : SameOperands s t) (code : ErrCode) (sub : BitVec 4)
    (idx : BitVec 5) : SameOperands s (complete code sub idx t) :=
  { h with }

theorem SameActive.popped (s : State) : SameActive s s.popped := by
  constructor <;> rfl

theorem SameActive.complete {s t : State} (h : SameActive s t) (code : ErrCode) (sub : BitVec 4)
    (idx : BitVec 5) : SameActive s (complete code sub idx t) :=
  { h with }

/-! ### The opcode map (R96) -/

/-- Settles O2: decoding inverts encoding, so the legal words are the words of `legalCommands`, each once. -/
theorem legalWordsAreTheOpcodeMap : Obligations.LegalWordsAreTheOpcodeMap := by
  refine ⟨fun w => decodeWord_eq_ok_iff, fun w rev => ?_, fun w => decodeWord_eq_ok_iff,
    fun w => decodeWord_eq_ok_iff, fun w width _ => ?_, fun i => ?_, ?_, fun s hs hop => ?_⟩
  · rw [decodeWord_eq_ok_iff]
    cases rev <;> rfl
  · rw [decodeWord_eq_ok_iff, encodeWord_revbits]
  · rw [legalWord_encodeWord]
    cases i <;> simp [Instr.wf]
  · refine ⟨legalCommands.map encodeWord, rfl, List.Nodup.map encodeWord_injective (by decide), fun w => ?_⟩
    simp only [List.mem_map, mem_legalCommands, legalWord_iff]
  · exact ⟨_, step_of_illegalWord hs (decodeWord_of_reservedOpcode hop), complete_completed _ _ _ _⟩

/-! ### Illegal words (R95) -/

/-- A step that only completes with Error(5, sub, 0) changes nothing else. -/
theorem step_frame_of_onlyCompletes {s : State} {sub : BitVec 4}
    (h : step s = .next (complete .command sub 0 s.popped)) :
    ∃ t, step s = .next t ∧ Completed .command sub 0 t ∧ SameOperands s.popped t ∧ SameActive s t ∧ SameBytes s t ∧
      SameResults s t :=
  ⟨_, h, complete_completed _ _ _ _, (SameOperands.refl _).complete _ _ _, (SameActive.popped s).complete _ _ _,
    fun _ => rfl, ⟨rfl, rfl⟩⟩

/-- Settles O4: the decoder's checks read as numbers, in R95's order; the last is REVBITS' own. -/
theorem illegalWordsOnlyComplete : Obligations.IllegalWordsOnlyComplete := by
  intro s sub hs
  refine ⟨fun h => step_frame_of_onlyCompletes ?_, fun hop hlow hhigh hrev hwidth hlegal => ?_⟩
  · obtain ⟨hop, rfl⟩ | ⟨hop, hbad, rfl⟩ | ⟨hop, hlow, hhigh, hrev, hwidth, rfl⟩ := h
    · exact step_of_illegalWord hs (decodeWord_of_reservedOpcode hop)
    · obtain ⟨e, he, hsub⟩ := decodeWord_of_reservedFields hop hbad
      rw [step_of_illegalWord hs he, hsub]
    · have hdec := decodeWord_of_checked (by omega) hlow hhigh (by omega) fun _ => hop
      rw [selectCommand_revbits hop] at hdec
      rw [step_of_runsCommand ⟨hs, hdec⟩]
      exact execRevbits_of_illegalWidth (widthField_toNat _ ▸ hwidth) _
  · have hdec := decodeWord_of_checked hop hlow hhigh hrev hwidth
    exact ⟨_, selectCommand_wf hlegal, hdec, step_of_runsCommand ⟨hs, hdec⟩⟩

/-! ### Writes to CMD (R103) -/

theorem admitted_cmd {s : State} (hr : s.rst = false) : admitted s 0x18 := ⟨hr, by decide, by decide⟩

theorem writeOffset_at_cmd (w : Word) {s : State} (hb : s.status.busy = false) :
    writeOffset 0x18 w s = accept w s := by
  rw [writeOffset, hb, Bool.false_and, if_neg Bool.false_ne_true]
  rfl

theorem SameOperands.accept {s t : State} (h : SameOperands s t) (w : Word) : SameOperands s (accept w t) :=
  { h with }

theorem SameActive.accept {s t : State} (h : SameActive s t) (w : Word) : SameActive s (accept w t) :=
  { h with }

/-- Settles O9: idle, the write is `accept`; busy, CMD is in the locked set. -/
theorem cmdWriteIsAcceptedWhenIdle : Obligations.CmdWriteIsAcceptedWhenIdle := by
  intro s w hr hw
  have hstep := step_of_hostWrites (admitted_cmd hr) hw
  refine ⟨fun hb => ?_, fun hb => ?_⟩
  · rw [writeOffset_at_cmd (s := s.popped) w hb] at hstep
    exact ⟨_, hstep, rfl, rfl, rfl, rfl, rfl, rfl, rfl, (SameOperands.refl _).accept w,
      (SameActive.popped s).accept w, fun _ => rfl, ⟨rfl, rfl⟩, rfl⟩
  · rw [hstep, writeOffset_discarded (s := s.popped) w hb rfl]
    rfl

/-! ### What a command writes before it completes (R105, `20_memory.md` R75) -/

theorem clearConfig_sameOperands (s : State) : SameOperands s (clearConfig s) := by
  constructor <;> rfl

theorem latchConfig_sameOperands (rev : Bool) (s : State) : SameOperands s (latchConfig rev s) := by
  constructor <;> rfl

theorem storeOutBits_sameOperands (bits : List Bool) (s : State) : SameOperands s (s.storeOutBits bits) := by
  constructor <;> simp

theorem SameOperands.withOutLen {s t : State} (h : SameOperands s t) (len : Word) :
    SameOperands s { t with outLen := len } :=
  { h with }

theorem SameOperands.withResult {s t : State} (h : SameOperands s t) (v : Word) :
    SameOperands s { t with result := v } :=
  { h with }

theorem exec_next (i : Instr) (s : State) : ∃ t, exec i s = .next t := by
  cases i with
  | nop => exact ⟨_, rfl⟩
  | configure rev =>
    simp only [exec, execConfigure]
    split <;> exact ⟨_, rfl⟩
  | encode =>
    simp only [exec, execEncode]
    split <;> exact ⟨_, rfl⟩
  | decode =>
    simp only [exec, execDecode]
    split <;> exact ⟨_, rfl⟩
  | revbits width =>
    simp only [exec, execRevbits]
    split <;> exact ⟨_, rfl⟩

/-- A command completes a state in which it has left its operands and every byte below the output buffer. -/
theorem exec_completes {i : Instr} {s t : State} (h : exec i s = .next t) :
    ∃ m code sub idx, t = complete code sub idx m ∧ (code = .none → sub = 0 ∧ idx = 0) ∧ SameOperands s m ∧
      ∀ a, a < outBase → m.byteAt a = s.byteAt a := by
  cases i with
  | nop => exact ⟨s, .none, 0, 0, execNop_spec h, fun _ => ⟨rfl, rfl⟩, .refl s, fun _ _ => rfl⟩
  | configure rev =>
    obtain ⟨e, -, rfl⟩ | ⟨-, rfl⟩ := execConfigure_spec h
    · exact ⟨_, _, _, _, rfl, nofun, clearConfig_sameOperands s, fun _ _ => rfl⟩
    · exact ⟨_, _, _, _, rfl, fun _ => ⟨rfl, rfl⟩, latchConfig_sameOperands rev s, fun _ _ => rfl⟩
  | encode =>
    obtain ⟨e, he, rfl⟩ | ⟨-, rfl⟩ := execEncode_spec h
    · refine ⟨_, _, _, _, rfl, fun hnone => ?_, (SameOperands.refl s).withOutLen 0, fun _ _ => rfl⟩
      obtain rfl | rfl | rfl := encodeError_some he <;> cases hnone
    · exact ⟨_, _, _, _, rfl, fun _ => ⟨rfl, rfl⟩, (storeOutBits_sameOperands _ s).withOutLen _,
        fun a ha => State.byteAt_storeOutBits_other _ s a (.inl ha)⟩
  | decode =>
    obtain ⟨e, he, rfl⟩ | ⟨-, rfl⟩ := execDecode_spec h
    · refine ⟨_, _, _, _, rfl, fun hnone => ?_, (SameOperands.refl s).withOutLen 0, fun _ _ => rfl⟩
      obtain rfl | rfl | rfl | rfl | rfl | rfl := decodeError_some he <;> cases hnone
    · exact ⟨_, _, _, _, rfl, fun _ => ⟨rfl, rfl⟩, (storeOutBits_sameOperands _ s).withOutLen _,
        fun a ha => State.byteAt_storeOutBits_other _ s a (.inl ha)⟩
  | revbits width =>
    obtain ⟨-, rfl⟩ | ⟨-, rfl⟩ := execRevbits_spec h
    · exact ⟨_, _, _, _, rfl, nofun, .refl s, fun _ _ => rfl⟩
    · exact ⟨_, _, _, _, rfl, fun _ => ⟨rfl, rfl⟩, (SameOperands.refl s).withResult _, fun _ _ => rfl⟩

/-- Settles O10: `exec` always answers a next state, and `exec_completes` says what it is. -/
theorem everyCommandCompletes : Obligations.EveryCommandCompletes := by
  intro i s
  obtain ⟨t, ht⟩ := exec_next i s
  obtain ⟨m, code, sub, idx, rfl, hnone, hops, hbytes⟩ := exec_completes ht
  exact ⟨_, code, sub, idx, ht, complete_completed _ _ _ _, hnone, hops.complete _ _ _, hbytes⟩

end Sys2Proof.Machine
end

section
/-!
PROOFS. The family `40_configuration.md`: what CONFIGURE leaves (R120, R123), that no other command and no host access
touches the active configuration (R125), and NOP (R126).
-/

namespace Sys2Proof.Machine

/-! ### What leaves the active configuration -/

theorem SameActive.refl (s : State) : SameActive s s := by
  constructor <;> rfl

theorem SameActive.withOutLen {s t : State} (h : SameActive s t) (len : Word) :
    SameActive s { t with outLen := len } :=
  { h with }

theorem SameActive.withResult {s t : State} (h : SameActive s t) (v : Word) :
    SameActive s { t with result := v } :=
  { h with }

theorem storeOutBits_sameActive (bits : List Bool) (s : State) : SameActive s (s.storeOutBits bits) := by
  constructor <;> simp

theorem releaseReset_sameActive (s : State) : SameActive s (releaseReset s) := by
  constructor <;> rfl

theorem readOffset_sameActive (off : Nat) (s : State) : SameActive s (readOffset off s) := by
  unfold readOffset
  split <;> constructor <;> rfl

theorem State.writeReg_sameActive (s : State) (v : Word) (r : Reg) : SameActive s (s.writeReg v r) := by
  cases r <;> constructor <;> rfl

/-- A discarded write sets OVR only; any other is `writeReg`, which has no case for an active register. -/
theorem writeOffset_sameActive (off : Nat) (v : Word) (s : State) : SameActive s (writeOffset off v s) := by
  unfold writeOffset
  split
  · constructor <;> rfl
  · exact s.writeReg_sameActive v _

theorem exec_sameActive {i : Instr} {s t : State} (h : exec i s = .next t) (hi : ∀ rev, i ≠ .configure rev) :
    SameActive s t := by
  cases i with
  | nop =>
    rw [execNop_spec h]
    exact (SameActive.refl s).complete _ _ _
  | configure rev => exact absurd rfl (hi rev)
  | encode =>
    obtain ⟨e, -, rfl⟩ | ⟨-, rfl⟩ := execEncode_spec h
    · exact ((SameActive.refl s).withOutLen 0).complete _ _ _
    · exact ((storeOutBits_sameActive _ s).withOutLen _).complete _ _ _
  | decode =>
    obtain ⟨e, -, rfl⟩ | ⟨-, rfl⟩ := execDecode_spec h
    · exact ((SameActive.refl s).withOutLen 0).complete _ _ _
    · exact ((storeOutBits_sameActive _ s).withOutLen _).complete _ _ _
  | revbits width =>
    obtain ⟨-, rfl⟩ | ⟨-, rfl⟩ := execRevbits_spec h
    · exact (SameActive.refl s).complete _ _ _
    · exact ((SameActive.refl s).withResult _).complete _ _ _

theorem SameActive.of_popped {s t : State} (h : SameActive s.popped t) : SameActive s t :=
  { h with }

/-- R125: a step leaves the active configuration, or runs CONFIGURE, or asserts reset. -/
theorem step_active_cases {s t : State} (h : step s = .next t) :
    SameActive s t ∨ (∃ rev, runsCommand s (.configure rev)) ∨ assertsReset s := by
  cases step_cases h with
  | idle => exact .inl (.popped s)
  | command i hi ht =>
    by_cases hconf : ∃ rev, i = .configure rev
    · obtain ⟨rev, rfl⟩ := hconf
      exact .inr (.inl ⟨rev, hi⟩)
    · exact .inl (exec_sameActive ht fun rev hrev => hconf ⟨rev, hrev⟩).of_popped
  | illegalWord e => exact .inl ((SameActive.popped s).complete _ _ _)
  | hostRead off => exact .inl (readOffset_sameActive off s.popped).of_popped
  | hostWrite off v => exact .inl (writeOffset_sameActive off v s.popped).of_popped
  | assertReset hreset => exact .inr (.inr hreset)
  | releaseReset => exact .inl (releaseReset_sameActive s.popped).of_popped

/-! ### A host write is the host's step alone -/

theorem not_engineRuns_of_hostWrites {s : State} {off : Nat} {v : Word} (h : hostWrites s off v) : ¬engineRuns s := by
  rintro ⟨-, -, hs | hs⟩ <;> simp [hostWrites, hs] at h

theorem not_assertsReset_of_hostWrites {s : State} {off : Nat} {v : Word} (h : hostWrites s off v) :
    ¬assertsReset s := by
  rw [hostWrites] at h
  simp [assertsReset, h]

/-! ### What CONFIGURE and reset leave -/

theorem noConfig_clearConfig (code : ErrCode) (sub : BitVec 4) (idx : BitVec 5) (s : State) :
    NoConfig (complete code sub idx (clearConfig s)) := by
  constructor <;> rfl

/-- CONFIGURE by its completion code: with an error no configuration is left, else the staged one is latched. -/
theorem exec_configure_cases {rev : Bool} {s t : State} (h : exec (.configure rev) s = .next t) :
    (t.status.code ≠ .none ∧ NoConfig t) ∨ (t.status.code = .none ∧ t = complete .none 0 0 (latchConfig rev s)) := by
  obtain ⟨e, -, rfl⟩ | ⟨-, rfl⟩ := execConfigure_spec h
  · exact .inl ⟨nofun, noConfig_clearConfig _ _ _ s⟩
  · exact .inr ⟨rfl, rfl⟩

theorem step_cfgValid_of_assertsReset {s t : State} (h : step s = .next t) (hreset : assertsReset s) :
    t.status.cfgValid = false := by
  rw [step_of_head hreset] at h
  cases h
  rfl

/-! ### ENCODE and DECODE without a configuration: the first check of R160 and of R190 -/

theorem execEncode_of_noConfig {s : State} (h : s.status.cfgValid = false) :
    execEncode s = .next (complete .config 7 0 { s with outLen := 0 }) := by
  have herr : encodeError s = some (.config, 7) := if_pos h
  simp only [execEncode, herr, raise_eq]

theorem execDecode_of_noConfig {s : State} (h : s.status.cfgValid = false) :
    execDecode s = .next (complete .config 7 0 { s with outLen := 0 }) := by
  have herr : decodeError s = some (.config, 7) := if_pos h
  simp only [execDecode, herr, raise_eq]

theorem exec_of_noConfig {i : Instr} {s : State} (hi : i = .encode ∨ i = .decode) (h : s.status.cfgValid = false) :
    exec i s = .next (complete .config 7 0 { s with outLen := 0 }) := by
  obtain rfl | rfl := hi
  · exact execEncode_of_noConfig h
  · exact execDecode_of_noConfig h

/-! ### The statements -/

/-- Settles O29: of the steps that can change CFG_VALID, reset and a failing CONFIGURE leave it 0. -/
theorem failedConfigureLeavesNoConfiguration : Obligations.FailedConfigureLeavesNoConfiguration := by
  refine ⟨fun rev s t h hcode => ?_, fun i s hi hcfg => ?_, fun s t h h0 h1 => ?_⟩
  · obtain ⟨-, hno⟩ | ⟨hnone, -⟩ := exec_configure_cases h
    · exact hno
    · exact absurd hnone hcode
  · exact ⟨_, exec_of_noConfig hi hcfg, complete_completed _ _ _ _, rfl, hcfg, fun _ => rfl⟩
  · obtain hsame | ⟨rev, hruns⟩ | hreset := step_active_cases h
    · simp [hsame.cfgValid, h0] at h1
    · rw [step_of_runsCommand hruns] at h
      obtain ⟨-, hno⟩ | ⟨hnone, -⟩ := exec_configure_cases h
      · simp [hno.cfgValid] at h1
      · exact ⟨rev, hruns, hnone⟩
    · simp [step_cfgValid_of_assertsReset h hreset] at h1

/-- Settles O30, by `step_active_cases`, and by what a successful CONFIGURE latches. -/
theorem activeConfigurationChangesOnlyByConfigure : Obligations.ActiveConfigurationChangesOnlyByConfigure := by
  intro s t h
  refine ⟨(step_active_cases h).resolve_left, fun off v hw => ?_, fun rev hruns hcode => ?_⟩
  · obtain hsame | ⟨rev, hruns, -⟩ | hreset := step_active_cases h
    · exact hsame
    · exact absurd hruns (not_engineRuns_of_hostWrites hw)
    · exact absurd hreset (not_assertsReset_of_hostWrites hw)
  · rw [step_of_runsCommand hruns] at h
    obtain ⟨herr, -⟩ | ⟨-, rfl⟩ := exec_configure_cases h
    · exact absurd hcode herr
    · exact ⟨rfl, rfl, rfl, rfl⟩

/-- Settles O31: word 0 is NOP's word, and NOP is the completion alone. -/
theorem nopOnlyCompletes : Obligations.NopOnlyCompletes :=
  ⟨fun _ => decodeWord_eq_ok_iff, fun s => ⟨complete .none 0 0 s, rfl, complete_completed _ _ _ _,
    (SameOperands.refl s).complete _ _ _, (SameActive.refl s).complete _ _ _, ⟨rfl, rfl⟩, fun _ => rfl⟩⟩

end Sys2Proof.Machine
end

section
/-!
PROOFS. The family `41_bit_utilities.md`: ReverseBits bit by bit and twice (R140, R142), REVBITS (R141), the tap as a
modulo-2 sum (R144), and the predecessors of a trellis state (R146).
-/

namespace Sys2Proof.Machine

/-! ### ReverseBits (R140, R142) -/

theorem reverseBits_congr {width : Nat} {u v : Word} (hw : width ≤ 32)
    (h : ∀ i, i < width → u.getLsbD i = v.getLsbD i) : reverseBits width u = reverseBits width v := by
  apply BitVec.eq_of_getLsbD_eq
  intro j _
  rw [getLsbD_reverseBits _ _ _ hw, getLsbD_reverseBits _ _ _ hw]
  by_cases hj : j < width
  · rw [h (width - 1 - j) (by omega)]
  · simp [hj]

/-- Settles O32: each part is `getLsbD_reverseBits` read at one kind of position. -/
theorem reverseBitsMovesEachBit : Obligations.ReverseBitsMovesEachBit := by
  intro width v hw
  have hbit := getLsbD_reverseBits width v (h := hw)
  refine ⟨fun i hi => ?_, fun i hi => ?_, fun _ hu => reverseBits_congr hw hu, rfl⟩
  · simp [hbit, hi]
  · simp [hbit, Nat.not_lt.2 hi]

theorem getLsbD_reverseBits_twice {width : Nat} (v : Word) (j : Nat) (hw : width ≤ 32) :
    (reverseBits width (reverseBits width v)).getLsbD j = (decide (j < width) && v.getLsbD j) := by
  rw [getLsbD_reverseBits _ _ _ hw, getLsbD_reverseBits _ _ _ hw]
  by_cases hj : j < width
  · have hback : width - 1 - (width - 1 - j) = j := by omega
    have hin : width - 1 - j < width := by omega
    simp [hback, hin]
  · simp [hj]

theorem reverseBits_twice_toNat {width : Nat} (v : Word) (hw : width ≤ 32) :
    (reverseBits width (reverseBits width v)).toNat = v.toNat % 2 ^ width := by
  apply Nat.eq_of_testBit_eq
  intro j
  rw [Nat.testBit_mod_two_pow, BitVec.testBit_toNat, BitVec.testBit_toNat, getLsbD_reverseBits_twice v j hw]

/-- Settles O33, by `reverseBits_twice_toNat`. -/
theorem reverseBitsIsAnInvolution : Obligations.ReverseBitsIsAnInvolution := by
  intro width p hw
  have htwice := reverseBits_twice_toNat p hw
  exact ⟨htwice, fun hp => BitVec.eq_of_toNat_eq (htwice.trans (Nat.mod_eq_of_lt hp))⟩

/-! ### REVBITS (R141) -/

theorem execRevbits_of_legalWidth {width : BitVec 6} (h : width.toNat ≤ 32) (s : State) :
    execRevbits width s = .next (complete .none 0 0 { s with result := reverseBits width.toNat s.arg }) :=
  if_neg (Nat.not_lt.2 h)

/-- Settles O34: either way REVBITS is a completion, of the state with RESULT written or of the state it found. -/
theorem revbitsWritesTheResult : Obligations.RevbitsWritesTheResult := by
  refine ⟨encodeWord_revbits, fun width s hw => ?_, fun width s hw => ?_⟩
  · exact ⟨_, execRevbits_of_legalWidth hw s, complete_completed _ _ _ _, rfl,
      fun j => getLsbD_reverseBits _ _ j hw, ((SameOperands.refl s).withResult _).complete _ _ _,
      ((SameActive.refl s).withResult _).complete _ _ _, rfl, fun _ => rfl⟩
  · exact ⟨_, execRevbits_of_illegalWidth hw s, complete_completed _ _ _ _, ⟨rfl, rfl⟩,
      (SameOperands.refl s).complete _ _ _, (SameActive.refl s).complete _ _ _, fun _ => rfl⟩

/-! ### The tap (R144) -/

/-- The XOR of a bit list is 1 exactly when an odd number of its bits are 1. -/
theorem xorBits_eq_countP (bits : List Bool) : xorBits bits = decide (bits.countP id % 2 = 1) := by
  induction bits with
  | nil => rfl
  | cons b rest ih =>
    cases b with
    | false => simp [xorBits, ih]
    | true =>
      rw [xorBits, ih, List.countP_cons_of_pos rfl, Bool.true_xor, ← decide_not]
      exact decide_eq_decide.2 (by omega)

/-- Settles O36: the tap is the XOR of the masked register's bits, which counts them modulo 2. -/
theorem tapIsTheParityOfTheMaskedRegister : Obligations.TapIsTheParityOfTheMaskedRegister := by
  intro k r p _ _
  rw [tap, parity_eq, xorBits_eq_countP, List.countP_map]
  rfl

/-! ### The predecessors of a state (R146) -/

/-- With `half` the half of the number of states: shifting `b` into state `p` gives `s` exactly when `b` is the low bit
of `s`, and `p` is the rest of `s` with either value of the bit that is shifted out. -/
theorem shift_in_mod_eq_iff {half p s : Nat} (b : Bool) (hp : p < 2 * half) (hs : s < 2 * half) :
    (2 * p + b.toNat) % (2 * half) = s ↔ (p = s / 2 ∨ p = s / 2 + half) ∧ b = decide (s % 2 = 1) := by
  have hb : b = decide (s % 2 = 1) ↔ b.toNat = s % 2 := by
    obtain h | h := Nat.mod_two_eq_zero_or_one s <;> cases b <;> simp [h]
  have hb1 : b.toNat ≤ 1 := b.toNat_le
  rw [hb]
  by_cases hlow : p < half
  · rw [Nat.mod_eq_of_lt (by omega)]
    omega
  · rw [Nat.mod_eq_sub_mod (by omega), Nat.mod_eq_of_lt (by omega)]
    omega

theorem Code.numStates_eq_two_mul {c : Code} (hk : 2 ≤ c.k) : c.numStates = 2 * 2 ^ (c.k - 2) := by
  rw [Code.numStates, ← pow_succ']
  congr 1
  omega

/-- Settles O37, by `Code.next_eq`, and from K = 2 on by `shift_in_mod_eq_iff`. -/
theorem nextStateAndItsPredecessors : Obligations.NextStateAndItsPredecessors := by
  intro c _
  refine ⟨c.next_eq, fun h1 => ?_, fun s h2 hs => ?_⟩
  · have hone : c.numStates = 1 := by simp [Code.numStates, h1]
    exact ⟨hone, fun s b => Nat.lt_one_iff.1 (hone ▸ c.next_lt s b), by rw [h1]; rfl⟩
  · have hnum := Code.numStates_eq_two_mul h2
    rw [hnum] at hs ⊢
    refine ⟨fun p b hp => ?_, by omega, by omega⟩
    have hnext : c.next p b = (2 * p + b.toNat) % (2 * 2 ^ (c.k - 2)) := hnum ▸ c.next_eq p b
    rw [hnext]
    exact shift_in_mod_eq_iff b hp hs

end Sys2Proof.Machine
end

section
/-!
PROOFS. The family `42_encoder.md`: the encoder's register along a message and its flush (R161, R162), which bit of the
encoded sequence is which tap, ENCODE (R163, R165), and linearity over GF(2) (R166).
-/

namespace Sys2Proof.Machine

/-! ### The register along the inputs (R161, R162) -/

@[simp] theorem reg_zero_false (k : Nat) : reg k 0 false = 0 := by
  rw [reg_eq]
  exact Nat.zero_mod _

theorem Code.run_lt (c : Code) (bits : List Bool) : ∀ sr, sr < c.numStates → c.run sr bits < c.numStates := by
  induction bits with
  | nil => exact fun sr h => h
  | cons b rest ih => exact fun sr _ => ih _ (c.next_lt sr b)

/-- Zeros shift the register up and its old bits out. -/
theorem Code.run_replicate_false (c : Code) (m : Nat) :
    ∀ sr, sr < c.numStates → c.run sr (List.replicate m false) = sr * 2 ^ m % c.numStates := by
  induction m with
  | zero => exact fun sr h => by rw [pow_zero, mul_one, Nat.mod_eq_of_lt h]; rfl
  | succ m ih =>
    intro sr _
    have hnext : c.next sr false = 2 * sr % c.numStates := c.next_eq sr false
    calc c.run sr (List.replicate (m + 1) false)
        = c.next sr false * 2 ^ m % c.numStates := ih _ (c.next_lt sr false)
      _ = 2 * sr * 2 ^ m % c.numStates := by rw [hnext, Nat.mod_mul_mod]
      _ = sr * 2 ^ (m + 1) % c.numStates := by rw [pow_succ', mul_comm 2 sr, mul_assoc]

theorem Code.numStates_pos (c : Code) : 0 < c.numStates := Nat.two_pow_pos _

@[simp] theorem Code.run_zero_replicate_false (c : Code) (m : Nat) : c.run 0 (List.replicate m false) = 0 := by
  rw [c.run_replicate_false m 0 c.numStates_pos, zero_mul, Nat.zero_mod]

/-- K − 1 zeros shift all K − 1 bits of a state out. -/
theorem Code.run_zero_flushed (c : Code) (msg : List Bool) : c.run 0 (c.flushed msg) = 0 := by
  rw [Code.flushed, Code.run_append, c.run_replicate_false _ _ (c.run_lt msg 0 c.numStates_pos)]
  exact Nat.mul_mod_left _ _

/-- Settles O41: the flush is `List.replicate (K − 1) false`, and `Code.run_zero_flushed` says where it ends. -/
theorem flushReturnsToStateZero : Obligations.FlushReturnsToStateZero := by
  intro c msg _
  refine ⟨c.flushed_length msg, by simp [Code.flushed], fun b hb => ?_, c.run_zero_flushed msg⟩
  rw [Code.flushed, List.drop_left] at hb
  exact List.eq_of_mem_replicate hb

/-! ### Which bit is which tap (R161, R163) -/

theorem Code.getD_output (c : Code) (sr : Nat) (b : Bool) {j : Nat} (hj : j < c.n) :
    (c.output sr b).getD j false = tap c.k (reg c.k sr b) (c.polys.getD j 0).toNat := by
  have hj' : j < c.polys.length := hj
  simp [Code.output, hj']

/-- Bit n·i + j is bit j of the symbol of step i, which starts from the register the first i inputs leave. -/
theorem Code.getD_emit (c : Code) {j : Nat} (hj : j < c.n) (bits : List Bool) :
    ∀ sr i, i < bits.length →
      (c.emit sr bits).getD (c.n * i + j) false = (c.output (c.run sr (bits.take i)) (bits.getD i false)).getD j false := by
  induction bits with
  | nil => exact fun sr i hi => absurd hi (Nat.not_lt_zero i)
  | cons b rest ih =>
    intro sr i hi
    cases i with
    | zero =>
      have hin : c.n * 0 + j < (c.output sr b).length := by simpa using hj
      rw [Code.emit, List.getD_append _ _ _ _ hin, Nat.mul_zero, Nat.zero_add]
      rfl
    | succ i =>
      have hpast : c.n * (i + 1) + j = (c.output sr b).length + (c.n * i + j) := by rw [c.output_length]; ring
      rw [Code.emit, List.getD_append_right _ _ _ _ (by omega), hpast, Nat.add_sub_cancel_left,
        ih _ _ (Nat.lt_of_succ_lt_succ hi)]
      rfl

/-- The input of step i: a message bit, and 0 after the message. -/
theorem State.getD_flushed (s : State) (i : Nat) :
    (s.activeCode.flushed s.inputBits).getD i false = (decide (i < s.inLen.toNat) && s.inBit i) := by
  by_cases hi : i < s.inLen.toNat
  · rw [Code.flushed, List.getD_append _ _ _ _ (by simpa using hi)]
    simp [State.inputBits, hi]
  · rw [Code.flushed, List.getD_append_right _ _ _ _ (by simpa using hi), decide_eq_false hi, Bool.false_and]
    exact List.getElem?_getD_replicate_default_eq _ _ _

theorem State.activeCode_getD_polys (s : State) {j : Nat} (hj : j < s.actN.toNat) :
    s.activeCode.polys.getD j 0 = s.actPolyAt j := by
  simp [State.activeCode, hj]

theorem State.getD_encoded (s : State) {i j : Nat} (hi : i < s.inLen.toNat + (s.actK.toNat - 1))
    (hj : j < s.actN.toNat) :
    (s.activeCode.encoded s.inputBits).getD (s.actN.toNat * i + j) false =
      tap s.actK.toNat
        (reg s.actK.toNat (s.activeCode.run 0 ((s.activeCode.flushed s.inputBits).take i))
          (decide (i < s.inLen.toNat) && s.inBit i))
        (s.actPolyAt j).toNat := by
  have hj' : j < s.activeCode.n := by simpa using hj
  have hi' : i < (s.activeCode.flushed s.inputBits).length := by simpa using hi
  have hemit := s.activeCode.getD_emit hj' _ 0 i hi'
  rw [s.getD_flushed, Code.getD_output _ _ _ hj', s.activeCode_getD_polys hj, s.activeCode_n] at hemit
  exact hemit

/-! ### ENCODE (R160, R163, R165) -/

/-- The state ENCODE completes when no check fails. -/
def encodeWritten (s : State) : State :=
  { s.storeOutBits (s.activeCode.encoded s.inputBits) with
    outLen := BitVec.ofNat 32 (s.activeCode.encodedLength s.inLen.toNat) }

theorem exec_encode_of_checked {s : State} (h : encodeError s = none) :
    exec .encode s = .next (complete .none 0 0 (encodeWritten s)) := by
  obtain ⟨t, ht⟩ := exec_next .encode s
  obtain ⟨e, he, -⟩ | ⟨-, rfl⟩ := execEncode_spec ht
  · exact nomatch h.symm.trans he
  · exact ht

/-- The output buffer has at most 2^19 bits, so its bit counts are 32-bit words. -/
theorem Params.outBits_lt {p : Params} (h : p.ok = true) : p.outBits < 2 ^ 32 := by
  have hsizes := Params.ok_sizes h
  unfold Params.outBits
  omega

theorem encodeWritten_outLen_toNat {s : State} (hp : s.params.ok = true)
    (hout : s.activeCode.encodedLength s.inLen.toNat ≤ s.params.outBits) :
    (encodeWritten s).outLen.toNat = s.activeCode.encodedLength s.inLen.toNat :=
  (BitVec.toNat_ofNat _ _).trans (Nat.mod_eq_of_lt (hout.trans_lt (Params.outBits_lt hp)))

theorem State.activeCode_encodedLength (s : State) (len : Nat) :
    s.activeCode.encodedLength len = s.actN.toNat * (len + s.actK.toNat - 1) := by
  rw [Code.encodedLength, s.activeCode_n, s.activeCode_k]

theorem State.encoded_inputBits_length (s : State) (hk : 1 ≤ s.actK.toNat) :
    (s.activeCode.encoded s.inputBits).length = s.activeCode.encodedLength s.inLen.toNat := by
  rw [s.activeCode.encoded_length _ hk, s.inputBits_length]

/-- Settles O38: ENCODE stores exactly `Code.encoded` of the input (`State.outBit_storeOutBits`), whose bits
`State.getD_encoded` names. -/
theorem encodeWritesTheCodeword : Obligations.EncodeWritesTheCodeword := by
  intro s hp hcfg hk hin hout
  have hlen := s.activeCode_encodedLength s.inLen.toNat
  rw [← hlen] at hout ⊢
  have hstored := s.encoded_inputBits_length hk
  have houtLen := encodeWritten_outLen_toNat hp hout
  refine ⟨complete .none 0 0 (encodeWritten s), exec_encode_of_checked (encodeError_none.2 ⟨hcfg, hin, hout⟩),
    complete_completed _ _ _ _, houtLen, fun i j hi hj => ?_, fun j hj => ?_, fun a ha => ?_,
    ((storeOutBits_sameOperands _ s).withOutLen _).complete _ _ _,
    ((storeOutBits_sameActive _ s).withOutLen _).complete _ _ _, State.storeOutBits_result _ s⟩
  · have hwritten : s.actN.toNat * i + j < (s.activeCode.encoded s.inputBits).length := by
      rw [hstored, hlen]
      calc s.actN.toNat * i + j < s.actN.toNat * (i + 1) := by rw [Nat.mul_succ]; omega
        _ ≤ _ := Nat.mul_le_mul_left _ hi
    rw [← s.getD_encoded (by omega) hj]
    exact (State.outBit_storeOutBits _ s _).trans (if_pos hwritten)
  · rw [complete_outLen, houtLen, ← hstored] at hj
    exact (State.outBit_storeOutBits _ s j).trans (if_neg (by omega))
  · rw [complete_outLen, houtLen, ← hstored] at ha
    exact State.byteAt_storeOutBits_other _ s a ha

theorem State.inputBits_of_inLen_zero {s : State} (h : s.inLen = 0) : s.inputBits = [] := by
  rw [State.inputBits, h]
  rfl

/-- Settles O42: O38 with no message, where every input is a flush zero and the register stays 0. -/
theorem emptyMessageEncodesToZeros : Obligations.EmptyMessageEncodesToZeros := by
  intro s hp hcfg hk hzero hout
  have hL : s.inLen.toNat = 0 := by rw [hzero]; rfl
  obtain ⟨t, ht, hdone, hlen, hbits, -, hbytes, -⟩ :=
    encodeWritesTheCodeword s hp hcfg hk (by omega) (by rwa [hL, Nat.zero_add])
  rw [hL, Nat.zero_add] at hlen hbits
  refine ⟨t, ht, hdone, hlen, fun j hj => ?_, fun hone => ?_⟩
  · rw [hlen] at hj
    have hn : 0 < s.actN.toNat := Nat.pos_of_mul_pos_right (Nat.zero_lt_of_lt hj)
    have hbit := hbits (j / s.actN.toNat) (j % s.actN.toNat) (Nat.div_lt_of_lt_mul hj) (Nat.mod_lt _ hn)
    rw [Nat.div_add_mod] at hbit
    simpa [State.inputBits_of_inLen_zero hzero, Code.flushed] using hbit
  · have hnone : t.outLen.toNat = 0 := by rw [hlen, hone]; rfl
    exact ⟨BitVec.eq_of_toNat_eq hnone, fun a => hbytes a (by omega)⟩

/-! ### Linearity over GF(2) (R166) -/

theorem tap_xor (k r r' p : Nat) : tap k (r ^^^ r') p = (tap k r p ^^ tap k r' p) := by
  rw [tap, Nat.and_xor_distrib_right, parity_xor]
  rfl

/-- Bit by bit: bit 0 is the input, and bit i + 1 is bit i of the state. -/
theorem reg_xor (k s s' : Nat) (b b' : Bool) : reg k (s ^^^ s') (b ^^ b') = reg k s b ^^^ reg k s' b' := by
  apply Nat.eq_of_testBit_eq
  intro i
  rw [Nat.testBit_xor]
  by_cases hi : i < k
  · cases i with
    | zero => simp only [reg_testBit_zero _ _ _ hi]
    | succ i => simp only [reg_testBit_succ _ _ _ _ hi, Nat.testBit_xor]
  · have hout (s : Nat) (b : Bool) : (reg k s b).testBit i = false :=
      Nat.testBit_lt_two_pow ((reg_lt k s b).trans_le (Nat.pow_le_pow_right (by decide) (Nat.not_lt.1 hi)))
    simp only [hout, Bool.xor_false]

theorem Code.next_xor (c : Code) (s s' : Nat) (b b' : Bool) :
    c.next (s ^^^ s') (b ^^ b') = c.next s b ^^^ c.next s' b' := by
  rw [Code.next, reg_xor, Nat.xor_mod_two_pow]
  rfl

theorem Code.output_xor (c : Code) (s s' : Nat) (b b' : Bool) :
    c.output (s ^^^ s') (b ^^ b') = List.zipWith (· ^^ ·) (c.output s b) (c.output s' b') := by
  simp only [Code.output, reg_xor, tap_xor, List.zipWith_map, List.zipWith_self]

theorem Code.emit_xor (c : Code) (bits : List Bool) :
    ∀ (bits' : List Bool) (sr sr' : Nat), bits.length = bits'.length →
      c.emit (sr ^^^ sr') (List.zipWith (· ^^ ·) bits bits') =
        List.zipWith (· ^^ ·) (c.emit sr bits) (c.emit sr' bits') := by
  induction bits with
  | nil => exact fun _ _ _ _ => rfl
  | cons b rest ih =>
    intro bits' sr sr' hlen
    cases bits' with
    | nil => cases hlen
    | cons b' rest' =>
      have hsym : (c.output sr b).length = (c.output sr' b').length := by simp only [Code.output_length]
      simp only [List.zipWith_cons_cons, Code.emit]
      rw [c.output_xor, c.next_xor, ih rest' _ _ (Nat.succ.inj hlen), List.zipWith_append hsym]

theorem Code.flushed_xor (c : Code) {m m' : List Bool} (hlen : m.length = m'.length) :
    c.flushed (List.zipWith (· ^^ ·) m m') = List.zipWith (· ^^ ·) (c.flushed m) (c.flushed m') := by
  simp [Code.flushed, List.zipWith_append hlen]

theorem Code.encoded_xor (c : Code) {m m' : List Bool} (hlen : m.length = m'.length) :
    c.encoded (List.zipWith (· ^^ ·) m m') = List.zipWith (· ^^ ·) (c.encoded m) (c.encoded m') := by
  rw [Code.encoded, c.flushed_xor hlen]
  exact c.emit_xor _ _ 0 0 (by rw [c.flushed_length, c.flushed_length, hlen])

/-- Settles O43: each map's linearity lemma, and the impulse response by evaluation. -/
theorem encodingIsLinear : Obligations.EncodingIsLinear :=
  ⟨tap_xor, reg_xor, Code.next_xor, fun c _ _ hlen => c.encoded_xor hlen, by decide⟩

end Sys2Proof.Machine
end

section
/-!
PROOFS. The family `43_decoder.md`, its ACS unit and path memory: the predecessors and the winner (R196), and what a
path metric is, the least distance of a path (R193, R195, R198), which the traceback's path has (R200).
-/

namespace Sys2Proof.Machine

/-! ### The predecessors and the winner (R196) -/

theorem preds_of_two_le {k s : Nat} (hk : 2 ≤ k) (hs : s / 2 < 2 ^ (k - 2)) :
    preds k s = [(s / 2, decide (s % 2 = 1)), (s / 2 + 2 ^ (k - 2), decide (s % 2 = 1))] := by
  have hor : s / 2 ||| 2 ^ (k - 2) = s / 2 + 2 ^ (k - 2) := by
    have h := Nat.two_pow_add_eq_or_of_lt hs 1
    rw [mul_one] at h
    rw [Nat.or_comm, ← h, Nat.add_comm]
  rw [preds, if_neg (by omega), Nat.shiftRight_one, Nat.testBit_zero, hor]

theorem preds_pairwise {c : Code} {s : Nat} (hs : s < c.numStates) :
    (preds c.k s).Pairwise (fun e d => e.1 < d.1 ∨ e.1 = d.1 ∧ e.2 = false ∧ d.2 = true) := by
  by_cases h1 : c.k ≤ 1
  · simp [preds, h1]
  · rw [Code.numStates_eq_two_mul (by omega)] at hs
    rw [preds_of_two_le (by omega) (by omega)]
    simp

theorem mem_preds {c : Code} (hk : 1 ≤ c.k) {s : Nat} (hs : s < c.numStates) (p : Nat) (b : Bool) :
    (p, b) ∈ preds c.k s ↔ p < c.numStates ∧ c.next p b = s := by
  obtain ⟨-, hone, htwo⟩ := nextStateAndItsPredecessors c hk
  by_cases h1 : c.k = 1
  · obtain ⟨hnum, hnext, -⟩ := hone h1
    obtain rfl : s = 0 := Nat.lt_one_iff.1 (hnum ▸ hs)
    rw [hnum, hnext, h1]
    cases b <;> simp [preds]
  · obtain ⟨hpred, hlow, hhigh⟩ := htwo s (by omega) hs
    rw [preds_of_two_le (by omega) hlow]
    have hstates (h : p = s / 2 ∨ p = s / 2 + 2 ^ (c.k - 2)) : p < c.numStates := by omega
    simp only [List.mem_cons, Prod.mk.injEq, List.not_mem_nil, or_false, ← or_and_right]
    constructor
    · exact fun h => ⟨hstates h.1, (hpred p b (hstates h.1)).2 h⟩
    · exact fun h => (hpred p b h.1).1 h.2

/-- Every state has two candidates, and the second wins only if strictly smaller. -/
theorem candidates_pair (c : Code) (inf : Nat) (pm : List Nat) (y : List Bool) (s : Nat) :
    ∃ x z, candidates c inf pm y s = [x, z] ∧ acs c inf pm y s = if z.1 < x.1 then z else x := by
  unfold acs candidates preds
  split
  · exact ⟨_, _, rfl, rfl⟩
  · exact ⟨_, _, rfl, rfl⟩

theorem candidates_split (c : Code) (inf : Nat) (pm : List Nat) (y : List Bool) (s : Nat) :
    ∃ before after : List Candidate,
      candidates c inf pm y s = before ++ acs c inf pm y s :: after ∧
      (∀ x ∈ before, (acs c inf pm y s).1 < x.1) ∧ (∀ x ∈ after, (acs c inf pm y s).1 ≤ x.1) := by
  obtain ⟨x, z, hpair, hacs⟩ := candidates_pair c inf pm y s
  rw [hpair, hacs]
  by_cases h : z.1 < x.1
  · exact ⟨[x], [], by simp [h], by simp [h], by simp⟩
  · exact ⟨[], [z], by simp [h], by simp, by simp [h, Nat.not_lt.1 h]⟩

/-- Settles O46: the predecessors case by case in K, and the winner of two candidates. -/
theorem acsTakesTheFirstLeastCandidate : Obligations.AcsTakesTheFirstLeastCandidate :=
  fun c inf pm y s hk hs => ⟨preds_pairwise hs, mem_preds hk hs, candidates_split c inf pm y s⟩

theorem acs_mem_candidates (c : Code) (inf : Nat) (pm : List Nat) (y : List Bool) (s : Nat) :
    acs c inf pm y s ∈ candidates c inf pm y s := by
  obtain ⟨before, after, hsplit, -, -⟩ := candidates_split c inf pm y s
  rw [hsplit]
  exact List.mem_append_right _ List.mem_cons_self

theorem acs_le_of_mem_candidates {c : Code} {inf : Nat} {pm : List Nat} {y : List Bool} {s : Nat} {x : Candidate}
    (hx : x ∈ candidates c inf pm y s) : (acs c inf pm y s).1 ≤ x.1 := by
  obtain ⟨before, after, hsplit, hbefore, hafter⟩ := candidates_split c inf pm y s
  rw [hsplit, List.mem_append, List.mem_cons] at hx
  obtain hx | rfl | hx := hx
  · exact (hbefore x hx).le
  · exact le_rfl
  · exact hafter x hx

/-- The winner is a transition into s, with the metric of that transition (R195). -/
theorem acs_spec {c : Code} (hk : 1 ≤ c.k) (inf : Nat) (pm : List Nat) (y : List Bool) {s : Nat}
    (hs : s < c.numStates) :
    ∃ p b, acs c inf pm y s = (addsat inf (pm.getD p inf) (hamming (c.output p b) y), p, b) ∧
      p < c.numStates ∧ c.next p b = s := by
  obtain ⟨⟨p, b⟩, hmem, hacs⟩ := List.mem_map.1 (acs_mem_candidates c inf pm y s)
  exact ⟨p, b, hacs.symm, (mem_preds hk hs p b).1 hmem⟩

theorem addsat_le (inf a d : Nat) : addsat inf a d ≤ a + d := by
  unfold addsat
  split
  · omega
  · exact le_rfl

theorem addsat_of_ne {inf a : Nat} (h : a ≠ inf) (d : Nat) : addsat inf a d = a + d := if_neg h

@[simp] theorem addsat_inf (inf d : Nat) : addsat inf inf d = inf := if_pos rfl

/-- No transition out of p beats the metric of the state it leads to. -/
theorem acs_next_le {c : Code} (hk : 1 ≤ c.k) (inf : Nat) (pm : List Nat) (y : List Bool) {p : Nat}
    (hp : p < c.numStates) (b : Bool) :
    (acs c inf pm y (c.next p b)).1 ≤ pm.getD p inf + hamming (c.output p b) y :=
  calc (acs c inf pm y (c.next p b)).1
      ≤ addsat inf (pm.getD p inf) (hamming (c.output p b) y) :=
        acs_le_of_mem_candidates (List.mem_map.2 ⟨(p, b), (mem_preds hk (c.next_lt p b) p b).2 ⟨hp, rfl⟩, rfl⟩)
    _ ≤ _ := addsat_le _ _ _

/-! ### The columns and rows of a run of the ACS unit -/

theorem getD_acsColumn (c : Code) (inf : Nat) (pm : List Nat) (y : List Bool) {s : Nat} (hs : s < c.numStates) :
    (acsColumn c inf pm y).getD s inf = (acs c inf pm y s).1 := by
  simp [acsColumn, hs]

theorem getD_acsRow (c : Code) (inf : Nat) (pm : List Nat) (y : List Bool) {s : Nat} (hs : s < c.numStates) :
    (acsRow c inf pm y).getD s (0, false) = (acs c inf pm y s).2 := by
  simp [acsRow, hs]

theorem finalColumn_append (c : Code) (inf : Nat) (ys zs : List (List Bool)) :
    ∀ pm, finalColumn c inf pm (ys ++ zs) = finalColumn c inf (finalColumn c inf pm ys) zs := by
  induction ys with
  | nil => exact fun _ => rfl
  | cons y ys ih => exact fun _ => ih _

theorem pathMemory_append (c : Code) (inf : Nat) (ys zs : List (List Bool)) :
    ∀ pm, pathMemory c inf pm (ys ++ zs) = pathMemory c inf pm ys ++ pathMemory c inf (finalColumn c inf pm ys) zs := by
  induction ys with
  | nil => exact fun _ => rfl
  | cons y ys ih => exact fun _ => congrArg (_ :: ·) (ih _)

theorem finalColumn_length (c : Code) (inf : Nat) (ys : List (List Bool)) :
    ∀ pm, pm.length = c.numStates → (finalColumn c inf pm ys).length = c.numStates := by
  induction ys with
  | nil => exact fun _ h => h
  | cons y ys ih => exact fun _ _ => ih _ (acsColumn_length _ _ _ _)

theorem initialColumn_length (c : Code) (inf : Nat) : (initialColumn c inf).length = c.numStates := by
  rw [initialColumn, List.length_cons, List.length_replicate]
  exact Nat.sub_add_cancel c.numStates_pos

/-- PM before the first step (R192). -/
theorem getD_initialColumn (c : Code) (inf s : Nat) :
    (initialColumn c inf).getD s inf = if s = 0 then 0 else inf := by
  cases s with
  | zero => rfl
  | succ s =>
    rw [initialColumn, List.getD_cons_succ, if_neg s.succ_ne_zero, List.getD_eq_getElem?_getD]
    exact List.getElem?_getD_replicate_default_eq _ _ _

/-! ### The traced path (R200) -/

theorem traceback_append (rows : List (List (Nat × Bool))) :
    ∀ tbS bits, traceback rows tbS bits = traceback rows tbS [] ++ bits := by
  induction rows with
  | nil => exact fun _ _ => rfl
  | cons row rows ih =>
    intro tbS bits
    rw [traceback, traceback, ih, ih _ [_], List.append_assoc]
    rfl

/-- The bits that the traceback recovers from state `s` after the steps of `ys`. -/
def survivor (c : Code) (inf : Nat) (pm : List Nat) (ys : List (List Bool)) (s : Nat) : List Bool :=
  traceback (pathMemory c inf pm ys).reverse s []

theorem Code.decodedBits_eq_survivor (c : Code) (inf : Nat) (y : List Bool) :
    c.decodedBits inf y = survivor c inf (initialColumn c inf) (c.symbols y) 0 := rfl

@[simp] theorem survivor_length (c : Code) (inf : Nat) (pm : List Nat) (ys : List (List Bool)) (s : Nat) :
    (survivor c inf pm ys s).length = ys.length := by simp [survivor]

/-- The walk's first read is the row of the last step. -/
theorem survivor_concat (c : Code) (inf : Nat) (pm : List Nat) (ys : List (List Bool)) (y : List Bool) {s : Nat}
    (hs : s < c.numStates) :
    survivor c inf pm (ys ++ [y]) s =
      survivor c inf pm ys (acs c inf (finalColumn c inf pm ys) y s).2.1 ++
        [(acs c inf (finalColumn c inf pm ys) y s).2.2] := by
  rw [survivor, pathMemory_append, pathMemory, pathMemory, List.reverse_append, List.reverse_singleton,
    List.singleton_append, traceback, getD_acsRow _ _ _ _ hs, traceback_append]
  rfl

/-! ### The distance of a path -/

/-- The sum of the branch metrics of the transitions that `bits` takes from `sr`, against the symbols `ys` (R194). -/
def Code.distance (c : Code) (sr : Nat) : List Bool → List (List Bool) → Nat
  | b :: bits, y :: ys => hamming (c.output sr b) y + c.distance (c.next sr b) bits ys
  | _, _ => 0

theorem Code.distance_concat (c : Code) (b : Bool) (y : List Bool) (bits : List Bool) :
    ∀ sr ys, bits.length = ys.length →
      c.distance sr (bits ++ [b]) (ys ++ [y]) =
        c.distance sr bits ys + hamming (c.output (c.run sr bits) b) y := by
  induction bits with
  | nil =>
    intro sr ys h
    obtain rfl := List.length_eq_zero_iff.1 h.symm
    simp [Code.distance, Code.run]
  | cons a bits ih =>
    intro sr ys h
    cases ys with
    | nil => cases h
    | cons z ys =>
      simp only [List.cons_append, Code.distance, Code.run, ih _ _ (Nat.succ.inj h), Nat.add_assoc]

theorem hamming_le_length (as : List Bool) : ∀ bs, hamming as bs ≤ as.length := by
  induction as with
  | nil => exact fun _ => Nat.zero_le _
  | cons a as ih =>
    intro bs
    cases bs with
    | nil => exact Nat.zero_le _
    | cons b bs =>
      have := (a ^^ b).toNat_le
      have := ih bs
      simp only [hamming, List.length_cons]
      omega

/-- A branch metric is at most n, so a path of t steps is at distance at most t·n. -/
theorem Code.distance_le (c : Code) (bits : List Bool) : ∀ sr ys, c.distance sr bits ys ≤ ys.length * c.n := by
  induction bits with
  | nil => exact fun _ _ => Nat.zero_le _
  | cons b bits ih =>
    intro sr ys
    cases ys with
    | nil => exact Nat.zero_le _
    | cons y ys =>
      have hbranch : hamming (c.output sr b) y ≤ c.n := (hamming_le_length _ y).trans_eq (c.output_length sr b)
      have := ih (c.next sr b) ys
      simp only [Code.distance, List.length_cons, Nat.succ_mul]
      omega

/-! ### A metric is the least distance of a path into the state (R195) -/

theorem finalColumn_run_le {c : Code} (hk : 1 ≤ c.k) (inf : Nat) (bits : List Bool) :
    ∀ pm ys p, bits.length = ys.length → p < c.numStates →
      (finalColumn c inf pm ys).getD (c.run p bits) inf ≤ pm.getD p inf + c.distance p bits ys := by
  induction bits with
  | nil =>
    intro pm ys p h _
    obtain rfl := List.length_eq_zero_iff.1 h.symm
    exact Nat.le_add_right _ _
  | cons b bits ih =>
    intro pm ys p h hp
    cases ys with
    | nil => cases h
    | cons y ys =>
      have hstep := acs_next_le hk inf pm y hp b
      have hrest := ih (acsColumn c inf pm y) ys _ (Nat.succ.inj h) (c.next_lt p b)
      rw [getD_acsColumn _ _ _ _ (c.next_lt p b)] at hrest
      simp only [finalColumn, Code.run, Code.distance]
      omega

/-- The traced path leads to the state it is traced from, and it has the distance of a finite metric there. -/
theorem survivor_attains {c : Code} (hk : 1 ≤ c.k) (inf : Nat) (pm : List Nat) (ys : List (List Bool)) :
    ∀ s, s < c.numStates → ∃ p, p < c.numStates ∧ c.run p (survivor c inf pm ys s) = s ∧
      ((finalColumn c inf pm ys).getD s inf ≠ inf →
        pm.getD p inf ≠ inf ∧
        (finalColumn c inf pm ys).getD s inf = pm.getD p inf + c.distance p (survivor c inf pm ys s) ys) := by
  induction ys using List.reverseRecOn with
  | nil => exact fun s hs => ⟨s, hs, rfl, fun h => ⟨h, rfl⟩⟩
  | append_singleton ys y ih =>
    intro s hs
    obtain ⟨q, b, hacs, hq, hnext⟩ := acs_spec hk inf (finalColumn c inf pm ys) y hs
    obtain ⟨p, hp, hrun, hmetric⟩ := ih q hq
    have hbits : survivor c inf pm (ys ++ [y]) s = survivor c inf pm ys q ++ [b] := by
      rw [survivor_concat _ _ _ _ _ hs, hacs]
    have hcolumn : (finalColumn c inf pm (ys ++ [y])).getD s inf =
        addsat inf ((finalColumn c inf pm ys).getD q inf) (hamming (c.output q b) y) := by
      rw [finalColumn_append, finalColumn, finalColumn, getD_acsColumn _ _ _ _ hs, hacs]
    refine ⟨p, hp, ?_, fun hfin => ?_⟩
    · rw [hbits, Code.run_append, hrun]
      exact hnext
    · have hq' : (finalColumn c inf pm ys).getD q inf ≠ inf := by
        intro h
        rw [hcolumn, h, addsat_inf] at hfin
        exact hfin rfl
      obtain ⟨hstart, heq⟩ := hmetric hq'
      refine ⟨hstart, ?_⟩
      rw [hcolumn, addsat_of_ne hq', heq, hbits, c.distance_concat _ _ _ _ _ (survivor_length _ _ _ _ _), hrun,
        Nat.add_assoc]

/-- From the initial column: a finite metric is the distance of the traced path, which starts in state 0. -/
theorem survivor_of_finite {c : Code} (hk : 1 ≤ c.k) {inf : Nat} {ys : List (List Bool)} {s : Nat}
    (hs : s < c.numStates) (hfin : (finalColumn c inf (initialColumn c inf) ys).getD s inf ≠ inf) :
    c.run 0 (survivor c inf (initialColumn c inf) ys s) = s ∧
      (finalColumn c inf (initialColumn c inf) ys).getD s inf =
        c.distance 0 (survivor c inf (initialColumn c inf) ys s) ys := by
  obtain ⟨p, -, hrun, hmetric⟩ := survivor_attains hk inf (initialColumn c inf) ys s hs
  obtain ⟨hstart, heq⟩ := hmetric hfin
  rw [getD_initialColumn] at hstart heq
  obtain rfl : p = 0 := by
    by_contra hp
    exact hstart (if_neg hp)
  exact ⟨hrun, by simpa using heq⟩

theorem finalColumn_run_zero_le {c : Code} (hk : 1 ≤ c.k) (inf : Nat) {bits : List Bool} {ys : List (List Bool)}
    (h : bits.length = ys.length) :
    (finalColumn c inf (initialColumn c inf) ys).getD (c.run 0 bits) inf ≤ c.distance 0 bits ys := by
  have hle := finalColumn_run_le hk inf bits (initialColumn c inf) ys 0 h c.numStates_pos
  rwa [getD_initialColumn, if_pos rfl, Nat.zero_add] at hle

/-! ### Path metrics fit (R193) -/

theorem Code.valid_k {p : Params} {c : Code} (h : c.valid p = true) : 1 ≤ c.k ∧ c.k ≤ p.kmax := by
  simp only [Code.valid, Bool.and_eq_true, decide_eq_true_eq] at h
  exact h.1.1

theorem Code.valid_n {p : Params} {c : Code} (h : c.valid p = true) : 1 ≤ c.n ∧ c.n ≤ p.nmax := by
  simp only [Code.valid, Bool.and_eq_true, decide_eq_true_eq] at h
  exact h.1.2

theorem Code.valid_polys {p : Params} {c : Code} (h : c.valid p = true) {q : Word} (hq : q ∈ c.polys) :
    0 < q.toNat ∧ q.toNat < 2 ^ c.k := by
  simp only [Code.valid, Bool.and_eq_true, List.all_eq_true, decide_eq_true_eq] at h
  exact h.2 q hq

/-- R7's and R8's constraints on the metric width. -/
theorem Params.ok_metrics {p : Params} (h : p.ok = true) : 1 ≤ p.mw ∧ p.tmax * p.nmax ≤ 2 ^ p.mw - 2 := by
  simp only [Params.ok, Bool.and_eq_true, decide_eq_true_eq] at h
  omega

/-- TMAX symbols of a valid code add up to less than INF (R8). -/
theorem mul_n_lt_inf {p : Params} {c : Code} (hp : p.ok = true) (hc : c.valid p = true) {t : Nat} (ht : t ≤ p.tmax) :
    t * c.n < p.inf := by
  obtain ⟨hmw, hroom⟩ := Params.ok_metrics hp
  have hle : t * c.n ≤ p.tmax * p.nmax := Nat.mul_le_mul ht (Code.valid_n hc).2
  have htwo : 2 ≤ 2 ^ p.mw := le_self_pow₀ one_le_two (by omega)
  unfold Params.inf
  omega

theorem finalColumn_getD_le {c : Code} (hk : 1 ≤ c.k) {inf : Nat} {ys : List (List Bool)} {s : Nat}
    (hs : s < c.numStates) (hfin : (finalColumn c inf (initialColumn c inf) ys).getD s inf ≠ inf) :
    (finalColumn c inf (initialColumn c inf) ys).getD s inf ≤ ys.length * c.n := by
  obtain ⟨-, heq⟩ := survivor_of_finite hk hs hfin
  rw [heq]
  exact c.distance_le _ _ _

/-- Settles O47: a finite metric is the distance of a path of at most TMAX steps. -/
theorem pathMetricsNeverOverflow : Obligations.PathMetricsNeverOverflow := by
  intro p c ys m hp hc hT hm
  have hfinite (h : m ≠ p.inf) : m ≤ ys.length * c.n := by
    obtain ⟨s, hs, rfl⟩ := List.mem_iff_getElem.1 hm
    rw [finalColumn_length _ _ _ _ (initialColumn_length c p.inf)] at hs
    rw [← List.getD_eq_getElem _ p.inf] at h ⊢
    exact finalColumn_getD_le (Code.valid_k hc).1 hs h
  have hbound := mul_n_lt_inf hp hc hT
  have hle : m ≤ p.inf := by
    by_contra h
    have := hfinite (by omega)
    omega
  have hpos : 0 < 2 ^ p.mw := Nat.two_pow_pos _
  refine ⟨by unfold Params.inf at hle; omega, hle, fun h => ⟨hfinite h, by omega, fun hlt d hd => ?_⟩, addsat_inf _⟩
  have hnext : (ys.length + 1) * c.n < p.inf := mul_n_lt_inf hp hc hlt
  have := hfinite h
  rw [Nat.succ_mul] at hnext
  exact ⟨addsat_of_ne h d, by omega⟩

/-! ### Reachability (R198) -/

theorem finalColumn_lt_inf_iff {p : Params} {c : Code} {ys : List (List Bool)} {s : Nat} (hp : p.ok = true)
    (hc : c.valid p = true) (hT : ys.length ≤ p.tmax) (hs : s < c.numStates) :
    (finalColumn c p.inf (initialColumn c p.inf) ys).getD s p.inf < p.inf ↔
      ∃ x : List Bool, x.length = ys.length ∧ c.run 0 x = s := by
  have hk := (Code.valid_k hc).1
  constructor
  · intro h
    exact ⟨_, survivor_length _ _ _ _ _, (survivor_of_finite hk hs h.ne).1⟩
  · rintro ⟨x, hx, rfl⟩
    calc _ ≤ c.distance 0 x ys := finalColumn_run_zero_le hk _ hx
      _ ≤ ys.length * c.n := c.distance_le _ _ _
      _ < p.inf := mul_n_lt_inf hp hc hT

theorem finalColumn_zero_lt_inf {p : Params} {c : Code} {ys : List (List Bool)} (hp : p.ok = true)
    (hc : c.valid p = true) (hT : ys.length ≤ p.tmax) :
    (finalColumn c p.inf (initialColumn c p.inf) ys).getD 0 p.inf < p.inf :=
  (finalColumn_lt_inf_iff hp hc hT c.numStates_pos).2
    ⟨List.replicate ys.length false, List.length_replicate, c.run_zero_replicate_false _⟩

@[simp] theorem Code.run_concat (c : Code) (sr : Nat) (x : List Bool) (b : Bool) :
    c.run sr (x ++ [b]) = c.next (c.run sr x) b := c.run_append x [b] sr

/-- A state holds the last K − 1 inputs, and the bits not yet shifted in are 0. -/
theorem Code.run_zero_lt (c : Code) (x : List Bool) : c.run 0 x < 2 ^ min x.length (c.k - 1) := by
  induction x using List.reverseRecOn with
  | nil => exact Nat.two_pow_pos _
  | append_singleton x b ih =>
    have hb := b.toNat_le
    rw [Code.run_concat, Code.next_eq, List.length_append, List.length_singleton]
    by_cases h : x.length + 1 ≤ c.k - 1
    · rw [min_eq_left (by omega)] at ih
      rw [min_eq_left h, pow_succ']
      exact (Nat.mod_le _ _).trans_lt (by omega)
    · rw [min_eq_right (by omega)]
      exact Nat.mod_lt _ (Nat.two_pow_pos _)

/-- The low bit of a state is its last input (R200). -/
theorem Code.next_half (c : Code) {s : Nat} (hs : s < c.numStates) : c.next (s / 2) (decide (s % 2 = 1)) = s := by
  have hlow : (decide (s % 2 = 1)).toNat = s % 2 := by
    obtain h | h := Nat.mod_two_eq_zero_or_one s <;> simp [h]
  rw [Code.next_eq, hlow, Nat.div_add_mod]
  exact Nat.mod_eq_of_lt hs

theorem Code.exists_run_of_lt (c : Code) (t : Nat) :
    ∀ s, s < 2 ^ min t (c.k - 1) → ∃ x : List Bool, x.length = t ∧ c.run 0 x = s := by
  induction t with
  | zero => exact fun s hs => ⟨[], rfl, (Nat.lt_one_iff.1 (by simpa using hs)).symm⟩
  | succ t ih =>
    intro s hs
    have hpow : 2 ^ min (t + 1) (c.k - 1) ≤ 2 * 2 ^ min t (c.k - 1) := by
      rw [← pow_succ']
      exact Nat.pow_le_pow_right (by decide) (by omega)
    obtain ⟨x, hx, hrun⟩ := ih (s / 2) (by omega)
    have hstate : s < c.numStates := hs.trans_le (Nat.pow_le_pow_right (by decide) (min_le_right _ _))
    exact ⟨x ++ [decide (s % 2 = 1)], by simp [hx], by rw [Code.run_concat, hrun, c.next_half hstate]⟩

/-- Settles O48: a metric is finite exactly when some path reaches the state, and paths reach what the shift register
can hold by then. -/
theorem finiteMetricMeansReachable : Obligations.FiniteMetricMeansReachable := by
  intro p c ys s hp hc hT hs
  have hreach := finalColumn_lt_inf_iff hp hc hT hs
  refine ⟨hreach, hreach.trans ⟨?_, c.exists_run_of_lt _ s⟩, finalColumn_zero_lt_inf hp hc hT⟩
  rintro ⟨x, hx, rfl⟩
  exact hx ▸ c.run_zero_lt x

end Sys2Proof.Machine
end

section
/-!
PROOFS. The family `43_decoder.md`, the decoded sequence: its tail (R202), its distance from the received sequence
(R204), and the majority vote of K = 1 (R207).
-/

namespace Sys2Proof.Machine

/-! ### The tail (R202) -/

/-- Bit i of the state is the input i steps before the last one. -/
theorem Code.testBit_run (c : Code) (sr : Nat) (bits : List Bool) :
    ∀ i, i < c.k - 1 → i < bits.length → (c.run sr bits).testBit i = bits.reverse.getD i false := by
  induction bits using List.reverseRecOn with
  | nil => exact fun i _ hi => absurd hi (Nat.not_lt_zero i)
  | append_singleton bits b ih =>
    intro i hi hlen
    rw [Code.run_concat, Code.next, Nat.testBit_mod_two_pow, decide_eq_true hi, Bool.true_and, List.reverse_append]
    rw [List.length_append, List.length_singleton] at hlen
    cases i with
    | zero => exact reg_testBit_zero _ _ _ (by omega)
    | succ i =>
      rw [reg_testBit_succ _ _ _ _ (by omega)]
      exact ih i (by omega) (by omega)

/-- Inputs that lead to state 0 end in K − 1 zeros. -/
theorem Code.getD_of_run_eq_zero {c : Code} {sr : Nat} {bits : List Bool} (h : c.run sr bits = 0) {j : Nat}
    (htail : bits.length - (c.k - 1) ≤ j) (hj : j < bits.length) : bits.getD j false = false := by
  have hbit := c.testBit_run sr bits (bits.length - 1 - j) (by omega) (by omega)
  have hback : bits.length - 1 - (bits.length - 1 - j) = j := by omega
  rw [h, Nat.zero_testBit, List.getD_reverse _ (by omega), hback] at hbit
  exact hbit.symm

/-- Whatever is received, the traced path ends in state 0. -/
theorem Code.run_decodedBits {c : Code} (hk : 1 ≤ c.k) (inf : Nat) (y : List Bool) :
    ∃ p, c.run p (c.decodedBits inf y) = 0 := by
  obtain ⟨p, -, hrun, -⟩ := survivor_attains hk inf (initialColumn c inf) (c.symbols y) 0 c.numStates_pos
  exact ⟨p, hrun⟩

/-- Settles O49: the traced path ends in state 0, where the last K − 1 inputs are 0. -/
theorem decodedTailIsZero : Obligations.DecodedTailIsZero := by
  intro p c y j _ hc _ _ htail hj
  obtain ⟨sr, hrun⟩ := Code.run_decodedBits (Code.valid_k hc).1 p.inf y
  exact Code.getD_of_run_eq_zero hrun (by simpa using htail) (by simpa using hj)

theorem Code.decodedBits_eq_flushed {p : Params} {c : Code} {y : List Bool} (hp : p.ok = true)
    (hc : c.valid p = true) (hk : c.k - 1 ≤ y.length / c.n) (hT : y.length / c.n ≤ p.tmax) :
    c.decodedBits p.inf y = c.flushed (c.decoded p.inf y) := by
  have htail : (c.decodedBits p.inf y).drop (y.length / c.n - (c.k - 1)) = List.replicate (c.k - 1) false := by
    refine List.eq_replicate_iff.2 ⟨?_, fun b hb => ?_⟩
    · rw [List.length_drop, Code.decodedBits_length]
      omega
    · obtain ⟨i, hi, rfl⟩ := List.mem_iff_getElem.1 hb
      rw [List.length_drop, Code.decodedBits_length] at hi
      have := decodedTailIsZero p c y (y.length / c.n - (c.k - 1) + i) hp hc hk hT (by omega) (by omega)
      rwa [List.getElem_drop, ← List.getD_eq_getElem _ false]
  rw [Code.flushed, ← htail]
  exact (List.take_append_drop _ _).symm

/-! ### The received sequence, symbol by symbol (R194) -/

theorem symbolAt_one {n : Nat} {y : List Bool} (h : n ≤ y.length) : symbolAt y n 1 = y.take n := by
  refine List.ext_getElem (by simp [symbolAt, h]) fun j hj _ => ?_
  have hjn : j < n := by simpa [symbolAt] using hj
  simp [symbolAt, hjn.trans_le h]

theorem symbolAt_succ (y : List Bool) (n t : Nat) : symbolAt y n (t + 2) = symbolAt (y.drop n) n (t + 1) := by
  unfold symbolAt
  refine List.map_congr_left fun j _ => ?_
  have hpos : n * (t + 2 - 1) + j = n + (n * (t + 1 - 1) + j) := by
    rw [Nat.add_sub_cancel, show t + 2 - 1 = t + 1 from rfl, Nat.mul_succ]
    omega
  rw [hpos]
  simp [List.getD_eq_getElem?_getD, List.getElem?_drop]

theorem Code.symbols_of_le {c : Code} (hn : 1 ≤ c.n) {y : List Bool} (h : c.n ≤ y.length) :
    c.symbols y = y.take c.n :: c.symbols (y.drop c.n) := by
  have hT : y.length / c.n = (y.drop c.n).length / c.n + 1 := by
    rw [List.length_drop]
    exact Nat.div_eq_sub_div hn h
  rw [Code.symbols, hT, List.range_succ_eq_map, List.map_cons, List.map_map, symbolAt_one h]
  exact congrArg (_ :: ·) (List.map_congr_left fun t _ => symbolAt_succ y c.n t)

theorem hamming_append (as : List Bool) :
    ∀ bs as' bs', as.length = bs.length → hamming (as ++ as') (bs ++ bs') = hamming as bs + hamming as' bs' := by
  induction as with
  | nil =>
    intro bs as' bs' h
    obtain rfl := List.length_eq_zero_iff.1 h.symm
    simp [hamming]
  | cons a as ih =>
    intro bs as' bs' h
    cases bs with
    | nil => cases h
    | cons b bs => simp only [List.cons_append, hamming, ih _ _ _ (Nat.succ.inj h), Nat.add_assoc]

/-- The distance of a path is the Hamming distance of what the encoder emits along it (R163, R194). -/
theorem Code.distance_symbols {c : Code} (hn : 1 ≤ c.n) (bits : List Bool) :
    ∀ sr y, y.length = c.n * bits.length → c.distance sr bits (c.symbols y) = hamming (c.emit sr bits) y := by
  induction bits with
  | nil => exact fun _ _ _ => by simp [Code.distance, Code.emit, hamming]
  | cons b bits ih =>
    intro sr y hy
    rw [List.length_cons, Nat.mul_succ] at hy
    have hsym : (c.output sr b).length = (y.take c.n).length := by
      rw [c.output_length, List.length_take_of_le (by omega)]
    have hrest : (y.drop c.n).length = c.n * bits.length := by
      rw [List.length_drop]
      omega
    calc c.distance sr (b :: bits) (c.symbols y)
        = hamming (c.output sr b) (y.take c.n) + c.distance (c.next sr b) bits (c.symbols (y.drop c.n)) := by
          rw [Code.symbols_of_le hn (by omega)]
          rfl
      _ = hamming (c.output sr b) (y.take c.n) + hamming (c.emit (c.next sr b) bits) (y.drop c.n) := by
          rw [ih _ _ hrest]
      _ = hamming (c.emit sr (b :: bits)) y := by
          rw [← hamming_append _ _ _ _ hsym, List.take_append_drop]
          rfl

/-! ### Maximum likelihood (R204) -/

/-- A zero-tail codeword is a path into state 0, whose metric is no greater than the path's distance. -/
theorem finalColumn_zero_le_hamming {c : Code} (hk : 1 ≤ c.k) (hn : 1 ≤ c.n) (inf : Nat) {y msg : List Bool}
    (hy : c.n ∣ y.length) (hmsg : msg.length + (c.k - 1) = y.length / c.n) :
    (finalColumn c inf (initialColumn c inf) (c.symbols y)).getD 0 inf ≤ hamming (c.encoded msg) y := by
  have hsteps : (c.flushed msg).length = (c.symbols y).length := by simp [hmsg]
  have hbits : y.length = c.n * (c.flushed msg).length := by
    rw [c.flushed_length, hmsg, Nat.mul_div_cancel' hy]
  have hle := finalColumn_run_zero_le hk inf hsteps
  rwa [c.run_zero_flushed, Code.distance_symbols hn _ _ _ hbits] at hle

/-- The metric of state 0 is finite, so the traced path attains it. -/
theorem hamming_emit_decodedBits {p : Params} {c : Code} {y : List Bool} (hp : p.ok = true) (hc : c.valid p = true)
    (hy : c.n ∣ y.length) (hT : y.length / c.n ≤ p.tmax) :
    hamming (c.emit 0 (c.decodedBits p.inf y)) y =
      (finalColumn c p.inf (initialColumn c p.inf) (c.symbols y)).getD 0 p.inf := by
  have hfin := finalColumn_zero_lt_inf hp hc (ys := c.symbols y) (by simpa using hT)
  obtain ⟨-, hmetric⟩ := survivor_of_finite (Code.valid_k hc).1 c.numStates_pos hfin.ne
  have hbits : y.length = c.n * (c.decodedBits p.inf y).length := by
    rw [c.decodedBits_length, Nat.mul_div_cancel' hy]
  rw [hmetric, ← c.decodedBits_eq_survivor, Code.distance_symbols (Code.valid_n hc).1 _ _ _ hbits]

/-- Settles O50: the traced path is the decoded message with its flush, and a metric is the least distance. -/
theorem pathMetricIsTheLeastDistance : Obligations.PathMetricIsTheLeastDistance := by
  intro p c y hp hc hy hk hT
  have hflushed := Code.decodedBits_eq_flushed hp hc hk hT
  refine ⟨hflushed, ?_, fun msg hmsg =>
    finalColumn_zero_le_hamming (Code.valid_k hc).1 (Code.valid_n hc).1 p.inf hy hmsg⟩
  rw [Code.encoded, ← hflushed]
  exact hamming_emit_decodedBits hp hc hy hT

/-! ### The majority vote of K = 1 (R207) -/

/-- The symbol of zeros and the symbol of ones are as far from a symbol as it has ones and zeros. -/
theorem hamming_replicate (b : Bool) (y : List Bool) : hamming (List.replicate y.length b) y = y.count (!b) := by
  induction y with
  | nil => rfl
  | cons a y ih =>
    rw [List.length_cons, List.replicate_succ, hamming, ih, List.count_cons]
    cases a <;> cases b <;> simp [Nat.add_comm]

theorem Code.output_of_k_one {p : Params} {c : Code} (hc : c.valid p = true) (hone : c.k = 1) (b : Bool) :
    c.output 0 b = List.replicate c.n b := by
  refine List.eq_replicate_iff.2 ⟨c.output_length 0 b, fun x hx => ?_⟩
  obtain ⟨q, hq, rfl⟩ := List.mem_map.1 hx
  obtain ⟨hpos, hlt⟩ := Code.valid_polys hc hq
  rw [hone] at hlt
  have hq1 : q.toNat = 1 := by omega
  rw [hone, hq1]
  cases b <;> rfl

/-- The vote: the input whose symbol is strictly nearer, and 0 on a tie. -/
def majority (y : List Bool) : Bool := decide (y.count false < y.count true)

theorem acs_of_k_one {p : Params} {c : Code} (hc : c.valid p = true) (hone : c.k = 1) {inf : Nat} {pm : List Nat}
    (hfin : pm.getD 0 inf ≠ inf) {y : List Bool} (hy : y.length = c.n) :
    (acs c inf pm y 0).2 = (0, majority y) := by
  have hcand : candidates c inf pm y 0 =
      [(pm.getD 0 inf + y.count true, 0, false), (pm.getD 0 inf + y.count false, 0, true)] := by
    simp only [candidates, preds, hone, le_refl, if_true, List.map_cons, List.map_nil, addsat_of_ne hfin,
      Code.output_of_k_one hc hone, ← hy, hamming_replicate, Bool.not_true, Bool.not_false]
  rw [acs, hcand]
  simp only [winner, List.foldl_cons, List.foldl_nil, better, Nat.add_lt_add_iff_left, majority]
  split <;> simp [*]

theorem survivor_of_k_one {p : Params} {c : Code} (hp : p.ok = true) (hc : c.valid p = true) (hone : c.k = 1)
    (ys : List (List Bool)) :
    ys.length ≤ p.tmax → (∀ y ∈ ys, y.length = c.n) →
      survivor c p.inf (initialColumn c p.inf) ys 0 = ys.map majority := by
  induction ys using List.reverseRecOn with
  | nil => exact fun _ _ => rfl
  | append_singleton ys y ih =>
    intro hT hlen
    rw [List.length_append, List.length_singleton] at hT
    have hfin := finalColumn_zero_lt_inf hp hc (ys := ys) (by omega)
    rw [survivor_concat _ _ _ _ _ c.numStates_pos, acs_of_k_one hc hone hfin.ne (hlen y (by simp)),
      ih (by omega) fun z hz => hlen z (List.mem_append_left _ hz), List.map_append]
    rfl

/-- Settles O54: with one state the traced path is the list of votes. -/
theorem constraintOneIsAMajorityVote : Obligations.ConstraintOneIsAMajorityVote := by
  intro p c y t hp hc hone _ hT ht
  have hwhole : c.decoded p.inf y = c.decodedBits p.inf y := by
    rw [Code.decoded, hone]
    exact List.take_of_length_le (by simp)
  refine ⟨hwhole, ?_⟩
  have hvotes := survivor_of_k_one hp hc hone (c.symbols y) (by simpa using hT) fun z hz => by
    obtain ⟨i, -, rfl⟩ := List.mem_map.1 hz
    simp [symbolAt]
  rw [hwhole, c.decodedBits_eq_survivor, hvotes]
  simp [Code.symbols, ht, majority]

end Sys2Proof.Machine
end

section
/-!
PROOFS. The family `43_decoder.md`, the command: the zero-tail encoding is injective (R205, step 2), what DECODE writes
(R190, R201), and the round trip (R205).
-/

namespace Sys2Proof.Machine

/-! ### The encoding is injective (R205) -/

theorem parity_two_pow {count : Nat} : ∀ {j : Nat}, j < count → parity count (2 ^ j) = true := by
  induction count with
  | zero => exact fun h => absurd h (Nat.not_lt_zero _)
  | succ count ih =>
    intro j hj
    cases j with
    | zero => simp [parity]
    | succ j =>
      have hodd : 2 ^ (j + 1) % 2 = 0 := by rw [pow_succ, Nat.mul_mod_left]
      have hhalf : 2 ^ (j + 1) / 2 = 2 ^ j := by rw [pow_succ, Nat.mul_div_cancel _ (by decide)]
      rw [parity, hodd, hhalf, ih (Nat.lt_of_succ_lt_succ hj)]
      rfl

/-- A register whose highest set bit is the lowest one that a polynomial taps. -/
theorem tap_of_lowest_bit {k r q j : Nat} (hj : j < k) (hr : r < 2 ^ (j + 1)) (hrj : r.testBit j = true)
    (hqj : q.testBit j = true) (hlow : ∀ i, i < j → q.testBit i = false) : tap k r q = true := by
  have hmask : r &&& q = 2 ^ j := by
    refine Nat.eq_of_testBit_eq fun i => ?_
    rw [Nat.testBit_and, Nat.testBit_two_pow]
    obtain hlt | rfl | hgt := lt_trichotomy i j
    · simp [hlow i hlt, hlt.ne']
    · simp [hrj, hqj]
    · have hout : r.testBit i = false := Nat.testBit_lt_two_pow (hr.trans_le (Nat.pow_le_pow_right (by decide) hgt))
      simp [hout, hgt.ne]
  rw [tap, hmask, parity_two_pow hj]

/-- The register j steps after the first 1, which has then reached bit j. -/
theorem Code.reg_after_true (c : Code) {j : Nat} (hj : j < c.k) {bits : List Bool} (hlen : j ≤ bits.length) :
    reg c.k (c.run 0 ((true :: bits).take j)) ((true :: bits).getD j false) < 2 ^ (j + 1) ∧
      (reg c.k (c.run 0 ((true :: bits).take j)) ((true :: bits).getD j false)).testBit j = true := by
  constructor
  · have hstate := c.run_zero_lt ((true :: bits).take j)
    have hb := ((true :: bits).getD j false).toNat_le
    rw [List.length_take_of_le (hlen.trans (Nat.le_succ _)), min_eq_left (by omega)] at hstate
    rw [reg_eq, pow_succ']
    exact (Nat.mod_le _ _).trans_lt (by omega)
  · cases j with
    | zero => exact reg_testBit_zero _ _ _ hj
    | succ j =>
      have htake : (bits.take j).length = j := List.length_take_of_le (by omega)
      rw [reg_testBit_succ _ _ _ _ hj, List.take_succ_cons,
        c.testBit_run _ _ _ (by omega) (by simp [htake]), List.reverse_cons,
        List.getD_append_right _ _ _ _ (by simp [htake])]
      simp [htake]

theorem exists_lowest_bit {q k : Nat} (hpos : 0 < q) (hlt : q < 2 ^ k) :
    ∃ j, j < k ∧ q.testBit j = true ∧ ∀ i, i < j → q.testBit i = false := by
  have hex : ∃ j, q.testBit j = true := Nat.exists_testBit_of_ne_zero hpos.ne'
  refine ⟨Nat.find hex, ?_, Nat.find_spec hex, fun i hi => Bool.eq_false_iff.2 (Nat.find_min hex hi)⟩
  exact (Nat.pow_lt_pow_iff_right (by decide)).1 ((Nat.ge_two_pow_of_testBit (Nat.find_spec hex)).trans_lt hlt)

theorem true_mem_of_getD {bits : List Bool} {i : Nat} (h : bits.getD i false = true) : true ∈ bits := by
  by_cases hi : i < bits.length
  · rw [List.getD_eq_getElem _ _ hi] at h
    exact List.mem_of_getElem h
  · rw [List.getD_eq_default _ _ (Nat.not_lt.1 hi)] at h
    exact absurd h Bool.false_ne_true

/-- When the first 1 reaches the lowest bit that a polynomial taps, that polynomial's output is 1. -/
theorem Code.true_mem_emit {p : Params} {c : Code} (hc : c.valid p = true) {bits : List Bool}
    (hlen : c.k - 1 ≤ bits.length) : true ∈ c.emit 0 (true :: bits) := by
  have hn : 0 < c.n := (Code.valid_n hc).1
  have hmem : c.polys.getD 0 0 ∈ c.polys := by
    rw [List.getD_eq_getElem _ _ hn]
    exact List.getElem_mem _
  obtain ⟨hpos, hlt⟩ := Code.valid_polys hc hmem
  obtain ⟨j, hj, hqj, hlow⟩ := exists_lowest_bit hpos hlt
  obtain ⟨hr, hrj⟩ := c.reg_after_true hj (bits := bits) (by omega)
  have hbit : (c.emit 0 (true :: bits)).getD (c.n * j + 0) false = true := by
    rw [c.getD_emit hn _ _ _ (by rw [List.length_cons]; omega), c.getD_output _ _ hn]
    exact tap_of_lowest_bit hj hr hrj hqj hlow
  exact true_mem_of_getD hbit

theorem Code.true_mem_encoded {p : Params} {c : Code} (hc : c.valid p = true) {msg : List Bool} (h : true ∈ msg) :
    true ∈ c.encoded msg := by
  induction msg with
  | nil => exact absurd h List.not_mem_nil
  | cons b msg ih =>
    cases b with
    | true => exact Code.true_mem_emit hc (by simp)
    | false =>
      have hstay : c.next 0 false = 0 := c.run_zero_replicate_false 1
      have hrest : c.encoded (false :: msg) = c.output 0 false ++ c.encoded msg := by
        change _ ++ c.emit (c.next 0 false) (c.flushed msg) = _
        rw [hstay]
        rfl
      rw [hrest]
      exact List.mem_append_right _ (ih (by simpa using h))

theorem hamming_eq_count (as : List Bool) : ∀ bs, hamming as bs = (List.zipWith (· ^^ ·) as bs).count true := by
  induction as with
  | nil => exact fun _ => rfl
  | cons a as ih =>
    intro bs
    cases bs with
    | nil => rfl
    | cons b bs =>
      rw [hamming, ih, List.zipWith_cons_cons, List.count_cons, Nat.add_comm]
      cases a ^^ b <;> rfl

theorem hamming_eq_zero_iff (as : List Bool) : ∀ bs, as.length = bs.length → (hamming as bs = 0 ↔ as = bs) := by
  induction as with
  | nil =>
    intro bs h
    simp [List.length_eq_zero_iff.1 h.symm, hamming]
  | cons a as ih =>
    intro bs h
    cases bs with
    | nil => cases h
    | cons b bs =>
      rw [hamming, Nat.add_eq_zero_iff, ih bs (Nat.succ.inj h), List.cons.injEq]
      cases a <;> cases b <;> simp

/-- The difference of two messages with one codeword encodes to zeros, so it has no 1. -/
theorem Code.encoded_injective {p : Params} {c : Code} (hc : c.valid p = true) {m m' : List Bool}
    (hlen : m.length = m'.length) (h : c.encoded m = c.encoded m') : m = m' := by
  have hzero : true ∉ List.zipWith (· ^^ ·) (c.encoded m) (c.encoded m') := by
    rw [← List.count_eq_zero, ← hamming_eq_count, hamming_eq_zero_iff _ _ (by rw [h])]
    exact h
  rw [← c.encoded_xor hlen] at hzero
  rw [← hamming_eq_zero_iff _ _ hlen, hamming_eq_count, List.count_eq_zero]
  exact fun hm => hzero (Code.true_mem_encoded hc hm)

/-- Decoding a codeword: it lies at distance 0 from itself, so the decoded message has the same codeword. -/
theorem Code.decoded_encoded {p : Params} {c : Code} (hp : p.ok = true) (hc : c.valid p = true) {msg : List Bool}
    (hT : msg.length + (c.k - 1) ≤ p.tmax) : c.decoded p.inf (c.encoded msg) = msg := by
  have hk := (Code.valid_k hc).1
  have hlen : (c.encoded msg).length = c.n * (msg.length + (c.k - 1)) := by
    rw [Code.encoded, c.emit_length, c.flushed_length]
  have hsteps : (c.encoded msg).length / c.n = msg.length + (c.k - 1) := by
    rw [hlen, Nat.mul_div_cancel_left _ (Code.valid_n hc).1]
  have hmsg : (c.decoded p.inf (c.encoded msg)).length = msg.length := by
    rw [c.decoded_length, hsteps, Nat.add_sub_cancel]
  obtain ⟨-, hattained, hleast⟩ := pathMetricIsTheLeastDistance p c (c.encoded msg) hp hc (hlen ▸ Nat.dvd_mul_right _ _)
    (by omega) (by omega)
  have hself : hamming (c.encoded msg) (c.encoded msg) = 0 := (hamming_eq_zero_iff _ _ rfl).2 rfl
  have hsame : hamming (c.encoded (c.decoded p.inf (c.encoded msg))) (c.encoded msg) = 0 := by
    have := hleast msg hsteps.symm
    omega
  refine Code.encoded_injective hc hmsg ((hamming_eq_zero_iff _ _ ?_).1 hsame)
  rw [c.encoded_length _ hk, c.encoded_length _ hk, hmsg]

/-! ### DECODE (R190, R201) -/

/-- The state DECODE completes when no check fails. -/
def decodeWritten (s : State) : State :=
  { s.storeOutBits (s.activeCode.decoded s.params.inf s.inputBits) with
    outLen := BitVec.ofNat 32 (s.trellisSteps - (s.actK.toNat - 1)) }

theorem exec_decode_of_checked {s : State} (h : decodeError s = none) :
    exec .decode s = .next (complete .none 0 0 (decodeWritten s)) := by
  obtain ⟨t, ht⟩ := exec_next .decode s
  obtain ⟨e, he, -⟩ | ⟨-, rfl⟩ := execDecode_spec ht
  · exact nomatch h.symm.trans he
  · exact ht

theorem decodeWritten_outLen_toNat {s : State} (hp : s.params.ok = true)
    (hout : s.trellisSteps - (s.actK.toNat - 1) ≤ s.params.outBits) :
    (decodeWritten s).outLen.toNat = s.trellisSteps - (s.actK.toNat - 1) :=
  (BitVec.toNat_ofNat _ _).trans (Nat.mod_eq_of_lt (hout.trans_lt (Params.outBits_lt hp)))

theorem State.decoded_inputBits_length (s : State) :
    (s.activeCode.decoded s.params.inf s.inputBits).length = s.trellisSteps - (s.actK.toNat - 1) := by
  rw [Code.decoded_length, s.inputBits_length, s.activeCode_n, s.activeCode_k]
  rfl

theorem decodeWritten_outBit (s : State) (j : Nat) :
    (decodeWritten s).outBit j =
      if j < s.trellisSteps - (s.actK.toNat - 1)
      then (s.activeCode.decoded s.params.inf s.inputBits).getD j false else s.outBit j := by
  rw [← s.decoded_inputBits_length]
  exact State.outBit_storeOutBits _ s j

theorem Code.getD_decoded (c : Code) (inf : Nat) (y : List Bool) {j : Nat} (hj : j < (c.decoded inf y).length) :
    (c.decoded inf y).getD j false = (c.decodedBits inf y).getD j false := by
  rw [List.getD_eq_getElem _ _ hj, List.getD_eq_getElem _ _ (hj.trans_le (List.length_take_le' _ _))]
  exact List.getElem_take

/-- Settles O44: DECODE stores exactly `Code.decoded` of the input. -/
theorem decodeWritesTheMessage : Obligations.DecodeWritesTheMessage := by
  intro s hp hcfg hin hpos hdvd hK hT hout
  have houtLen := decodeWritten_outLen_toNat hp hout
  have hstored := s.decoded_inputBits_length
  refine ⟨complete .none 0 0 (decodeWritten s),
    exec_decode_of_checked (decodeError_none.2 ⟨hcfg, hin, hpos, hdvd, hK, hT, hout⟩),
    complete_completed _ _ _ _, houtLen, by simp, fun j hj => ?_, fun j hj => ?_, fun a ha => ?_,
    ((storeOutBits_sameOperands _ s).withOutLen _).complete _ _ _,
    ((storeOutBits_sameActive _ s).withOutLen _).complete _ _ _, State.storeOutBits_result _ s⟩
  · rw [complete_outLen, houtLen] at hj
    rw [← Code.getD_decoded _ _ _ (hj.trans_eq hstored.symm)]
    exact (decodeWritten_outBit s j).trans (if_pos hj)
  · rw [complete_outLen, houtLen] at hj
    exact (decodeWritten_outBit s j).trans (if_neg (Nat.not_lt.2 hj))
  · rw [complete_outLen, houtLen, ← hstored] at ha
    exact State.byteAt_storeOutBits_other _ s a ha

/-! ### The round trip (R205) -/

/-- What a successful ENCODE leaves in the output buffer. -/
theorem exec_encode_written {s t : State} (hp : s.params.ok = true) (hk : 1 ≤ s.actK.toNat) (h : encodeError s = none)
    (ht : exec .encode s = .next t) :
    t.outLen.toNat = (s.activeCode.encoded s.inputBits).length ∧
      ∀ j, j < t.outLen.toNat → t.outBit j = (s.activeCode.encoded s.inputBits).getD j false := by
  obtain rfl : complete .none 0 0 (encodeWritten s) = t :=
    Host.Outcome.next.inj ((exec_encode_of_checked h).symm.trans ht)
  obtain ⟨-, -, hout⟩ := encodeError_none.1 h
  have hlen : (encodeWritten s).outLen.toNat = (s.activeCode.encoded s.inputBits).length :=
    (encodeWritten_outLen_toNat hp hout).trans (s.encoded_inputBits_length hk).symm
  exact ⟨hlen, fun j hj => (State.outBit_storeOutBits _ s j).trans (if_pos (hj.trans_eq hlen))⟩

theorem State.inputBits_eq {s : State} {bits : List Bool} (hlen : s.inLen.toNat = bits.length)
    (h : ∀ j, j < bits.length → s.inBit j = bits.getD j false) : s.inputBits = bits := by
  refine List.ext_getElem (by simp [hlen]) fun j _ hj => ?_
  rw [← List.getD_eq_getElem _ false hj, ← h j hj]
  simp [State.inputBits]

theorem State.getD_inputBits (s : State) {j : Nat} (hj : j < s.inLen.toNat) : s.inputBits.getD j false = s.inBit j := by
  simp [State.inputBits, hj]

/-- The checks of DECODE on an encoded sequence of at least one step. -/
theorem decodeError_of_codeword {s : State} {msg : List Bool} (hs : s.Inv) (hcfg : s.status.cfgValid = true)
    (hin : s.inLen.toNat ≤ s.params.inBits) (hlen : s.inLen.toNat = s.actN.toNat * (msg.length + (s.actK.toNat - 1)))
    (hpos : 0 < msg.length + (s.actK.toNat - 1)) (hT : msg.length + (s.actK.toNat - 1) ≤ s.params.tmax)
    (hout : msg.length ≤ s.params.outBits) :
    decodeError s = none ∧ s.trellisSteps = msg.length + (s.actK.toNat - 1) := by
  have hn : 0 < s.actN.toNat := s.activeCode_n ▸ (Code.valid_n (hs.activeValid hcfg)).1
  have hsteps : s.trellisSteps = msg.length + (s.actK.toNat - 1) := by
    rw [State.trellisSteps, hlen, Nat.mul_div_cancel_left _ hn]
  have hnonempty : s.inLen.toNat ≠ 0 := by
    rw [hlen]
    exact (Nat.mul_pos hn hpos).ne'
  refine ⟨decodeError_none.2 ⟨hcfg, hin, hnonempty, ?_, ?_, ?_, ?_⟩, hsteps⟩
  · rw [hlen, Nat.mul_mod_right]
  all_goals omega

/-- DECODE of a codeword of at least one step gives its message. -/
theorem exec_decode_of_codeword {s : State} {msg : List Bool} (hs : s.Inv) (hcfg : s.status.cfgValid = true)
    (hin : s.inLen.toNat ≤ s.params.inBits) (hcodeword : s.inputBits = s.activeCode.encoded msg)
    (hpos : 0 < msg.length + (s.actK.toNat - 1)) (hT : msg.length + (s.actK.toNat - 1) ≤ s.params.tmax)
    (hout : msg.length ≤ s.params.outBits) :
    ∃ u, exec .decode s = .next u ∧ Completed .none 0 0 u ∧ u.outLen.toNat = msg.length ∧
      ∀ j, j < msg.length → u.outBit j = msg.getD j false := by
  have hlen : s.inLen.toNat = s.actN.toNat * (msg.length + (s.actK.toNat - 1)) := by
    rw [← s.inputBits_length, hcodeword, Code.encoded, Code.emit_length, Code.flushed_length, s.activeCode_n,
      s.activeCode_k]
  obtain ⟨hchecked, hsteps⟩ := decodeError_of_codeword hs hcfg hin hlen hpos hT hout
  have hmsg : s.trellisSteps - (s.actK.toNat - 1) = msg.length := by omega
  refine ⟨_, exec_decode_of_checked hchecked, complete_completed _ _ _ _,
    (decodeWritten_outLen_toNat hs.paramsOk (by omega)).trans hmsg, fun j hj => ?_⟩
  have hdecoded := Code.decoded_encoded hs.paramsOk (hs.activeValid hcfg) (msg := msg) hT
  rw [← hcodeword] at hdecoded
  rw [← hdecoded]
  exact (decodeWritten_outBit s j).trans (if_pos (by omega))

/-- DECODE of the empty sequence is a LengthError (R191). -/
theorem exec_decode_of_empty {s : State} (hcfg : s.status.cfgValid = true) (h : s.inLen = 0) :
    exec .decode s = .next (complete .length 1 0 { s with outLen := 0 }) := by
  have herr : decodeError s = some (.length, 1) := by
    simp [decodeError, hcfg, h]
  obtain ⟨t, ht⟩ := exec_next .decode s
  obtain ⟨e, he, rfl⟩ | ⟨hnone, -⟩ := execDecode_spec ht
  · obtain rfl := Option.some.inj (herr.symm.trans he)
    exact ht
  · exact nomatch herr.symm.trans hnone

/-- Settles O52: the second state holds the codeword of the first one's message, and a codeword has one message. -/
theorem decodeUndoesEncode : Obligations.DecodeUndoesEncode := by
  intro s t s' hs hs' hcfg hcfg' hparams hcode hin hout hin' hT hencode hlen' hbits'
  have hk : 1 ≤ s.actK.toNat := (Code.valid_k (hs.activeValid hcfg)).1
  have hn : 1 ≤ s.actN.toNat := s.activeCode_n ▸ (Code.valid_n (hs.activeValid hcfg)).1
  have hcodeLen := s.activeCode_encodedLength s.inLen.toNat
  obtain ⟨hlen, hbits⟩ := exec_encode_written hs.paramsOk hk (encodeError_none.2 ⟨hcfg, hin, hcodeLen ▸ hout⟩) hencode
  rw [← hcodeLen, ← s.encoded_inputBits_length hk, ← hlen] at hin'
  have hcodeword : s'.inputBits = s'.activeCode.encoded s.inputBits := by
    rw [hcode]
    refine State.inputBits_eq (by rw [hlen', hlen]) fun j hj => ?_
    rw [hbits' j (by omega), hbits j (by omega)]
  have hactK : s'.actK.toNat = s.actK.toNat := congrArg Code.k hcode
  refine ⟨fun hexcept => ?_, fun ⟨hone, hempty⟩ => ?_⟩
  · have hsteps : 0 < s.inLen.toNat + (s.actK.toNat - 1) := by
      by_contra hzero
      exact hexcept ⟨by omega, BitVec.eq_of_toNat_eq (show s.inLen.toNat = 0 by omega)⟩
    have hmsg : s.inLen.toNat ≤ s.params.outBits := by
      have := Nat.le_mul_of_pos_left (s.inLen.toNat + s.actK.toNat - 1) hn
      omega
    have hdecode := exec_decode_of_codeword hs' hcfg' (by rwa [hlen', hparams]) hcodeword
    rw [s.inputBits_length, hactK, hparams] at hdecode
    obtain ⟨u, hu, hdone, hulen, hubits⟩ := hdecode hsteps (by omega) hmsg
    exact ⟨u, hu, hdone, BitVec.eq_of_toNat_eq hulen, fun j hj => (hubits j hj).trans (s.getD_inputBits hj)⟩
  · have hnone : t.outLen = 0 := by
      apply BitVec.eq_of_toNat_eq
      rw [hlen, s.encoded_inputBits_length hk, hcodeLen, hone, hempty]
      rfl
    exact ⟨hnone, _, exec_decode_of_empty hcfg' (hlen'.trans hnone), complete_completed _ _ _ _, rfl⟩

end Sys2Proof.Machine
end

section
/-!
PROOFS. The family `60_exceptions.md`: what a command that ends with an error has written (R250), and how the interrupt
follows DONE and IE (R253).
-/

namespace Sys2Proof.Machine

/-! ### What a failing command writes (R250) -/

/-- The state that a command ending with an error completes: CONFIGURE has cleared the active configuration, ENCODE and
DECODE have set OUT_LEN to 0. -/
def beforeError (s : State) : Instr → State
  | .configure _ => clearConfig s
  | .encode | .decode => { s with outLen := 0 }
  | .nop | .revbits _ => s

theorem beforeError_sameOperands (s : State) (i : Instr) : SameOperands s (beforeError s i) := by
  cases i with
  | configure rev => exact clearConfig_sameOperands s
  | encode | decode => exact (SameOperands.refl s).withOutLen 0
  | nop | revbits width => exact .refl s

theorem beforeError_sameBytes (s : State) (i : Instr) : SameBytes s (beforeError s i) := by
  cases i <;> exact State.byteAt_congr rfl rfl

@[simp] theorem beforeError_result (s : State) (i : Instr) : (beforeError s i).result = s.result := by
  cases i <;> rfl

/-- A command that does not complete with success has written `beforeError` and nothing more. -/
theorem exec_of_error {i : Instr} {s t : State} (h : exec i s = .next t) (hcode : t.status.code ≠ .none) :
    ∃ code sub idx, t = complete code sub idx (beforeError s i) := by
  cases i with
  | nop => exact ⟨_, _, _, execNop_spec h⟩
  | configure rev =>
    obtain ⟨e, -, ht⟩ | ⟨-, rfl⟩ := execConfigure_spec h
    · exact ⟨_, _, _, ht⟩
    · exact absurd rfl hcode
  | encode =>
    obtain ⟨e, -, ht⟩ | ⟨-, rfl⟩ := execEncode_spec h
    · exact ⟨_, _, _, ht⟩
    · exact absurd rfl hcode
  | decode =>
    obtain ⟨e, -, ht⟩ | ⟨-, rfl⟩ := execDecode_spec h
    · exact ⟨_, _, _, ht⟩
    · exact absurd rfl hcode
  | revbits width =>
    obtain ⟨-, ht⟩ | ⟨-, rfl⟩ := execRevbits_spec h
    · exact ⟨_, _, _, ht⟩
    · exact absurd rfl hcode

/-- Every error of CONFIGURE is a ConfigurationError (R243). -/
theorem exec_configure_code {rev : Bool} {s t : State} (h : exec (.configure rev) s = .next t)
    (hcode : t.status.code ≠ .none) : t.status.code = .config := by
  obtain ⟨e, -, rfl⟩ | ⟨-, rfl⟩ := execConfigure_spec h
  · rfl
  · exact absurd rfl hcode

/-- Settles O24: an illegal word only completes, and a failing command completes `beforeError`. -/
theorem errorsChangeOnlyTheirFields : Obligations.ErrorsChangeOnlyTheirFields := by
  refine ⟨fun s e hs he => step_frame_of_onlyCompletes (step_of_illegalWord hs he), fun i s t h hcode => ?_⟩
  obtain ⟨code, sub, idx, rfl⟩ := exec_of_error h hcode
  refine ⟨rfl, rfl, decide_eq_true hcode, (beforeError_sameOperands s i).complete _ _ _, beforeError_sameBytes s i,
    beforeError_result s i, ?_, ?_, ?_⟩
  · rintro rev rfl
    exact ⟨noConfig_clearConfig _ _ _ s, rfl, exec_configure_code h hcode⟩
  · rintro (rfl | rfl) <;> exact ⟨exec_sameActive h nofun, rfl⟩
  · rintro (rfl | ⟨width, rfl⟩) <;> exact ⟨exec_sameActive h nofun, rfl⟩

/-! ### The interrupt (R253) -/

/-- A host write that has a step is `writeOffset` at its offset. -/
theorem next_of_hostWrites {s t : State} {off : Nat} {v : Word} (h : step s = .next t) (hw : hostWrites s off v) :
    t = writeOffset off v s.popped := by
  rw [step_of_head hw] at h
  obtain ⟨_, _, _, he, -⟩ | ⟨addr, size, v', off', he, hoff, rfl⟩ | ⟨he, -⟩ | ⟨he, -⟩ | ⟨he, -⟩ := serve_spec h <;>
    cases he
  obtain ⟨-, haddr, -⟩ := admitted_of_admitOffset hoff
  rw [Nat.add_left_cancel haddr]

theorem exec_irq {i : Instr} {s t : State} (h : exec i s = .next t) : t.irq = s.ie := by
  obtain ⟨m, code, sub, idx, rfl, -, hops, -⟩ := exec_completes h
  simp [State.irq, hops.ie]

/-- Whatever the accepted word, its execution ends with DONE set (R105). -/
theorem step_done_of_engineRuns {s t : State} (h : step s = .next t) (hs : engineRuns s) : t.status.done = true := by
  cases hdec : decodeWord s.engine.latched with
  | ok i =>
    rw [step_of_runsCommand ⟨hs, hdec⟩] at h
    obtain ⟨m, code, sub, idx, rfl, -⟩ := exec_completes h
    rfl
  | error e =>
    rw [step_of_illegalWord hs hdec] at h
    cases h
    rfl

/-- DONE falls by a one written to it, by acceptance of a command or by reset: the other ways a step treats STATUS
(`step_status_cases`) keep or set it. -/
theorem step_done_falls {s t : State} (h : step s = .next t) (h1 : s.status.done = true) (h0 : t.status.done = false) :
    (∃ v, hostWrites s 0x14 v ∧ v.getLsbD 1 = true) ∨ (s.status.busy = false ∧ ∃ w, hostWrites s 0x18 w) ∨
      assertsReset s := by
  obtain ht | hreset | ⟨hruns, -⟩ | ⟨-, -, ht⟩ | ⟨hb, hcmd, -⟩ | ⟨v, hw, ht⟩ := step_status_cases h
  · simp [ht, h1] at h0
  · exact .inr (.inr hreset)
  · simp [step_done_of_engineRuns h hruns] at h0
  · simp [ht, h1] at h0
  · exact .inr (.inl ⟨hb, hcmd⟩)
  · exact .inl ⟨v, hw, by simpa [ht, h1] using h0⟩

/-- Settles O25: each write's effect on STATUS and IE, and `step_done_falls`. -/
theorem interruptFollowsDoneAndEnable : Obligations.InterruptFollowsDoneAndEnable := by
  refine ⟨fun _ => rfl, fun _ _ _ => exec_irq, fun s t v h hw hv => ?_, fun s t w h hb hw => ?_,
    fun s t h hreset => ?_, fun s t v h hw => ?_, fun _ _ => step_done_falls⟩
  · rw [next_of_hostWrites h hw, writeOffset_at_status]
    simp [State.irq, hv]
  · rw [next_of_hostWrites h hw, writeOffset_at_cmd (s := s.popped) w hb]
    rfl
  · rw [step_of_head hreset] at h
    cases h
    rfl
  · rw [next_of_hostWrites h hw, writeOffset_at_ctrl]
    exact ⟨rfl, rfl⟩

end Sys2Proof.Machine
end

section
/-!
PROOFS. The host's window (`20_memory.md`): the map region by region (R62), what a read returns at each offset (R65,
R68, R70), what a write replaces (R65, R69), and which accesses are no step (R61); with the STATUS word (`10_state.md`
R26).
-/

namespace Sys2Proof.Machine

/-! ### The map, region by region (R62) -/

section
variable {p : Params} {off : Nat}

theorem regAt_fixed (h : off < 0x40) : regAt p off = fixedReg off := if_pos h

theorem regAt_cfgPolys (hlo : 0x40 ≤ off) (hhi : off < 0xC0) : regAt p off = slotReg .cfgPoly 0x40 p.nmax off := by
  rw [regAt, if_neg (by omega), if_pos hhi]

theorem regAt_actPolys (hlo : 0xC0 ≤ off) (hhi : off < 0x140) : regAt p off = slotReg .actPoly 0xC0 p.nmax off := by
  rw [regAt, if_neg (by omega), if_neg (by omega), if_pos hhi]

theorem regAt_gap (hlo : 0x140 ≤ off) (hhi : off < 0x10000) : regAt p off = .reserved := by
  rw [regAt, if_neg (by omega), if_neg (by omega), if_neg (by omega), if_pos hhi]

theorem regAt_inBufs (hlo : 0x10000 ≤ off) (hhi : off < 0x20000) :
    regAt p off = slotReg .inBuf inBase p.inWords off := by
  rw [regAt, if_neg (by omega), if_neg (by omega), if_neg (by omega), if_neg (by omega), if_pos hhi]

theorem regAt_outBufs (hlo : 0x20000 ≤ off) (hhi : off < 0x30000) :
    regAt p off = slotReg .outBuf outBase p.outWords off := by
  rw [regAt, if_neg (by omega), if_neg (by omega), if_neg (by omega), if_neg (by omega), if_neg (by omega), if_pos hhi]

theorem regAt_top (h : 0x30000 ≤ off) : regAt p off = .reserved := by
  rw [regAt, if_neg (by omega), if_neg (by omega), if_neg (by omega), if_neg (by omega), if_neg (by omega),
    if_neg (by omega)]

end

theorem slotReg_slot (mk : Nat → Reg) (start count i : Nat) :
    slotReg mk start count (start + 4 * i) = if i < count then mk i else .reserved := by
  have hslot : (start + 4 * i - start) / 4 = i := by omega
  rw [slotReg, hslot]

/-! The slots of each array, and what is reserved past its end. -/

section
variable (p : Params)

theorem regAt_cfgPoly {i : Nat} (hi : i < 32) :
    regAt p (0x040 + 4 * i) = if i < p.nmax then .cfgPoly i else .reserved := by
  rw [regAt_cfgPolys (by omega) (by omega), slotReg_slot]

theorem regAt_actPoly {i : Nat} (hi : i < 32) :
    regAt p (0x0C0 + 4 * i) = if i < p.nmax then .actPoly i else .reserved := by
  rw [regAt_actPolys (by omega) (by omega), slotReg_slot]

theorem regAt_inBuf {w : Nat} (hw : w < 16384) :
    regAt p (0x10000 + 4 * w) = if w < p.inWords then .inBuf w else .reserved := by
  rw [regAt_inBufs (by omega) (by omega)]
  exact slotReg_slot _ inBase _ _

theorem regAt_outBuf {w : Nat} (hw : w < 16384) :
    regAt p (0x20000 + 4 * w) = if w < p.outWords then .outBuf w else .reserved := by
  rw [regAt_outBufs (by omega) (by omega)]
  exact slotReg_slot _ outBase _ _

end

/-- Settles O15: the single registers by evaluation, the rest by each region's lemma. -/
theorem windowMap : Obligations.WindowMap := by
  intro p _
  exact ⟨rfl, rfl, rfl, rfl, rfl, rfl, rfl, rfl, rfl, rfl, rfl, rfl, rfl, rfl, rfl, rfl, fun _ => regAt_cfgPoly p,
    fun _ => regAt_actPoly p, fun _ => regAt_gap, fun _ => regAt_inBuf p, fun _ => regAt_outBuf p,
    fun _ h _ => regAt_top h⟩

theorem fixedReg_ne_inBuf (off w : Nat) : fixedReg off ≠ .inBuf w := by
  intro h
  simp [fixedReg, ite_eq_iff] at h

/-- Only the words of the input buffer read as such, each at its own offset. -/
theorem regAt_eq_inBuf {p : Params} {off w : Nat} (h : regAt p off = .inBuf w) :
    w < p.inWords ∧ inBase ≤ off ∧ w = (off - inBase) / 4 := by
  unfold regAt at h
  split_ifs at h with hfix hcfg hact hgap hin hout
  · exact absurd h (fixedReg_ne_inBuf off w)
  all_goals unfold slotReg at h
  · split_ifs at h
  · split_ifs at h
  · split_ifs at h with hslot
    cases h
    exact ⟨hslot, by unfold inBase; omega, rfl⟩
  · split_ifs at h

/-! ### What a read returns (R65, R68, R70) -/

@[simp] theorem State.popped_regValue (s : State) (r : Reg) : s.popped.regValue r = s.regValue r := by
  cases r <;> rfl

/-- A read whose value is defined: not a result while BUSY = 1. -/
theorem readOffset_defined {off : Nat} {s : State}
    (h : ¬(s.status.busy = true ∧ (regAt s.params off).volatile = true)) :
    readOffset off s = { s with readData := s.regValue (regAt s.params off) } := by
  rw [readOffset, if_neg (by rwa [Bool.and_eq_true])]

theorem readOffset_idle (off : Nat) {s : State} (hb : s.status.busy = false) :
    readOffset off s = { s with readData := s.regValue (regAt s.params off) } :=
  readOffset_defined fun h => Bool.false_ne_true (hb.symm.trans h.1)

theorem readOffset_undefined {off : Nat} {s : State} (hb : s.status.busy = true)
    (hv : (regAt s.params off).volatile = true) :
    readOffset off s = { s with readData := Config.busyRead s.draws, draws := s.draws + 1 } := by
  rw [readOffset, hb, hv]
  rfl

theorem fixedReg_volatile_iff :
    ∀ off, off < 0x40 → ((fixedReg off).volatile = true ↔
      off = 0x02C ∨ off = 0x034 ∨ off = 0x038 ∨ off = 0x03C) := by
  decide

/-- A slot reads as a result exactly below the array's end, when the array's registers do. -/
theorem slotReg_volatile_iff {mk : Nat → Reg} {start count off : Nat} (hmk : ∀ i, (mk i).volatile = true)
    (hs : start ≤ off) : (slotReg mk start count off).volatile = true ↔ off < start + 4 * count := by
  by_cases h : off < start + 4 * count
  · simp [slotReg_of_lt mk hs h, hmk, h]
  · simp [slotReg_of_le mk (Nat.le_of_not_lt h), Reg.volatile, h]

theorem slotReg_not_volatile {mk : Nat → Reg} (start count off : Nat) (hmk : ∀ i, (mk i).volatile = false) :
    (slotReg mk start count off).volatile = false := by
  unfold slotReg
  split
  · exact hmk _
  · rfl

/-- The results of R68, by offset. -/
theorem regAt_volatile_iff (p : Params) (off : Nat) :
    (regAt p off).volatile = true ↔
      off = 0x02C ∨ off = 0x034 ∨ off = 0x038 ∨ off = 0x03C ∨
      (0x0C0 ≤ off ∧ off < 0x0C0 + 4 * min 32 p.nmax) ∨
      (0x20000 ≤ off ∧ off < 0x20000 + 4 * min 16384 p.outWords) := by
  unfold regAt
  split_ifs with hfix hcfg hact hgap hin hout
  · rw [fixedReg_volatile_iff off hfix]
    omega
  · exact iff_of_false (Bool.eq_false_iff.1 (slotReg_not_volatile _ _ _ fun _ => rfl)) (by omega)
  · rw [slotReg_volatile_iff (fun _ => rfl) (by omega)]
    omega
  · exact iff_of_false Bool.false_ne_true (by omega)
  · exact iff_of_false (Bool.eq_false_iff.1 (slotReg_not_volatile _ _ _ fun _ => rfl)) (by omega)
  · rw [slotReg_volatile_iff (fun _ => rfl) (by unfold outBase; omega), outBase]
    omega
  · exact iff_of_false Bool.false_ne_true (by omega)

/-- The parameters fit the fields of PARAM0, PARAM1 and PARAM2 (`10_state.md` R22 to R24). -/
theorem Params.words_toNat {p : Params} (h : p.ok = true) :
    (Params.word0 p).toNat = p.kmax + 2 ^ 5 * p.nmax + 2 ^ 11 * p.mw ∧
    (Params.word1 p).toNat = p.inWords + 2 ^ 16 * p.outWords ∧ (BitVec.ofNat 32 p.tmax).toNat = p.tmax := by
  simp only [Params.ok, Bool.and_eq_true, decide_eq_true_eq] at h
  have hroom : 2 ^ p.mw ≤ 2 ^ 32 := Nat.pow_le_pow_right (by decide) (by omega)
  have htmax : p.tmax ≤ p.tmax * p.nmax := Nat.le_mul_of_pos_right _ (by omega)
  unfold Params.word0 Params.word1
  simp only [toNat_append, BitVec.toNat_ofNat]
  omega

/-- The bits of a buffer word, packed least significant first (R64), and its byte lanes (R69). -/
theorem State.getLsbD_bufferWord (s : State) (base w : Nat) {b : Nat} (hb : b < 32) :
    (s.wordAt (base + 4 * w)).getLsbD b = (s.wordAt (base + 4 * ((32 * w + b) / 32))).getLsbD ((32 * w + b) % 32) ∧
      (s.wordAt (base + 4 * w)).getLsbD b = (s.byteAt (base + 4 * w + b / 8)).getLsbD (b % 8) := by
  have hword : (32 * w + b) / 32 = w := by omega
  have hbit : (32 * w + b) % 32 = b := by omega
  rw [hword, hbit]
  exact ⟨rfl, s.getLsbD_wordAt _ b hb⟩

/-- Settles O16: the value at each offset is `State.regValue` of what the map names there. -/
theorem readsReturnTheNamedValue : Obligations.ReadsReturnTheNamedValue := by
  intro s off ha hr
  refine ⟨_, step_of_hostReads ha hr, fun hdef => ?_, fun hb hv => ?_, regAt_volatile_iff s.params off⟩
  · rw [readOffset_defined (s := s.popped) hdef]
    have hreg {r : Reg} (h : regAt s.params off = r) :
        s.popped.regValue (regAt s.popped.params off) = s.popped.regValue r := by
      rw [State.popped_params, h]
    refine ⟨rfl, fun hp => ?_, ?_, ?_, ?_, ?_, ?_, ?_, ?_, ?_, ?_, ?_, ?_, ?_, ?_, ?_, ?_⟩
    · obtain ⟨h0, h1, h2⟩ := Params.words_toNat hp
      refine ⟨?_, ?_, ?_⟩ <;> rintro rfl
      · exact h0
      · exact h1
      · exact h2
    · rintro rfl
      exact (BitVec.toNat_setWidth_of_le (by decide)).trans (BitVec.toNat_ofBool s.ie)
    · rintro rfl; rfl
    · rintro rfl; rfl
    · rintro rfl
      exact BitVec.toNat_setWidth_of_le (by decide)
    · rintro rfl
      exact BitVec.toNat_setWidth_of_le (by decide)
    · rintro rfl; rfl
    · rintro rfl; rfl
    · rintro rfl; rfl
    · rintro rfl; rfl
    · rintro rfl
      exact BitVec.toNat_setWidth_of_le (by decide)
    · rintro rfl
      exact BitVec.toNat_setWidth_of_le (by decide)
    · rintro i hi hn rfl
      exact hreg ((regAt_cfgPoly _ hi).trans (if_pos hn))
    · rintro i hi hn rfl
      exact hreg ((regAt_actPoly _ hi).trans (if_pos hn))
    · rintro w hw hn rfl b hb
      rw [hreg ((regAt_inBuf _ hw).trans (if_pos hn))]
      exact s.getLsbD_bufferWord inBase w hb
    · rintro w hw hn rfl b hb
      rw [hreg ((regAt_outBuf _ hw).trans (if_pos hn))]
      exact s.getLsbD_bufferWord outBase w hb
  · rw [readOffset_undefined (s := s.popped) hb hv]
    rfl

/-! ### What a write replaces (R65, R69) -/

@[simp] theorem State.writeReg_params (s : State) (v : Word) (r : Reg) : (s.writeReg v r).params = s.params := by
  cases r <;> rfl

@[simp] theorem State.writeReg_rst (s : State) (v : Word) (r : Reg) : (s.writeReg v r).rst = s.rst := by
  cases r <;> rfl

theorem State.writeReg_sameResults (s : State) (v : Word) (r : Reg) : SameResults s (s.writeReg v r) := by
  cases r <;> constructor <;> rfl

/-- A write reaches the bytes of the input buffer word it names, and no other byte. -/
theorem State.byteAt_writeReg (s : State) (v : Word) {r : Reg} {a : Nat}
    (h : ∀ w, r = .inBuf w → a < inBase + 4 * w ∨ inBase + 4 * w + 4 ≤ a) : (s.writeReg v r).byteAt a = s.byteAt a := by
  cases r with
  | inBuf w => exact s.byteAt_storeWord_other _ a v (h w rfl)
  | _ => rfl

theorem State.cfgPolyAt_writeReg_same (s : State) (v : Word) {i : Nat} (hi : i < s.cfgPoly.length) :
    (s.writeReg v (.cfgPoly i)).cfgPolyAt i = v := by
  simp [State.writeReg, State.cfgPolyAt, hi]

theorem State.cfgPolyAt_writeReg_other (s : State) (v : Word) {i j : Nat} (h : j ≠ i) :
    (s.writeReg v (.cfgPoly i)).cfgPolyAt j = s.cfgPolyAt j := by
  simp [State.writeReg, State.cfgPolyAt, List.getElem?_set_ne h.symm]

theorem writeOffset_idle (off : Nat) (v : Word) {s : State} (hb : s.status.busy = false) :
    writeOffset off v s = s.writeReg v (regAt s.params off) := by
  simp [writeOffset, hb]

/-- The input buffer's words end where the output buffer begins. -/
theorem regAt_inBuf_below {p : Params} (hp : p.ok = true) {off w : Nat} (h : regAt p off = .inBuf w) :
    inBase + 4 * w + 4 ≤ outBase := by
  obtain ⟨-, hsize, -⟩ := Params.ok_sizes hp
  obtain ⟨hw, -⟩ := regAt_eq_inBuf h
  unfold inBase outBase
  omega

theorem State.Inv.popped {s : State} (h : s.Inv) : s.popped.Inv :=
  { h with }

/-- A register of `n` bits reads back masked. -/
theorem setWidth_setWidth_word (v : Word) {n : Nat} (hn : n ≤ 32) :
    (v.setWidth n).setWidth 32 = v &&& BitVec.ofNat 32 (2 ^ n - 1) := by
  have hmask : 2 ^ n - 1 < 2 ^ 32 :=
    (Nat.sub_lt (Nat.two_pow_pos n) Nat.one_pos).trans_le (Nat.pow_le_pow_right (by decide) hn)
  apply BitVec.eq_of_toNat_eq
  rw [BitVec.toNat_setWidth_of_le hn, BitVec.toNat_and, BitVec.toNat_ofNat, Nat.mod_eq_of_lt hmask,
    Nat.and_two_pow_sub_one_eq_mod, BitVec.toNat_setWidth]

theorem ofBool_getLsbD_zero (v : Word) : BitVec.ofBool (v.getLsbD 0) = v.setWidth 1 := by
  apply BitVec.eq_of_getLsbD_eq
  intro i hi
  obtain rfl : i = 0 := by omega
  simp

/-- A read-write register or a word of the input buffer, with the mask of its field (`10_state.md` R21). -/
def maskedOffset (p : Params) (off : Nat) (mask : Word) : Prop :=
  off = 0x010 ∧ mask = 0x1 ∨ off = 0x020 ∧ mask = 0x1F ∨ off = 0x024 ∧ mask = 0x3F ∨
    (off = 0x028 ∨ off = 0x030 ∨ (0x040 ≤ off ∧ off < 0x040 + 4 * p.nmax) ∨
      (0x10000 ≤ off ∧ off < 0x10000 + 4 * p.inWords)) ∧ mask = 0xFFFFFFFF

theorem regValue_writeReg {s : State} (hs : s.Inv) (v : Word) {off : Nat} {mask : Word} (h4 : off % 4 = 0)
    (h : maskedOffset s.params off mask) :
    (s.writeReg v (regAt s.params off)).regValue (regAt s.params off) = v &&& mask := by
  obtain ⟨hn, hi, -⟩ := Params.ok_sizes hs.paramsOk
  obtain ⟨rfl, rfl⟩ | ⟨rfl, rfl⟩ | ⟨rfl, rfl⟩ | ⟨hoff, rfl⟩ := h
  · exact (congrArg (·.setWidth 32) (ofBool_getLsbD_zero v)).trans (setWidth_setWidth_word v (by decide))
  · exact setWidth_setWidth_word v (by decide)
  · exact setWidth_setWidth_word v (by decide)
  · have hall : v &&& 0xFFFFFFFF = v := BitVec.and_allOnes
    rw [hall]
    obtain rfl | rfl | ⟨hlo, hhi⟩ | ⟨hlo, hhi⟩ := hoff
    · rfl
    · rfl
    · obtain ⟨i, rfl⟩ : ∃ i, off = 0x040 + 4 * i := ⟨(off - 0x040) / 4, by omega⟩
      have hslot : i < s.params.nmax := by omega
      rw [regAt_cfgPoly _ (by omega), if_pos hslot]
      exact s.cfgPolyAt_writeReg_same v (hs.cfgPolyCount ▸ hslot)
    · obtain ⟨w, rfl⟩ : ∃ w, off = 0x10000 + 4 * w := ⟨(off - 0x10000) / 4, by omega⟩
      rw [regAt_inBuf _ (by omega), if_pos (by omega)]
      exact s.wordAt_storeWord_same _ v

/-- A word of the input buffer reads back bit by bit. -/
theorem State.inBit_storeWord (s : State) (w : Nat) (v : Word) {b : Nat} (hb : b < 32) :
    (s.storeWord (inBase + 4 * w) v).inBit (32 * w + b) = v.getLsbD b := by
  have hbit := ((s.storeWord (inBase + 4 * w) v).getLsbD_bufferWord inBase w hb).1
  rw [s.wordAt_storeWord_same] at hbit
  exact hbit.symm

/-- A write there leaves STATUS: neither STATUS nor CMD is among them. -/
theorem writeReg_status_of_masked {s : State} {v mask : Word} {off : Nat} (h : maskedOffset s.params off mask) :
    (s.writeReg v (regAt s.params off)).status = s.status := by
  unfold maskedOffset at h
  obtain ⟨hr, -⟩ | ⟨hr, -⟩ | h := s.writeReg_status v (regAt s.params off)
  · have := regAt_cmd_or_status.1 hr
    omega
  · have := regAt_cmd_or_status.2 hr
    omega
  · exact h

/-- Settles O18: an idle write is `State.writeReg`, whose frame and read-back are the lemmas above. -/
theorem writtenRegistersReadBack : Obligations.WrittenRegistersReadBack := by
  intro s off v mask hs hb ha hw hoff
  obtain ⟨hn, hi, -⟩ := Params.ok_sizes hs.paramsOk
  have hstatus : (s.popped.writeReg v (regAt s.params off)).status = s.status := writeReg_status_of_masked hoff
  have hresults := s.popped.writeReg_sameResults v (regAt s.params off)
  refine ⟨s.popped.writeReg v (regAt s.params off), ?_, ?_, ?_, ?_, ?_, ?_, fun i hslot hoff' => ?_,
    fun w hword hoff' => ?_, (s.popped.writeReg_sameActive v _).of_popped, ⟨hresults.outLen, hresults.result⟩, hstatus,
    fun j => ?_, fun hr => ?_⟩
  · exact (step_of_hostWrites ha hw).trans (congrArg _ (writeOffset_idle (s := s.popped) off v hb))
  · rintro rfl; rfl
  · rintro rfl
    rw [← BitVec.setWidth_eq_extractLsb' (by decide)]
    rfl
  · rintro rfl
    rw [← BitVec.setWidth_eq_extractLsb' (by decide)]
    rfl
  · rintro rfl; rfl
  · rintro rfl; rfl
  · rw [hoff', regAt_cfgPoly _ (by omega), if_pos hslot]
    exact ⟨rfl, List.length_set, s.popped.cfgPolyAt_writeReg_same v (hs.cfgPolyCount ▸ hslot),
      fun j => s.popped.cfgPolyAt_writeReg_other v⟩
  · rw [hoff', regAt_inBuf _ (by omega), if_pos hword]
    exact ⟨rfl, fun b => s.popped.inBit_storeWord w v, fun a => s.popped.byteAt_storeWord_other _ a v⟩
  · rw [State.outBit_eq, State.outBit_eq, State.byteAt_writeReg _ _ fun w hr => ?_]
    · rfl
    · have := regAt_inBuf_below hs.paramsOk hr
      omega
  · have ht : admitted (s.popped.writeReg v (regAt s.params off)) off := ⟨(State.writeReg_rst _ _ _).trans ha.1, ha.2⟩
    have hidle : (s.popped.writeReg v (regAt s.params off)).popped.status.busy = false := by
      rw [State.popped_status, hstatus, hb]
    refine ⟨_, step_of_hostReads ht hr, ?_⟩
    rw [readOffset_idle _ hidle, State.popped_regValue, State.popped_params, State.writeReg_params]
    exact regValue_writeReg hs.popped v ha.2.1 hoff

/-! ### The STATUS word (R26, R242) -/

/-- Settles O17: the word is a concatenation, read as a number field by field. -/
theorem statusWordLayout : Obligations.StatusWordLayout := by
  refine ⟨fun s => ?_, rfl, rfl, rfl, rfl, rfl⟩
  simp only [State.regValue, Status.word, toNat_append, BitVec.toNat_ofBool, BitVec.toNat_ofNat]
  omega

/-! ### Accesses that are no step (R61, U5) -/

/-- A read or a write stops by the fault of `admitOffset`, and has a step when there is none. -/
theorem step_of_access {s : State} {addr size : Nat} {v : Word}
    (h : s.schedule.head? = some (.hostRead addr size) ∨ s.schedule.head? = some (.hostWrite addr size v)) :
    (∀ f, admitOffset s addr size = .error f → step s = .fault f) ∧
      (∀ off, admitOffset s addr size = .ok off → safeStep s) := by
  refine ⟨fun f (hf : admitOffset s.popped addr size = .error f) => ?_,
    fun off (hoff : admitOffset s.popped addr size = .ok off) => ?_⟩
  · obtain h | h := h <;> rw [step_of_head h] <;> simp only [serve, hostRead, hostWrite, hf]
  · obtain h | h := h
    · exact ⟨readOffset off s.popped, by rw [step_of_head h]; simp only [serve, hostRead, hoff]⟩
    · exact ⟨writeOffset off v s.popped, by rw [step_of_head h]; simp only [serve, hostWrite, hoff]⟩

/-- Settles O22: the checks of `admitOffset` in their order. -/
theorem unadmittedAccessesStop : Obligations.UnadmittedAccessesStop := by
  intro s addr size v h
  obtain ⟨hfault, hsafe⟩ := step_of_access h
  refine ⟨fun hr => hfault _ ?_, fun hr hout => hfault _ ?_, fun hr hlo hhi hbad => hfault _ ?_,
    fun hr hlo hhi hsize h4 => hsafe (addr - s.params.base) ?_⟩
  · rw [admitOffset, if_pos hr]
  · rw [admitOffset, if_neg (by simp [hr]), if_pos hout]
  · rw [admitOffset, if_neg (by simp [hr]), if_neg (by omega), if_pos hbad]
  · rw [admitOffset, if_neg (by simp [hr]), if_neg (by omega), if_neg (by omega)]

end Sys2Proof.Machine
end

section
/-!
PROOFS. The invariant: the reset state meets it (`70_reset_and_hazards.md` R281), each write of the machine keeps it,
and so every step does.
-/

namespace Sys2Proof.Machine

/-! ### The reset state (R281) -/

theorem Params.nmax_pos {p : Params} (h : p.ok = true) : 0 < p.nmax := by
  simp only [Params.ok, Bool.and_eq_true, decide_eq_true_eq] at h
  omega

theorem Params.kmax_le {p : Params} (h : p.ok = true) : p.kmax ≤ 31 := by
  simp only [Params.ok, Bool.and_eq_true, decide_eq_true_eq] at h
  omega

theorem Engine.reset_fits (p : Params) : Engine.reset.Fits p where
  sr := Nat.two_pow_pos _
  pm := nofun
  pmCount := Nat.zero_le _
  pmem := nofun
  pmemRow := nofun
  pmemDepth := Nat.zero_le _
  tbS := Nat.two_pow_pos _
  tbT := Nat.zero_le _

theorem inv_resetWith {p : Params} (hp : p.ok = true) (rst : Bool) (resets draws : Nat) (schedule : List Event)
    (readData : Word) : ({ State.resetWith p resets draws schedule readData with rst := rst } : State).Inv where
  paramsOk := hp
  memWf := rfl
  memInBuffers := nofun
  cfgPolyCount := List.length_replicate
  actPolyCount := List.length_replicate
  activeValid := nofun
  activeAbsent := fun _ => ⟨rfl, rfl⟩
  unusedPolys := fun _ _ => List.getElem?_getD_replicate_default_eq _ _ _
  busyClear := nofun
  noError := fun _ => ⟨rfl, rfl, rfl⟩
  indexMeaning := fun h => absurd rfl h
  indexBound := Params.nmax_pos hp
  resetIdle := fun _ => rfl
  outLenFits := Nat.zero_le _
  engineFits := Engine.reset_fits p

/-- The registers as the host reads them in the reset state. -/
theorem resetValues_resetWith {p : Params} (hp : p.ok = true) (rst : Bool) (resets draws : Nat) (schedule : List Event)
    (readData : Word) :
    ResetValues p ({ State.resetWith p resets draws schedule readData with rst := rst } : State) where
  params := rfl
  param0 := by
    rw [← (Params.words_toNat hp).1, BitVec.ofNat_toNat]
    exact (BitVec.setWidth_eq _).symm
  param1 := by
    rw [← (Params.words_toNat hp).2.1, BitVec.ofNat_toNat]
    exact (BitVec.setWidth_eq _).symm
  param2 := rfl
  ctrl := rfl
  status := (by decide : Status.reset.word = 0)
  cmd := rfl
  cfgK := rfl
  cfgN := rfl
  cfgPoly := fun _ _ => List.getElem?_getD_replicate_default_eq _ _ _
  inLen := rfl
  outLen := rfl
  arg := rfl
  result := rfl
  actK := rfl
  actN := rfl
  actPoly := fun _ _ => List.getElem?_getD_replicate_default_eq _ _ _
  irq := rfl
  ovr := rfl

/-- Settles O5: both steps lead to `State.resetWith` of the same parameters, with `rst` at its level. -/
theorem resetLeavesTheResetValues : Obligations.ResetLeavesTheResetValues := by
  intro s hp hreset
  have hvalues : ResetValues s.params (assertReset s.popped) := resetValues_resetWith hp true _ _ _ _
  refine ⟨assertReset s.popped, step_of_head hreset, hvalues, rfl, rfl, fun hrelease => ?_⟩
  exact ⟨releaseReset (assertReset s.popped).popped, step_of_head hrelease,
    resetValues_resetWith hp false s.popped.resets.succ s.draws s.schedule.tail.tail s.readData, rfl⟩

/-- Settles O6, by the two lemmas about `State.resetWith`. -/
theorem resetStateMeetsTheInvariant : Obligations.ResetStateMeetsTheInvariant :=
  ⟨inv_resetWith (by decide) false 0 0 [] 0, resetValues_resetWith (by decide) false 0 0 [] 0, rfl⟩

/-! ### What a command writes keeps the invariant -/

section
variable {s : State}

/-- The error fields a completion may set (`60_exceptions.md` R241, R251). -/
def legalError (p : Params) (code : ErrCode) (sub : BitVec 4) (idx : BitVec 5) : Prop :=
  (code = .none → sub = 0 ∧ idx = 0) ∧ (idx ≠ 0 → code = .config ∧ (sub = 5 ∨ sub = 6)) ∧ idx.toNat < p.nmax

/-- Every error but a polynomial's has index 0. -/
theorem legalError_zero {p : Params} (hp : p.ok = true) {code : ErrCode} {sub : BitVec 4}
    (h : code = .none → sub = 0) : legalError p code sub 0 :=
  ⟨fun hc => ⟨h hc, rfl⟩, fun hne => absurd rfl hne, Params.nmax_pos hp⟩

theorem State.Inv.complete (h : s.Inv) {code : ErrCode} {sub : BitVec 4} {idx : BitVec 5}
    (he : legalError s.params code sub idx) : (complete code sub idx s).Inv :=
  { h with
    busyClear := nofun
    noError := fun hc => ⟨decide_eq_false (not_not.2 hc), he.1 hc⟩
    indexMeaning := he.2.1
    indexBound := he.2.2
    resetIdle := fun _ => rfl
    engineFits := Engine.stale_fits _ _ }

theorem State.Inv.clearConfig (h : s.Inv) : (clearConfig s).Inv :=
  { h with
    actPolyCount := List.length_replicate
    activeValid := nofun
    activeAbsent := fun _ => ⟨rfl, rfl⟩
    unusedPolys := fun _ _ => List.getElem?_getD_replicate_default_eq _ _ _ }

theorem State.Inv.withOutLen (h : s.Inv) {len : Word} (hlen : len.toNat ≤ s.params.outBits) :
    ({ s with outLen := len } : State).Inv :=
  { h with outLenFits := hlen }

theorem State.Inv.withResult (h : s.Inv) (v : Word) : ({ s with result := v } : State).Inv :=
  { h with }

theorem reverseBits_zero {width : Nat} (hw : width ≤ 32) : reverseBits width 0 = 0 := by
  apply BitVec.eq_of_getLsbD_eq
  intro j _
  simp [getLsbD_reverseBits _ _ _ hw]

/-- The reversal of a K-bit polynomial that is not 0 is one too: reversing it again gives it back (R142). -/
theorem latchedPoly_legal {rev : Bool} {k : Nat} {p : Word} (hk : k ≤ 32) (hp : 0 < p.toNat ∧ p.toNat < 2 ^ k) :
    0 < (latchedPoly rev k p).toNat ∧ (latchedPoly rev k p).toNat < 2 ^ k := by
  cases rev with
  | false => exact hp
  | true =>
    obtain ⟨hpos, hlt⟩ := hp
    have htwice := reverseBits_twice_toNat p hk
    rw [Nat.mod_eq_of_lt hlt] at htwice
    refine ⟨Nat.pos_of_ne_zero fun h0 => ?_, Nat.lt_pow_two_of_testBit _ fun i hi => ?_⟩
    · have hzero : reverseBits k p = 0 := BitVec.eq_of_toNat_eq h0
      rw [hzero, reverseBits_zero hk] at htwice
      exact hpos.ne htwice
    · rw [BitVec.testBit_toNat]
      exact (getLsbD_reverseBits k p i hk).trans (by simp [Nat.not_lt.2 hi])

theorem latchConfig_actPolyAt (rev : Bool) (s : State) {i : Nat} (hi : i < s.params.nmax) :
    (latchConfig rev s).actPolyAt i =
      if i < s.cfgN.toNat then latchedPoly rev s.cfgK.toNat (s.cfgPolyAt i) else 0 := by
  simp [latchConfig, State.actPolyAt, hi]

theorem Code.valid_iff {p : Params} {c : Code} : c.valid p = true ↔
    (1 ≤ c.k ∧ c.k ≤ p.kmax) ∧ (1 ≤ c.n ∧ c.n ≤ p.nmax) ∧ ∀ q ∈ c.polys, 0 < q.toNat ∧ q.toNat < 2 ^ c.k := by
  simp [Code.valid, and_assoc]

theorem State.Inv.latchConfig (h : s.Inv) (rev : Bool) (hok : configError s = none) : (latchConfig rev s).Inv := by
  obtain ⟨hk1, hk, hn1, hn, hpolys⟩ := configError_none.1 hok
  have hkmax := Params.kmax_le h.paramsOk
  have hpoly (i : Nat) (hi : i < s.cfgN.toNat) : 0 < (s.cfgPolyAt i).toNat ∧ (s.cfgPolyAt i).toNat < 2 ^ s.cfgK.toNat :=
    hpolys _ (List.mem_map_of_mem (List.mem_range.2 hi))
  refine { h with actPolyCount := ?_, activeValid := fun _ => ?_, activeAbsent := nofun, unusedPolys := fun i hi => ?_ }
  · simp [Machine.latchConfig]
  · refine Code.valid_iff.2 ⟨⟨hk1, hk⟩, ?_, fun q hq => ?_⟩
    · rw [State.activeCode_n]
      exact ⟨hn1, hn⟩
    · obtain ⟨i, hi, rfl⟩ := List.mem_map.1 hq
      rw [List.mem_range, latchConfig_actN] at hi
      rw [latchConfig_actPolyAt rev s (by omega), if_pos hi]
      exact latchedPoly_legal (by omega) (hpoly i hi)
  · rw [latchConfig_actN] at hi
    by_cases hslot : i < s.params.nmax
    · rw [latchConfig_actPolyAt rev s hslot, if_neg (Nat.not_lt.2 hi)]
    · simp [Machine.latchConfig, State.actPolyAt, hslot]

theorem State.Inv.withMem (h : s.Inv) {m : Memory} (hwf : m.wf = true)
    (hcells : ∀ c ∈ m, bufferByte s.params c.1 = true) : ({ s with mem := m } : State).Inv :=
  { h with memWf := hwf, memInBuffers := hcells }

theorem State.storeOutBytes_eq (bits : List Bool) (s : State) (q : Nat) :
    s.storeOutBytes bits q = { s with mem := (s.storeOutBytes bits q).mem } := by
  induction q with
  | zero => rfl
  | succ q ih => rw [State.storeOutBytes, ih]

/-- The bytes that hold as many bits as the output buffer has are bytes of it. -/
theorem State.Inv.storeOutBits (h : s.Inv) {bits : List Bool} (hlen : bits.length ≤ s.params.outBits) :
    (s.storeOutBits bits).Inv := by
  have hcells (c : Host.Cell) (hc : c ∈ (s.storeOutBits bits).mem) : bufferByte s.params c.1 = true := by
    obtain ⟨hlo, hhi⟩ | hold := State.mem_storeOutBytes hc
    · unfold Params.outBits at hlen
      simp only [bufferByte, Bool.or_eq_true, decide_eq_true_eq]
      omega
    · exact h.memInBuffers c hold
  have heq : s.storeOutBits bits = { s with mem := (s.storeOutBits bits).mem } := s.storeOutBytes_eq bits _
  rw [heq]
  exact h.withMem (State.wf_storeOutBits h.memWf bits) hcells

/-! ### The commands keep the invariant -/

/-- The sub-causes and indices of CONFIGURE's errors (`60_exceptions.md` R243). -/
theorem legalError_configError (h : s.Inv) {e : BitVec 4 × BitVec 5} (he : configError s = some e) :
    legalError s.params .config e.1 e.2 := by
  obtain ⟨-, rfl⟩ | ⟨-, -, rfl⟩ | ⟨-, -, -, rfl⟩ | ⟨-, -, -, -, rfl⟩ | ⟨-, -, -, hn, hpoly⟩ := configError_spec he
  · exact legalError_zero h.paramsOk nofun
  · exact legalError_zero h.paramsOk nofun
  · exact legalError_zero h.paramsOk nofun
  · exact legalError_zero h.paramsOk nofun
  · obtain ⟨j, hj, hidx, -, hsub⟩ := polyError_spec hpoly
    obtain ⟨hmax, -⟩ := Params.ok_sizes h.paramsOk
    have hj' : j < s.cfgN.toNat := by simpa [State.stagedPolys] using hj
    refine ⟨nofun, fun _ => ⟨rfl, hsub.imp And.left And.left⟩, ?_⟩
    rw [hidx, Nat.zero_add, BitVec.toNat_ofNat]
    exact (Nat.mod_le _ _).trans_lt (by omega)

/-- A success of ENCODE or DECODE: as many bits, and as great a length, as the output buffer has room for. -/
theorem State.Inv.succeedWithOutput (h : s.Inv) {bits : List Bool} {len : Nat} (hbits : bits.length ≤ s.params.outBits)
    (hlen : len ≤ s.params.outBits) :
    (Machine.complete .none 0 0 { s.storeOutBits bits with outLen := BitVec.ofNat 32 len }).Inv := by
  have hlen' : (BitVec.ofNat 32 len).toNat ≤ (s.storeOutBits bits).params.outBits := by
    rw [BitVec.toNat_ofNat, State.storeOutBits_params]
    exact (Nat.mod_le _ _).trans hlen
  have hstored := h.storeOutBits hbits
  exact (hstored.withOutLen hlen').complete (legalError_zero hstored.paramsOk fun _ => rfl)

/-- An error of ENCODE or DECODE. -/
theorem State.Inv.failWithoutOutput (h : s.Inv) {code : ErrCode} (hcode : code ≠ .none) (sub : BitVec 4) :
    (Machine.complete code sub 0 { s with outLen := 0 }).Inv :=
  (h.withOutLen (Nat.zero_le _)).complete (legalError_zero h.paramsOk fun hnone => absurd hnone hcode)

theorem State.Inv.exec {i : Instr} {t : State} (h : s.Inv) (ht : exec i s = .next t) : t.Inv := by
  have hsuccess : legalError s.params .none 0 0 := legalError_zero h.paramsOk fun _ => rfl
  cases i with
  | nop =>
    rw [execNop_spec ht]
    exact h.complete hsuccess
  | configure rev =>
    obtain ⟨e, he, rfl⟩ | ⟨hnone, rfl⟩ := execConfigure_spec ht
    · exact h.clearConfig.complete (legalError_configError h he)
    · exact (h.latchConfig rev hnone).complete hsuccess
  | encode =>
    obtain ⟨e, he, rfl⟩ | ⟨hnone, rfl⟩ := execEncode_spec ht
    · refine h.failWithoutOutput ?_ e.2
      obtain rfl | rfl | rfl := encodeError_some he <;> nofun
    · obtain ⟨hcfg, -, hout⟩ := encodeError_none.1 hnone
      obtain ⟨hk, -⟩ := Code.valid_k (h.activeValid hcfg)
      exact h.succeedWithOutput ((s.encoded_inputBits_length hk).trans_le hout) hout
  | decode =>
    obtain ⟨e, he, rfl⟩ | ⟨hnone, rfl⟩ := execDecode_spec ht
    · refine h.failWithoutOutput ?_ e.2
      obtain rfl | rfl | rfl | rfl | rfl | rfl := decodeError_some he <;> nofun
    · obtain ⟨-, -, -, -, -, -, hout⟩ := decodeError_none.1 hnone
      exact h.succeedWithOutput (s.decoded_inputBits_length.trans_le hout) hout
  | revbits width =>
    obtain ⟨-, rfl⟩ | ⟨-, rfl⟩ := execRevbits_spec ht
    · exact h.complete (legalError_zero h.paramsOk nofun)
    · exact (h.withResult _).complete hsuccess

/-! ### The host's accesses keep the invariant -/

theorem State.Inv.readOffset (h : s.Inv) (off : Nat) : (readOffset off s).Inv := by
  unfold Machine.readOffset
  split
  · exact { h with }
  · exact { h with }

theorem State.Inv.accept (h : s.Inv) (hr : s.rst = false) (w : Word) : (accept w s).Inv :=
  { h with
    busyClear := fun _ => ⟨rfl, rfl, rfl⟩
    noError := fun _ => ⟨rfl, rfl, rfl⟩
    indexMeaning := fun hne => absurd rfl hne
    indexBound := Params.nmax_pos h.paramsOk
    resetIdle := fun hrst => absurd (hr.symm.trans hrst) Bool.false_ne_true
    engineFits := h.engineFits.withLatched w }

/-- R27: a flag that is clear stays clear. -/
theorem State.Inv.clearOnes (h : s.Inv) (v : Word) : ({ s with status := s.status.clearOnes v } : State).Inv := by
  refine { h with busyClear := fun hb => ?_, noError := fun hc => ?_ }
  · obtain ⟨hdone, herr, hcode⟩ := h.busyClear hb
    exact ⟨by simp [hdone], by simp [herr], hcode⟩
  · obtain ⟨herr, hsub, hidx⟩ := h.noError hc
    exact ⟨by simp [herr], hsub, hidx⟩

theorem State.Inv.storeWord (h : s.Inv) {a : Nat} (v : Word)
    (ha : ∀ b, a ≤ b → b < a + 4 → bufferByte s.params b = true) : (s.storeWord a v).Inv := by
  refine h.withMem (State.wf_storeWord h.memWf a v) fun c hc => ?_
  obtain ⟨hlo, hhi⟩ | hold := State.mem_storeWord hc
  · exact ha c.1 hlo hhi
  · exact h.memInBuffers c hold

theorem bufferByte_inBuf {p : Params} {w b : Nat} (hw : w < p.inWords) (hlo : inBase + 4 * w ≤ b)
    (hhi : b < inBase + 4 * w + 4) : bufferByte p b = true := by
  simp only [bufferByte, Bool.or_eq_true, decide_eq_true_eq]
  omega

/-- A write to a register of the map; a word of the input buffer is one that exists. -/
theorem State.Inv.writeReg (h : s.Inv) (hr : s.rst = false) (v : Word) {r : Reg}
    (hin : ∀ w, r = .inBuf w → w < s.params.inWords) : (s.writeReg v r).Inv := by
  cases r with
  | cmd => exact h.accept hr v
  | status => exact h.clearOnes v
  | cfgPoly i => exact { h with cfgPolyCount := List.length_set.trans h.cfgPolyCount }
  | inBuf w => exact h.storeWord v fun b => bufferByte_inBuf (hin w rfl)
  | ctrl | cfgK | cfgN | inLen | arg => exact { h with }
  | param0 | param1 | param2 | outLen | result | actK | actN | actPoly _ | outBuf _ | reserved => exact h

theorem State.Inv.writeOffset (h : s.Inv) (hr : s.rst = false) (off : Nat) (v : Word) : (writeOffset off v s).Inv := by
  unfold Machine.writeOffset
  split
  · exact { h with }
  · exact h.writeReg hr v fun _ hin => (regAt_eq_inBuf hin).1

/-- Every step keeps the invariant: each of its cases is a composition of the writes above. -/
theorem State.Inv.step {t : State} (h : s.Inv) (ht : step s = .next t) : t.Inv := by
  cases step_cases ht with
  | idle => exact h.popped
  | command i _ hi => exact h.popped.exec hi
  | illegalWord e => exact h.popped.complete (legalError_zero h.paramsOk nofun)
  | hostRead off => exact h.popped.readOffset off
  | hostWrite off v ha => exact h.popped.writeOffset ha.1 off v
  | assertReset => exact inv_resetWith h.paramsOk true _ _ _ _
  | releaseReset => exact { h.popped with resetIdle := nofun }

end

/-- Settles O7, by `State.Inv.step`. -/
theorem stepKeepsTheInvariant : Obligations.StepKeepsTheInvariant := fun _ _ h ht => h.step ht

end Sys2Proof.Machine
end

section
/-!
PROOFS. The outcomes of CONFIGURE, legal and illegal (`40_configuration.md` R120), and the errors of ENCODE and DECODE
in their order (`42_encoder.md` R160, `43_decoder.md` R190).
-/

namespace Sys2Proof.Machine

/-! ### CONFIGURE (`40_configuration.md` R120) -/

theorem exec_configure_of_error {rev : Bool} {s : State} {e : BitVec 4 × BitVec 5} (h : configError s = some e) :
    exec (.configure rev) s = .next (complete .config e.1 e.2 (clearConfig s)) := by
  simp only [exec, execConfigure, h, raise_eq]

theorem exec_configure_of_checked {rev : Bool} {s : State} (h : configError s = none) :
    exec (.configure rev) s = .next (complete .none 0 0 (latchConfig rev s)) := by
  simp only [exec, execConfigure, h, succeed_eq]

theorem State.getD_stagedPolys (s : State) {i : Nat} (hi : i < s.cfgN.toNat) :
    s.stagedPolys.getD i 0 = s.cfgPolyAt i := by
  simp [State.stagedPolys, hi]

/-- Settles O27: every check passes, and `latchConfig` is what is written. -/
theorem configureLatchesLegalValues : Obligations.ConfigureLatchesLegalValues := by
  intro rev s hk1 hk hn1 hn hpolys
  have hstaged (q : Word) (hq : q ∈ s.stagedPolys) : 0 < q.toNat ∧ q.toNat < 2 ^ s.cfgK.toNat := by
    obtain ⟨i, hi, rfl⟩ := List.mem_map.1 hq
    exact hpolys i (List.mem_range.1 hi)
  have hchecked := configError_none.2 ⟨hk1, hk, hn1, hn, hstaged⟩
  refine ⟨_, exec_configure_of_checked hchecked, complete_completed _ _ _ _, rfl, rfl, rfl, ?_,
    fun i hi => latchConfig_actPolyAt rev s hi, (latchConfig_sameOperands rev s).complete _ _ _, ⟨rfl, rfl⟩,
    fun _ => rfl⟩
  simp [latchConfig]

/-- The first polynomial that fails is the one reported: an earlier one is legal, and a later one is not reached. -/
theorem polyError_of_first {k j : Nat} {polys : List Word} {sub : BitVec 4} (hj : j < polys.length)
    (hlow : ∀ l, l < j → 0 < (polys.getD l 0).toNat ∧ (polys.getD l 0).toNat < 2 ^ k)
    (hbad : (polys.getD j 0).toNat = 0 ∧ sub = 5 ∨ 2 ^ k ≤ (polys.getD j 0).toNat ∧ sub = 6) :
    polyError k 0 polys = some (sub, BitVec.ofNat 5 j) := by
  have hpos : 0 < 2 ^ k := Nat.two_pow_pos k
  cases herr : polyError k 0 polys with
  | none =>
    have hmem : polys.getD j 0 ∈ polys := by
      rw [List.getD_eq_getElem _ _ hj]
      exact List.getElem_mem _
    have := polyError_none.1 herr _ hmem
    omega
  | some e =>
    obtain ⟨i, -, hidx, hbelow, hsub⟩ := polyError_spec herr
    obtain hlt | rfl | hgt := lt_trichotomy i j
    · have := hlow i hlt
      omega
    · refine congrArg some (Prod.ext ?_ (hidx.trans (by rw [Nat.zero_add])))
      obtain ⟨h0, rfl⟩ | ⟨hbig, rfl⟩ := hbad
      · obtain ⟨h5, -⟩ | ⟨-, hpos, -⟩ := hsub
        · exact h5
        · omega
      · obtain ⟨-, hzero⟩ | ⟨h6, -⟩ := hsub
        · omega
        · exact h6
    · have := hbelow j hgt
      omega

/-- Settles O28: the checks of `configError` in their order, and `polyError_of_first`. -/
theorem configureReportsTheFirstError : Obligations.ConfigureReportsTheFirstError := by
  intro rev s sub idx h
  have herr : configError s = some (sub, idx) := by
    obtain ⟨hk, rfl, rfl⟩ | ⟨hk, hk0, rfl, rfl⟩ | ⟨hk0, hk, hrest⟩ := h
    · rw [configError, if_pos hk]
    · rw [configError, if_neg hk0, if_pos hk]
    · rw [configError, if_neg hk0, if_neg (Nat.not_lt.2 hk)]
      obtain ⟨hn, rfl, rfl⟩ | ⟨hn, hn0, rfl, rfl⟩ | ⟨hn0, hn, i, hi, rfl, hlow, hbad⟩ := hrest
      · rw [if_pos hn]
      · rw [if_neg hn0, if_pos hn]
      · rw [if_neg hn0, if_neg (Nat.not_lt.2 hn)]
        refine polyError_of_first (by simpa [State.stagedPolys] using hi) (fun l hl => ?_) ?_
        · rw [s.getD_stagedPolys (hl.trans hi)]
          exact hlow l hl
        · rwa [s.getD_stagedPolys hi]
  exact ⟨_, exec_configure_of_error herr, complete_completed _ _ _ _, noConfig_clearConfig _ _ _ s,
    (clearConfig_sameOperands s).complete _ _ _, ⟨rfl, rfl⟩, fun _ => rfl⟩

/-! ### The errors of ENCODE and DECODE (R160, R190) -/

/-- An error of ENCODE or DECODE sets OUT_LEN to 0 and leaves the rest. -/
theorem exec_frame_of_error {i : Instr} {s : State} {code : ErrCode} {sub : BitVec 4}
    (h : exec i s = .next (complete code sub 0 { s with outLen := 0 })) :
    ∃ t, exec i s = .next t ∧ Completed code sub 0 t ∧ t.outLen = 0 ∧ t.result = s.result ∧ SameOperands s t ∧
      SameActive s t ∧ SameBytes s t :=
  ⟨_, h, complete_completed _ _ _ _, rfl, rfl, ((SameOperands.refl s).withOutLen 0).complete _ _ _,
    ((SameActive.refl s).withOutLen 0).complete _ _ _, fun _ => rfl⟩

theorem exec_encode_of_error {s : State} {e : ErrCode × BitVec 4} (h : encodeError s = some e) :
    exec .encode s = .next (complete e.1 e.2 0 { s with outLen := 0 }) := by
  simp only [exec, execEncode, h, raise_eq]

theorem exec_decode_of_error {s : State} {e : ErrCode × BitVec 4} (h : decodeError s = some e) :
    exec .decode s = .next (complete e.1 e.2 0 { s with outLen := 0 }) := by
  simp only [exec, execDecode, h, raise_eq]

/-- Settles O40: the checks of `encodeError` in their order. -/
theorem encodeReportsTheFirstError : Obligations.EncodeReportsTheFirstError := by
  intro s code sub h
  suffices herr : encodeError s = some (code, sub) from exec_frame_of_error (exec_encode_of_error herr)
  rw [← s.activeCode_encodedLength] at h
  unfold encodeError
  obtain ⟨hcfg, rfl, rfl⟩ | ⟨hcfg, hin, rfl, rfl⟩ | ⟨hcfg, hin, hout, rfl, rfl⟩ := h
  · rw [if_pos hcfg]
  · rw [if_neg (by simp [hcfg]), if_pos hin]
  · rw [if_neg (by simp [hcfg]), if_neg (by omega), if_pos hout]

/-- Settles O45: the checks of `decodeError` in their order. -/
theorem decodeReportsTheFirstError : Obligations.DecodeReportsTheFirstError := by
  intro s code sub h
  suffices herr : decodeError s = some (code, sub) from exec_frame_of_error (exec_decode_of_error herr)
  have hdvd : ¬(0 < s.inLen.toNat ∧ s.actN.toNat ∣ s.inLen.toNat) ↔
      s.inLen.toNat = 0 ∨ s.inLen.toNat % s.actN.toNat ≠ 0 := by
    rw [Nat.dvd_iff_mod_eq_zero]
    omega
  unfold decodeError State.trellisSteps
  obtain ⟨hcfg, rfl, rfl⟩ | ⟨hcfg, h⟩ := h
  · rw [if_pos hcfg]
  rw [if_neg (by simp [hcfg])]
  obtain ⟨hin, rfl, rfl⟩ | ⟨hin, h⟩ := h
  · rw [if_pos hin]
  rw [if_neg (Nat.not_lt.2 hin)]
  obtain ⟨hlen, rfl, rfl⟩ | ⟨hlen, h⟩ := h
  · rw [if_pos (hdvd.1 hlen)]
  rw [if_neg (mt hdvd.2 (not_not.2 hlen))]
  obtain ⟨hk, rfl, rfl⟩ | ⟨hk, h⟩ := h
  · rw [if_pos hk]
  rw [if_neg (Nat.not_lt.2 hk)]
  obtain ⟨hT, rfl, rfl⟩ | ⟨hT, hout, rfl, rfl⟩ := h
  · rw [if_pos hT]
  · rw [if_neg (Nat.not_lt.2 hT), if_pos hout]

end Sys2Proof.Machine
end

section
/-!
PROOFS. The command's life (`30_encoding.md`, `10_state.md` R38, R44): decoding against encoding, the engine's turn, and
what the host's accesses leave while a command runs.
-/

namespace Sys2Proof.Machine

/-- Settles O1, by `decodeWord_encodeWord` and `encodeWord_of_decodeWord`. -/
theorem decodeInvertsEncode : Obligations.DecodeInvertsEncode := fun _ _ => decodeWord_eq_ok_iff

/-- Settles O3, by evaluation of the decoder on each word. -/
theorem sampleWordsDecode : Obligations.SampleWordsDecode :=
  ⟨rfl, rfl, rfl, rfl, rfl, rfl, rfl, rfl, rfl, rfl, rfl, rfl⟩

/-! ### The engine's turn (R104, `60_exceptions.md` R260) -/

/-- The number of a word gives the word back. -/
theorem withFetchWord_encodeWord (s : State) (i : Instr) :
    s.withFetchWord 32 (encodeWord i).toNat = placeCommand (encodeWord i) s := by
  rw [State.withFetchWord, Nat.mod_eq_of_lt (encodeWord i).isLt, BitVec.ofNat_toNat, BitVec.setWidth_eq]

/-- The accepted word runs next: the engine's turn comes before the schedule. -/
theorem runsCommand_placeCommand (s : State) (i : Instr) : runsCommand (placeCommand (encodeWord i) s) i := by
  refine ⟨⟨rfl, rfl, ?_⟩, decodeWord_encodeWord i⟩
  cases hs : s.schedule with
  | nil => exact .inl (by simp [placeCommand, hs])
  | cons e rest => exact .inr (by simp [placeCommand, hs])

theorem placeCommand_popped_schedule (w : Word) (s : State) : (placeCommand w s).popped.schedule = s.schedule := by
  cases hs : s.schedule <;> simp [placeCommand, hs]

/-- Settles O8, by `step_of_runsCommand`. -/
theorem stepRunsTheLatchedCommand : Obligations.StepRunsTheLatchedCommand := by
  refine ⟨fun _ _ => step_of_runsCommand, fun s i => ?_⟩
  rw [withFetchWord_encodeWord]
  have hruns := runsCommand_placeCommand s i
  exact ⟨hruns.1, rfl, step_of_runsCommand hruns, placeCommand_popped_schedule _ s⟩

theorem engineTurn_idle {s : State} (hb : s.status.busy = false) : engineTurn s = .next s := by
  rw [engineTurn, hb]
  rfl

/-- Settles O14: idle, the engine's turn passes, and a read has a defined value. -/
theorem idleKeepsTheState : Obligations.IdleKeepsTheState := by
  intro s hb
  refine ⟨fun hs => ?_, fun hs => ?_, fun off ha hr => ⟨s.popped.regValue (regAt s.params off), ?_⟩⟩
  · rw [step_nil hs, engineTurn_idle hb]
  · exact (step_of_head hs).trans (engineTurn_idle hb)
  · rw [step_of_hostReads ha hr, readOffset_idle (s := s.popped) off hb]
    rfl

/-! ### What the host reaches while a command runs (R44, R67) -/

/-- `s` with what host accesses reach while BUSY = 1 taken from `o`: IE, the flags a STATUS write clears, OVR, and the
model's own record of the outside. -/
def State.touchedBy (s o : State) : State :=
  { s with
    ie := o.ie
    status := { s.status with done := o.status.done, err := o.status.err, ovr := o.status.ovr }
    draws := o.draws
    schedule := o.schedule
    readData := o.readData }

theorem readOffset_touched (off : Nat) (s : State) : readOffset off s = s.touchedBy (readOffset off s) := by
  unfold readOffset
  split <;> rfl

/-- Busy, a write is discarded, or clears flags, or sets IE, or is ignored. -/
theorem writeOffset_touched (off : Nat) (v : Word) {s : State} (hb : s.status.busy = true) :
    writeOffset off v s = s.touchedBy (writeOffset off v s) := by
  cases hl : (regAt s.params off).locked with
  | true =>
    rw [writeOffset_discarded v hb hl]
    rfl
  | false =>
    rw [writeOffset_unlocked v hl]
    cases hr : regAt s.params off with
    | cmd | cfgK | cfgN | cfgPoly _ | inLen | arg | inBuf _ =>
      rw [hr] at hl
      cases hl
    | _ => rfl

theorem readOffset_schedule (off : Nat) (s : State) : (readOffset off s).schedule = s.schedule := by
  unfold readOffset
  split <;> rfl

theorem writeOffset_schedule (off : Nat) (v : Word) (s : State) : (writeOffset off v s).schedule = s.schedule := by
  unfold writeOffset
  split
  · rfl
  · cases regAt s.params off <;> rfl

/-- A host access while BUSY = 1. -/
theorem step_touched {s : State} {off : Nat} (hb : s.status.busy = true) (ha : admitted s off)
    (h : hostReads s off ∨ ∃ v, hostWrites s off v) :
    ∃ t, step s = .next t ∧ t = s.touchedBy t ∧ t.schedule = s.schedule.tail := by
  obtain hr | ⟨v, hw⟩ := h
  · exact ⟨_, step_of_hostReads ha hr, readOffset_touched off s.popped, readOffset_schedule off s.popped⟩
  · exact ⟨_, step_of_hostWrites ha hw, writeOffset_touched (s := s.popped) off v hb,
      writeOffset_schedule off v s.popped⟩

/-- Settles O11: `State.touchedBy` keeps all of them. -/
theorem busyProtectsTheOperands : Obligations.BusyProtectsTheOperands := by
  intro s off hb ha h
  obtain ⟨t, ht, htouched, -⟩ := step_touched hb ha h
  refine ⟨t, ht, ?_⟩
  rw [htouched]
  exact ⟨hb, rfl, rfl, rfl, rfl, rfl, rfl, rfl, ⟨rfl, rfl, rfl, rfl⟩, fun _ => rfl, ⟨rfl, rfl⟩⟩

/-! ### A command after such accesses (R104) -/

theorem touchedBy_storeOutBytes (bits : List Bool) (s o : State) (q : Nat) :
    (s.touchedBy o).storeOutBytes bits q = (s.storeOutBytes bits q).touchedBy o := by
  induction q with
  | zero => rfl
  | succ q ih =>
    rw [State.storeOutBytes, ih]
    rfl

theorem encodeWritten_touchedBy (s o : State) : encodeWritten (s.touchedBy o) = (encodeWritten s).touchedBy o :=
  congrArg (fun t : State => { t with outLen := (encodeWritten s).outLen }) (touchedBy_storeOutBytes _ s o _)

theorem decodeWritten_touchedBy (s o : State) : decodeWritten (s.touchedBy o) = (decodeWritten s).touchedBy o :=
  congrArg (fun t : State => { t with outLen := (decodeWritten s).outLen }) (touchedBy_storeOutBytes _ s o _)

/-- A command reads nothing that the accesses reach: it makes the same checks, and the same writes on either side. -/
theorem exec_touchedBy {i : Instr} {s u : State} (h : exec i s = .next u) (o : State) :
    ∃ m code sub idx, u = complete code sub idx m ∧
      exec i (s.touchedBy o) = .next (complete code sub idx (m.touchedBy o)) := by
  cases i with
  | nop => exact ⟨_, _, _, _, execNop_spec h, rfl⟩
  | configure rev =>
    obtain ⟨e, he, rfl⟩ | ⟨he, rfl⟩ := execConfigure_spec h
    · exact ⟨_, _, _, _, rfl, exec_configure_of_error (s := s.touchedBy o) he⟩
    · exact ⟨_, _, _, _, rfl, exec_configure_of_checked (s := s.touchedBy o) he⟩
  | encode =>
    obtain ⟨e, he, rfl⟩ | ⟨he, rfl⟩ := execEncode_spec h
    · exact ⟨_, _, _, _, rfl, exec_encode_of_error (s := s.touchedBy o) he⟩
    · exact ⟨encodeWritten s, _, _, _, rfl,
        encodeWritten_touchedBy s o ▸ exec_encode_of_checked (s := s.touchedBy o) he⟩
  | decode =>
    obtain ⟨e, he, rfl⟩ | ⟨he, rfl⟩ := execDecode_spec h
    · exact ⟨_, _, _, _, rfl, exec_decode_of_error (s := s.touchedBy o) he⟩
    · exact ⟨decodeWritten s, _, _, _, rfl,
        decodeWritten_touchedBy s o ▸ exec_decode_of_checked (s := s.touchedBy o) he⟩
  | revbits width =>
    obtain ⟨hw, rfl⟩ | ⟨hw, rfl⟩ := execRevbits_spec h
    · exact ⟨_, _, _, _, rfl, execRevbits_of_illegalWidth hw _⟩
    · exact ⟨_, _, _, _, rfl, execRevbits_of_legalWidth hw _⟩

/-- The event is a host access that is admitted (`20_memory.md` R61). -/
def isAccess (s : State) (e : Event) : Prop :=
  ∃ off, admitted s off ∧ (e = .hostRead (s.params.base + off) 4 ∨ ∃ v, e = .hostWrite (s.params.base + off) 4 v)

theorem step_isAccess {s : State} {e : Event} (hb : s.status.busy = true) (he : isAccess s e)
    (hs : s.schedule.head? = some e) : ∃ t, step s = .next t ∧ t = s.touchedBy t ∧ t.schedule = s.schedule.tail := by
  obtain ⟨off, ha, rfl | ⟨v, rfl⟩⟩ := he
  · exact step_touched hb ha (.inl hs)
  · exact step_touched hb ha (.inr ⟨v, hs⟩)

/-- The accesses of the schedule are served one by one, and BUSY stays 1. -/
theorem runSteps_accesses (events : List Event) :
    ∀ s : State, s.schedule = events → s.status.busy = true → (∀ e ∈ events, isAccess s e) →
      ∃ t, (∀ count, runSteps (events.length + count) s = runSteps count t) ∧ t = s.touchedBy t ∧ t.schedule = [] := by
  induction events with
  | nil => exact fun s hs _ _ => ⟨s, fun count => by rw [List.length_nil, Nat.zero_add], rfl, hs⟩
  | cons e rest ih =>
    intro s hs hb hall
    obtain ⟨t, ht, htouched, hrest⟩ := step_isAccess hb (hall e (by simp)) (by rw [hs, List.head?_cons])
    have hbusy : t.status.busy = true := by rw [htouched]; exact hb
    have haccess (x : Event) (hx : x ∈ rest) : isAccess t x := by
      rw [htouched]
      exact hall x (by simp [hx])
    obtain ⟨u, hu, hutouched, hempty⟩ := ih t (by rw [hrest, hs, List.tail_cons]) hbusy haccess
    refine ⟨u, fun count => ?_, ?_, hempty⟩
    · rw [← hu count, List.length_cons, Nat.add_right_comm, runSteps, ht]
    · rw [htouched] at hutouched
      exact hutouched

/-- Settles O12: after its accesses the schedule is empty, and the engine's turn runs the command on what they left. -/
theorem acceptedCommandCompletesOnItsOperands : Obligations.AcceptedCommandCompletesOnItsOperands := by
  intro s i hb hr hi hall
  obtain ⟨t, ht, htouched, hempty⟩ := runSteps_accesses s.schedule s rfl hb hall
  obtain ⟨u, hu⟩ := exec_next i s
  obtain ⟨m, code, sub, idx, rfl, hexec⟩ := exec_touchedBy hu t
  have hruns : runsCommand t i := by
    rw [htouched]
    exact ⟨⟨hb, hr, .inl hempty⟩, hi⟩
  have hstep : step t = .next (complete code sub idx (m.touchedBy t)) := by
    rw [step_of_runsCommand hruns, State.popped_of_nil hempty, ← hexec, ← htouched]
  have hrun : runSteps (s.schedule.length + 1) s = .next (complete code sub idx (m.touchedBy t)) := by
    rw [ht 1]
    simp only [runSteps, hstep]
  exact ⟨_, _, hrun, hu, rfl, rfl, rfl, rfl, rfl, rfl, ⟨rfl, rfl, rfl, rfl⟩, ⟨rfl, rfl⟩, fun _ => rfl⟩

/-! ### Which steps write a result or a buffer (`20_memory.md` R75) -/

/-- OUT_LEN, RESULT and both buffers are as before. -/
def SameOutputs (s t : State) : Prop := SameResults s t ∧ SameBytes s t

theorem SameOutputs.of_eq {s t : State} (hlen : t.outLen = s.outLen) (hres : t.result = s.result) (hmem : t.mem = s.mem)
    (hresets : t.resets = s.resets) : SameOutputs s t :=
  ⟨⟨hlen, hres⟩, State.byteAt_congr hmem hresets⟩

theorem SameOutputs.of_popped {s t : State} (h : SameOutputs s.popped t) : SameOutputs s t :=
  ⟨{ h.1 with }, h.2⟩

/-- What a command writes of OUT_LEN, RESULT and the buffers. -/
theorem exec_outputs {i : Instr} {s t : State} (h : exec i s = .next t) :
    SameOutputs s t ∨
    ((i = .encode ∨ i = .decode) ∧ t.result = s.result ∧ (t.status.code = .none ∨ SameBytes s t)) ∨
    (∃ width, i = .revbits width ∧ width.toNat ≤ 32 ∧ t.outLen = s.outLen ∧ SameBytes s t) := by
  cases i with
  | nop =>
    obtain rfl := execNop_spec h
    exact .inl (.of_eq rfl rfl rfl rfl)
  | configure rev =>
    obtain ⟨e, -, rfl⟩ | ⟨-, rfl⟩ := execConfigure_spec h
    · exact .inl (.of_eq rfl rfl rfl rfl)
    · exact .inl (.of_eq rfl rfl rfl rfl)
  | encode =>
    obtain ⟨e, -, rfl⟩ | ⟨-, rfl⟩ := execEncode_spec h
    · exact .inr (.inl ⟨.inl rfl, rfl, .inr fun _ => rfl⟩)
    · exact .inr (.inl ⟨.inl rfl, State.storeOutBits_result _ s, .inl rfl⟩)
  | decode =>
    obtain ⟨e, -, rfl⟩ | ⟨-, rfl⟩ := execDecode_spec h
    · exact .inr (.inl ⟨.inr rfl, rfl, .inr fun _ => rfl⟩)
    · exact .inr (.inl ⟨.inr rfl, State.storeOutBits_result _ s, .inl rfl⟩)
  | revbits width =>
    obtain ⟨-, rfl⟩ | ⟨hw, rfl⟩ := execRevbits_spec h
    · exact .inl (.of_eq rfl rfl rfl rfl)
    · exact .inr (.inr ⟨width, rfl, hw, rfl, fun _ => rfl⟩)

theorem readOffset_sameOutputs (off : Nat) (s : State) : SameOutputs s (readOffset off s) := by
  unfold readOffset
  split
  · exact .of_eq rfl rfl rfl rfl
  · exact .of_eq rfl rfl rfl rfl

theorem writeOffset_sameResults (off : Nat) (v : Word) (s : State) : SameResults s (writeOffset off v s) := by
  unfold writeOffset
  split
  · exact ⟨rfl, rfl⟩
  · exact s.writeReg_sameResults v _

/-- The bytes that a host write reaches are those of the word it names, in the input buffer. -/
theorem byteAt_writeOffset {off a : Nat} {v : Word} {s : State} (h4 : off % 4 = 0)
    (h : (writeOffset off v s).byteAt a ≠ s.byteAt a) :
    off ≤ a ∧ a < off + 4 ∧ (s.params.ok = true → a < outBase) := by
  obtain ⟨w, hw, hin⟩ : ∃ w, regAt s.params off = .inBuf w ∧ ¬(a < inBase + 4 * w ∨ inBase + 4 * w + 4 ≤ a) := by
    unfold writeOffset at h
    split at h
    · exact absurd rfl h
    · by_contra hout
      exact h (s.byteAt_writeReg v fun w hw => not_not.1 fun hin => hout ⟨w, hw, hin⟩)
  obtain ⟨-, hlo, hslot⟩ := regAt_eq_inBuf hw
  have hbase : inBase % 4 = 0 := by decide
  refine ⟨by omega, by omega, fun hp => ?_⟩
  have := regAt_inBuf_below hp hw
  omega

theorem exec_byteAt_below {i : Instr} {s t : State} (h : exec i s = .next t) {a : Nat} (ha : a < outBase) :
    t.byteAt a = s.byteAt a := by
  obtain ⟨m, code, sub, idx, rfl, -, -, hbytes⟩ := exec_completes h
  exact hbytes a ha

/-- What a step that does not assert reset writes of them: nothing, or what ENCODE or DECODE writes, or RESULT, or a
word of the input buffer. -/
theorem step_outputs_cases {s t : State} (h : step s = .next t) (hreset : ¬assertsReset s) :
    SameOutputs s t ∨
    ((runsCommand s .encode ∨ runsCommand s .decode) ∧ t.result = s.result ∧ (t.status.code = .none ∨ SameBytes s t) ∧
      ∀ a, a < outBase → t.byteAt a = s.byteAt a) ∨
    (∃ width, runsCommand s (.revbits width) ∧ width.toNat ≤ 32 ∧ t.outLen = s.outLen ∧ SameBytes s t) ∨
    (SameResults s t ∧ ∃ off v, hostWrites s off v ∧ ∀ a, t.byteAt a ≠ s.byteAt a →
      off ≤ a ∧ a < off + 4 ∧ (s.params.ok = true → a < outBase)) := by
  cases step_cases h with
  | idle => exact .inl (.of_eq rfl rfl rfl rfl)
  | command i hi ht =>
    obtain hsame | ⟨rfl | rfl, hres, hbytes⟩ | ⟨width, rfl, hw, hlen, hbytes⟩ := exec_outputs ht
    · exact .inl hsame.of_popped
    · exact .inr (.inl ⟨.inl hi, hres, hbytes, fun _ => exec_byteAt_below ht⟩)
    · exact .inr (.inl ⟨.inr hi, hres, hbytes, fun _ => exec_byteAt_below ht⟩)
    · exact .inr (.inr (.inl ⟨width, hi, hw, hlen, hbytes⟩))
  | illegalWord e => exact .inl (.of_eq rfl rfl rfl rfl)
  | hostRead off => exact .inl (readOffset_sameOutputs off s.popped).of_popped
  | hostWrite off v ha hw =>
    have hresults : SameResults s (writeOffset off v s.popped) := { writeOffset_sameResults off v s.popped with }
    exact .inr (.inr (.inr ⟨hresults, off, v, hw, fun _ => byteAt_writeOffset (s := s.popped) ha.2.1⟩))
  | assertReset ha => exact absurd ha hreset
  | releaseReset => exact .inl (.of_eq rfl rfl rfl rfl)

/-- Settles O26, by `step_outputs_cases`. -/
theorem resultsAreWrittenOnlyByTheirCommands : Obligations.ResultsAreWrittenOnlyByTheirCommands := by
  intro s t h hreset
  obtain ⟨⟨hlen, hres⟩, hbytes⟩ | ⟨hcmd, hres, hbytes, hinput⟩ | ⟨width, hcmd, hw, hlen, hbytes⟩ |
    ⟨⟨hlen, hres⟩, off, v, hwrite, hword⟩ := step_outputs_cases h hreset
  · exact ⟨fun hne => absurd hlen hne, fun hne => absurd hres hne, fun a _ _ hne => absurd (hbytes a) hne,
      fun a _ _ hne => absurd (hbytes a) hne⟩
  · exact ⟨fun _ => hcmd, fun hne => absurd hres hne,
      fun a _ _ hne => ⟨hcmd, hbytes.resolve_right fun hsame => hne (hsame a)⟩,
      fun a ha _ hne => absurd (hinput a ha) hne⟩
  · exact ⟨fun hne => absurd hlen hne, fun _ => ⟨width, hcmd, hw⟩, fun a _ _ hne => absurd (hbytes a) hne,
      fun a _ _ hne => absurd (hbytes a) hne⟩
  · refine ⟨fun hne => absurd hlen hne, fun hne => absurd hres hne, fun a ha hp hne => ?_, fun a _ _ hne => ?_⟩
    · exact absurd ((hword a hne).2.2 hp) (Nat.not_lt.2 ha)
    · obtain ⟨hlo, hhi, -⟩ := hword a hne
      exact ⟨off, v, hwrite, hlo, hhi⟩

end Sys2Proof.Machine
end

section
/-!
PROOFS. The codes: ENCODE as a convolution (`42_encoder.md`), DECODE as a maximum-likelihood decoder and the errors that
the example codes correct (`43_decoder.md` section 4).
-/

namespace Sys2Proof.Machine

/-! ### The encoder register (`41_bit_utilities.md` R143) -/

/-- Settles O35, by `reg_eq` and the register's bits. -/
theorem registerHoldsTheLastInputs : Obligations.RegisterHoldsTheLastInputs := by
  intro k s b hk hs
  have hpow : 2 ^ k = 2 * 2 ^ (k - 1) := by rw [← pow_succ', Nat.sub_add_cancel hk]
  have hb := b.toNat_le
  refine ⟨?_, reg_lt k s b, reg_testBit_zero k s b hk, fun j h1 hj => ?_⟩
  · rw [reg_eq, Nat.mod_eq_of_lt (by omega)]
  · obtain ⟨i, rfl⟩ : ∃ i, j = i + 1 := ⟨j - 1, by omega⟩
    exact reg_testBit_succ k s i b (by omega)

/-! ### The convolution (R143 to R145, R160) -/

/-- Bit d of the register of step i is the input d steps back, and 0 before the first. -/
theorem Code.testBit_reg_run (c : Code) {bits : List Bool} {i d : Nat} (hi : i < bits.length) (hd : d < c.k) :
    (reg c.k (c.run 0 (bits.take i)) (bits.getD i false)).testBit d = (decide (d ≤ i) && bits.getD (i - d) false) := by
  have htake : (bits.take i).length = i := List.length_take_of_le hi.le
  cases d with
  | zero => simp [reg_testBit_zero _ _ _ hd]
  | succ d =>
    rw [reg_testBit_succ _ _ _ _ hd]
    by_cases hdi : d < i
    · have hback : i - 1 - d = i - (d + 1) := by omega
      rw [c.testBit_run _ _ _ (by omega) (by omega), List.getD_reverse _ (by omega), htake, hback,
        decide_eq_true (by omega), Bool.true_and, List.getD_eq_getElem?_getD, List.getElem?_take_of_lt (by omega),
        ← List.getD_eq_getElem?_getD]
    · have hstate := c.run_zero_lt (bits.take i)
      rw [htake, min_eq_left (by omega)] at hstate
      rw [decide_eq_false (by omega), Bool.false_and]
      exact Nat.testBit_lt_two_pow (hstate.trans_le (Nat.pow_le_pow_right (by decide) (by omega)))

theorem tap_eq_countP (k r p : Nat) :
    tap k r p = decide (((List.range k).countP fun j => r.testBit j && p.testBit j) % 2 = 1) := by
  rw [tap, parity_eq, xorBits_eq_countP, List.countP_map]
  simp only [← Nat.testBit_and]
  rfl

/-- Settles O39: the bits of the register are the last inputs, and the tap counts those that the polynomial takes. -/
theorem encodeIsTheConvolutionOfTheMessage : Obligations.EncodeIsTheConvolutionOfTheMessage := by
  intro s hp hcfg hk hin hout
  obtain ⟨t, ht, -, -, hbits, -⟩ := encodeWritesTheCodeword s hp hcfg hk hin hout
  refine ⟨t, ht, fun i j hi hj => ?_⟩
  rw [hbits i j hi hj, tap_eq_countP, ← s.getD_flushed]
  congr 3
  refine List.countP_congr fun d hd => ?_
  have hlen : i < (s.activeCode.flushed s.inputBits).length := by
    rw [Code.flushed_length, s.inputBits_length, s.activeCode_k]
    omega
  have hreg := s.activeCode.testBit_reg_run hlen (List.mem_range.1 hd)
  rw [s.activeCode_k, s.getD_flushed (i - d)] at hreg
  rw [hreg, BitVec.testBit_toNat, Bool.and_comm]

/-! ### Maximum likelihood (R204) -/

theorem decodeWritten_bits {s : State} (hlen : (decodeWritten s).outLen.toNat = s.trellisSteps - (s.actK.toNat - 1)) :
    (List.range (decodeWritten s).outLen.toNat).map (decodeWritten s).outBit =
      s.activeCode.decoded s.params.inf s.inputBits := by
  have hstored := s.decoded_inputBits_length
  refine List.ext_getElem (by simp [hlen, hstored]) fun j hj hj' => ?_
  rw [List.getElem_map, List.getElem_range, decodeWritten_outBit, if_pos (hj'.trans_eq hstored)]
  exact List.getD_eq_getElem _ _ hj'

/-- Settles O51: the output buffer holds `Code.decoded` of the input, whose codeword is at the least distance. -/
theorem decodeIsMaximumLikelihood : Obligations.DecodeIsMaximumLikelihood := by
  intro s hs hcfg hin hpos hdvd hK hT hout
  have hlen := decodeWritten_outLen_toNat hs.paramsOk hout
  have hchecked := decodeError_none.2 ⟨hcfg, hin, hpos.ne', Nat.mod_eq_zero_of_dvd hdvd, hK, hT, hout⟩
  refine ⟨_, exec_decode_of_checked hchecked, complete_completed _ _ _ _, fun msg hmsg => ?_⟩
  have hmsg' : msg.length = s.trellisSteps - (s.actK.toNat - 1) := hmsg.trans hlen
  have hbits := decodeWritten_bits hlen
  have hleast := pathMetricIsTheLeastDistance s.params s.activeCode s.inputBits hs.paramsOk (hs.activeValid hcfg)
  rw [s.inputBits_length, s.activeCode_n, s.activeCode_k] at hleast
  obtain ⟨-, hattained, hle⟩ := hleast hdvd hK hT
  calc _ = hamming (s.activeCode.encoded (s.activeCode.decoded s.params.inf s.inputBits)) s.inputBits := by
        rw [← hbits]; rfl
    _ ≤ _ := hattained.trans_le (hle msg (by unfold State.trellisSteps at hmsg'; omega))

/-! ### A lower bound on the weight of a codeword

A potential on the trellis: no transition lowers it by more than the weight of its symbol. So a path back to state 0
weighs at least the potential of the state it leaves. -/

/-- The potential `v`, one entry for each state, is 0 at state 0 and falls on no transition by more than its weight. -/
def isPotential (c : Code) (v : List Nat) : Prop :=
  v.getD 0 0 = 0 ∧ ∀ s, s < c.numStates → ∀ b, v.getD s 0 ≤ (c.output s b).count true + v.getD (c.next s b) 0

theorem potential_le_emit {c : Code} {v : List Nat} (hv : isPotential c v) (bits : List Bool) :
    ∀ sr, sr < c.numStates → v.getD sr 0 ≤ (c.emit sr bits).count true + v.getD (c.run sr bits) 0 := by
  induction bits with
  | nil => exact fun sr _ => Nat.le_add_left _ _
  | cons b bits ih =>
    intro sr hsr
    have hstep := hv.2 sr hsr b
    have hrest := ih (c.next sr b) (c.next_lt sr b)
    rw [Code.emit, Code.run, List.count_append]
    omega

/-- A leading 0 leaves the encoder in state 0. -/
theorem Code.encoded_cons_false (c : Code) (msg : List Bool) :
    c.encoded (false :: msg) = c.output 0 false ++ c.encoded msg := by
  have hstay : c.next 0 false = 0 := c.run_zero_replicate_false 1
  change c.output 0 false ++ c.emit (c.next 0 false) (c.flushed msg) = _
  rw [hstay]
  rfl

/-- From its first 1 on, the codeword of a message that is not 0 weighs what the path from state 0 back to it weighs. -/
theorem Code.weight_encoded {c : Code} {v : List Nat} (hv : isPotential c v) {msg : List Bool} (h : true ∈ msg) :
    (c.output 0 true).count true + v.getD (c.next 0 true) 0 ≤ (c.encoded msg).count true := by
  induction msg with
  | nil => exact absurd h List.not_mem_nil
  | cons b msg ih =>
    cases b with
    | false =>
      have := ih (by simpa using h)
      rw [c.encoded_cons_false, List.count_append]
      omega
    | true =>
      have hback : c.run (c.next 0 true) (c.flushed msg) = 0 := c.run_zero_flushed (true :: msg)
      have hpath := potential_le_emit hv (c.flushed msg) _ (c.next_lt 0 true)
      rw [hback, hv.1] at hpath
      change _ ≤ (c.output 0 true ++ c.emit (c.next 0 true) (c.flushed msg)).count true
      rw [List.count_append]
      omega

theorem xor_toNat_le : ∀ a b x : Bool, (a ^^ b).toNat ≤ (a ^^ x).toNat + (b ^^ x).toNat := by
  decide

/-- Two sequences near a third are near each other. -/
theorem hamming_le_add (as : List Bool) :
    ∀ bs cs, as.length = cs.length → hamming as bs ≤ hamming as cs + hamming bs cs := by
  induction as with
  | nil => exact fun _ _ _ => Nat.zero_le _
  | cons a as ih =>
    intro bs cs h
    cases bs with
    | nil => exact Nat.zero_le _
    | cons b bs =>
      cases cs with
      | nil => cases h
      | cons x cs =>
        have hbit := xor_toNat_le a b x
        have := ih bs cs (Nat.succ.inj h)
        simp only [hamming]
        omega

/-- A received sequence within `e` of a codeword decodes to its message when codewords lie more than 2·e apart: the
decoder's codeword is no farther from it, and the difference of the two is a codeword (R166, R204). -/
theorem Code.decoded_of_near {p : Params} {c : Code} {v : List Nat} {e : Nat} {msg y : List Bool} (hp : p.ok = true)
    (hc : c.valid p = true) (hv : isPotential c v)
    (he : 2 * e < (c.output 0 true).count true + v.getD (c.next 0 true) 0)
    (hy : y.length = c.n * (msg.length + (c.k - 1))) (hT : msg.length + (c.k - 1) ≤ p.tmax)
    (hnear : hamming (c.encoded msg) y ≤ e) : c.decoded p.inf y = msg := by
  have hk := (Code.valid_k hc).1
  have hsteps : y.length / c.n = msg.length + (c.k - 1) := by
    rw [hy, Nat.mul_div_cancel_left _ (Code.valid_n hc).1]
  have hlen : (c.decoded p.inf y).length = msg.length := by
    rw [c.decoded_length, hsteps, Nat.add_sub_cancel]
  have hencoded (m : List Bool) (hm : m.length = msg.length) : (c.encoded m).length = y.length := by
    rw [c.encoded_length _ hk, hm, hy, Code.encodedLength, Nat.add_sub_assoc hk]
  obtain ⟨-, hattained, hleast⟩ := pathMetricIsTheLeastDistance p c y hp hc (hy ▸ Nat.dvd_mul_right _ _) (by omega)
    (by omega)
  have hapart := hamming_le_add (c.encoded (c.decoded p.inf y)) (c.encoded msg) y (hencoded _ hlen)
  rw [hamming_eq_count, ← c.encoded_xor hlen] at hapart
  have hle := hleast msg hsteps.symm
  refine (hamming_eq_zero_iff _ _ hlen).1 ?_
  rw [hamming_eq_count, List.count_eq_zero]
  intro hdiff
  have := Code.weight_encoded hv hdiff
  omega

/-! ### The example codes -/

/-- The least weight of a path from each state of K = 3, [7, 5] to state 0. -/
def potential3 : List Nat := [0, 3, 2, 3]

/-- The least weight of a path from each state of K = 7, [91, 117, 121] to state 0. -/
def potential7 : List Nat :=
  [0, 12, 11, 10, 10, 10, 9, 9, 8, 9, 9, 9, 6, 10, 7, 10, 5, 10, 10, 8, 7, 9, 8, 9, 5, 10, 8, 10, 7, 9, 9, 9,
    3, 11, 11, 10, 9, 10, 6, 8, 5, 10, 8, 10, 7, 9, 9, 10, 4, 11, 11, 7, 6, 10, 9, 10, 6, 7, 7, 11, 8, 8, 9, 9]

theorem isPotential_potential3 : isPotential { k := 3, polys := [7, 5] } potential3 := by
  unfold isPotential
  decide

theorem isPotential_potential7 : isPotential { k := 7, polys := [91, 117, 121] } potential7 := by
  unfold isPotential
  decide

/-- Settles O53: codewords lie at least 5 apart in the first code and at least 15 in the second. -/
theorem exampleCodesCorrectErrors : Obligations.ExampleCodesCorrectErrors := by
  intro p c e msg y hp hc hcode hy hT hnear
  have hk := (Code.valid_k hc).1
  rw [Nat.add_sub_assoc hk] at hy hT
  obtain ⟨rfl, rfl⟩ | ⟨rfl, rfl⟩ := hcode
  · exact Code.decoded_of_near hp hc isPotential_potential3 (by decide) hy hT hnear
  · exact Code.decoded_of_near hp hc isPotential_potential7 (by decide) hy hT hnear

end Sys2Proof.Machine
end
